-- ==== Sys2Proof/Word.lean ====
section
/-! DEFINITION. The word types of the command port and of the register files, and the two one-bit
fields of a command that are names: BANK (R26, R68) and MODE (R69). -/

namespace Sys2Proof

/-- A byte of the little-endian byte view of a command word (R53). -/
abbrev Byte := BitVec 8

/-- The command word CMD (R67). -/
abbrev Word := BitVec 32

/-- A carrier ID, 0..15 (R70). -/
abbrev CcId := BitVec 4

/-- The slot occupancy bitmap MAP: bit i selects slot i (R71). -/
abbrev SlotMap := BitVec 16

/-- A rate code: UInt3, whose values 6 and 7 no rule writes (R18). -/
abbrev RateCode := BitVec 3

/-- A sequence length, 1..16 (R24, R25, R32). -/
abbrev SeqLen := { n : Nat // 1 ≤ n ∧ n ≤ 16 }

/-- A bank: downlink = 0, uplink = 1 (R26). -/
inductive Bank where
  | dl
  | ul
deriving DecidableEq, Repr, Inhabited

/-- The capacity checker's mode, the CMD field MODE: add = 0, update = 1 (R69, R146). -/
inductive CapMode where
  | add
  | update
deriving DecidableEq, Repr, Inhabited

end Sys2Proof
end

