-- ==== Sys2Proof/Syntax.lean ====
section
/-! DEFINITION. The 31 commands of spec/opcode_table.json (R74), each with the CMD fields it reads.
The ARGS operands of a command (R72) are read from the ARGS record, which State holds. -/

namespace Sys2Proof

/-- A decoded command word: one constructor per row of R74. -/
inductive Instr where
  | lookup
  | reset
  | configure
  | initialise
  | activate
  | deactivate
  | close
  | getState
  | getTriggersCfg
  | setTriggersCfg
  | getStatus
  | getCurrentCfg
  | getCurrentCfgSw
  | getEmptyCfg (bank : Bank)
  | readWork (bank : Bank)
  | addCc (bank : Bank) (ccid : CcId) (map : SlotMap)
  | removeCc (bank : Bank) (ccid : CcId)
  | updateCc (bank : Bank) (ccid : CcId)
  | moveCc (bank : Bank) (ccid : CcId)
  | addAux (bank : Bank)
  | removeAux (bank : Bank)
  | setAntGain
  | setAllAntGain
  | commit
  | commitSw
  | countOnes (map : SlotMap)
  | findUnusedId (bank : Bank)
  | checkSlots (bank : Bank) (ccid : CcId) (map : SlotMap)
  | deriveRate (map : SlotMap)
  | checkCapacity (bank : Bank) (mode : CapMode) (ccid : CcId) (map : SlotMap)
  | derivePhaseOffset
deriving DecidableEq, Repr

end Sys2Proof
end

