-- ==== Sys2Proof/Decode.lean ====
section
/-! DEFINITION. The decoder (R75) over the opcode table R74, total on every word and rejecting by name, and
after it the encoder (R67), the match and mask of a row, and the assembler's word (R77). -/

namespace Sys2Proof

/-! ### The fields of a command word (R67) -/

def Bank.bit : Bank → BitVec 1
  | .dl => 0
  | .ul => 1

def Bank.ofBit (b : BitVec 1) : Bank := if b = 0 then .dl else .ul

def CapMode.bit : CapMode → BitVec 1
  | .add => 0
  | .update => 1

def CapMode.ofBit (b : BitVec 1) : CapMode := if b = 0 then .add else .update

def fieldOpc (w : Word) : BitVec 8 := w.extractLsb' 24 8
def fieldBank (w : Word) : BitVec 1 := w.extractLsb' 23 1
def fieldMode (w : Word) : BitVec 1 := w.extractLsb' 22 1
def fieldRsv (w : Word) : BitVec 2 := w.extractLsb' 20 2
def fieldCcid (w : Word) : CcId := w.extractLsb' 16 4
def fieldMap (w : Word) : SlotMap := w.extractLsb' 0 16

/-- A command word from its fields, RSV = 0 (R67). -/
def cmdWord (opc : BitVec 8) (bank mode : BitVec 1) (ccid : CcId) (map : SlotMap) : Word :=
  opc.setWidth 32 <<< 24 ||| bank.setWidth 32 <<< 23 ||| mode.setWidth 32 <<< 22
    ||| ccid.setWidth 32 <<< 16 ||| map.setWidth 32

/-! ### The opcode table (R74) -/

/-- One row of R74: the opcode, which CMD fields it reads, and the command they make. -/
structure OpcodeRow where
  opc : BitVec 8
  usesBank : Bool
  usesMode : Bool
  usesCcid : Bool
  usesMap : Bool
  make : Bank → CapMode → CcId → SlotMap → Instr

/-- A row that reads no CMD field. -/
def plainRow (opc : BitVec 8) (i : Instr) : OpcodeRow := ⟨opc, false, false, false, false, fun _ _ _ _ => i⟩

/-- A row that reads BANK alone. -/
def bankRow (opc : BitVec 8) (f : Bank → Instr) : OpcodeRow :=
  ⟨opc, true, false, false, false, fun b _ _ _ => f b⟩

/-- A row that reads BANK and CCID. -/
def carrierRow (opc : BitVec 8) (f : Bank → CcId → Instr) : OpcodeRow :=
  ⟨opc, true, false, true, false, fun b _ c _ => f b c⟩

/-- A row that reads BANK, CCID and MAP. -/
def slotsRow (opc : BitVec 8) (f : Bank → CcId → SlotMap → Instr) : OpcodeRow :=
  ⟨opc, true, false, true, true, fun b _ c m => f b c m⟩

/-- A row that reads MAP alone. -/
def mapRow (opc : BitVec 8) (f : SlotMap → Instr) : OpcodeRow :=
  ⟨opc, false, false, false, true, fun _ _ _ m => f m⟩

def lifecycleRows : List OpcodeRow :=
  [plainRow 0x01 .lookup, plainRow 0x02 .reset, plainRow 0x03 .configure, plainRow 0x04 .initialise,
   plainRow 0x05 .activate, plainRow 0x06 .deactivate, plainRow 0x07 .close, plainRow 0x08 .getState,
   plainRow 0x10 .getTriggersCfg, plainRow 0x11 .setTriggersCfg, plainRow 0x18 .getStatus]

def snapshotRows : List OpcodeRow :=
  [plainRow 0x20 .getCurrentCfg, plainRow 0x21 .getCurrentCfgSw, bankRow 0x22 .getEmptyCfg,
   bankRow 0x23 .readWork]

def builderRows : List OpcodeRow :=
  [slotsRow 0x30 .addCc, carrierRow 0x31 .removeCc, carrierRow 0x32 .updateCc, carrierRow 0x33 .moveCc,
   bankRow 0x34 .addAux, bankRow 0x35 .removeAux, plainRow 0x36 .setAntGain, plainRow 0x37 .setAllAntGain]

def commitRows : List OpcodeRow :=
  [plainRow 0x40 .commit, plainRow 0x41 .commitSw]

def queryRows : List OpcodeRow :=
  [mapRow 0x50 .countOnes, bankRow 0x51 .findUnusedId, slotsRow 0x52 .checkSlots, mapRow 0x53 .deriveRate,
   ⟨0x54, true, true, true, true, .checkCapacity⟩, plainRow 0x55 .derivePhaseOffset]

def opcodeTable : List OpcodeRow :=
  lifecycleRows ++ snapshotRows ++ builderRows ++ commitRows ++ queryRows

/-- The row of an opcode (R75, step 1). -/
def findRow (opc : BitVec 8) : Option OpcodeRow := opcodeTable.find? fun r => r.opc == opc

/-- A field the row does not read is zero (R75, step 3). -/
def OpcodeRow.unusedZero (r : OpcodeRow) (w : Word) : Bool :=
  (r.usesBank || fieldBank w == 0) && (r.usesMode || fieldMode w == 0)
    && (r.usesCcid || fieldCcid w == 0) && (r.usesMap || fieldMap w == 0)

/-- The row's match value: OPC << 24 (R75). -/
def OpcodeRow.matchBits (r : OpcodeRow) : Word := r.opc.setWidth 32 <<< 24

/-- The row's mask: the opcode, RSV and every unused field (R75). -/
def OpcodeRow.maskBits (r : OpcodeRow) : Word :=
  0xFF300000 ||| (if r.usesBank then 0 else 0x00800000) ||| (if r.usesMode then 0 else 0x00400000)
    ||| (if r.usesCcid then 0 else 0x000F0000) ||| (if r.usesMap then 0 else 0x0000FFFF)

/-! ### The decoder (R75) -/

/-- Why a word is no command. Each is the one fault ILLEGAL_COMMAND of R76. -/
inductive DecodeError where
  /-- OPC is not in R74. -/
  | unassignedOpcode
  /-- RSV ≠ 0. -/
  | reservedBits
  /-- A field the opcode does not use is nonzero. -/
  | unusedField
  /-- The byte view does not hold the four bytes of one command word. -/
  | notOneWord
deriving DecidableEq, Repr

/-- The decoder's four steps (R75). -/
def decode (w : Word) : Except DecodeError Instr :=
  match findRow (fieldOpc w) with
  | none => .error .unassignedOpcode
  | some r =>
    if fieldRsv w ≠ 0 then .error .reservedBits
    else if r.unusedZero w then
      .ok (r.make (Bank.ofBit (fieldBank w)) (CapMode.ofBit (fieldMode w)) (fieldCcid w) (fieldMap w))
    else .error .unusedField

/-- The decoder on the byte view of a command word, which is little-endian (R53). -/
def decodeBytes : List Byte → Except DecodeError Instr
  | [b0, b1, b2, b3] =>
    decode (b3.setWidth 32 <<< 24 ||| b2.setWidth 32 <<< 16 ||| b1.setWidth 32 <<< 8 ||| b0.setWidth 32)
  | _ => .error .notOneWord

/-- The command the decoder reads from a table row's word: every command is one 32-bit word (R67), so the bits
above nbits are zero and the four bytes go to the decoder, bits 7..0 at the lowest address. -/
def decodeTableWord (nbits w : Nat) : Option Instr :=
  let v := w % 2 ^ nbits
  match decodeBytes [BitVec.ofNat 8 v, BitVec.ofNat 8 (v / 256), BitVec.ofNat 8 (v / 65536),
      BitVec.ofNat 8 (v / 16777216)] with
  | .ok i => some i
  | .error _ => none

/-! ### The encoder (R67, R74) -/

/-- The command word of a command. -/
def encode : Instr → Word
  | .lookup => cmdWord 0x01 0 0 0 0
  | .reset => cmdWord 0x02 0 0 0 0
  | .configure => cmdWord 0x03 0 0 0 0
  | .initialise => cmdWord 0x04 0 0 0 0
  | .activate => cmdWord 0x05 0 0 0 0
  | .deactivate => cmdWord 0x06 0 0 0 0
  | .close => cmdWord 0x07 0 0 0 0
  | .getState => cmdWord 0x08 0 0 0 0
  | .getTriggersCfg => cmdWord 0x10 0 0 0 0
  | .setTriggersCfg => cmdWord 0x11 0 0 0 0
  | .getStatus => cmdWord 0x18 0 0 0 0
  | .getCurrentCfg => cmdWord 0x20 0 0 0 0
  | .getCurrentCfgSw => cmdWord 0x21 0 0 0 0
  | .getEmptyCfg b => cmdWord 0x22 b.bit 0 0 0
  | .readWork b => cmdWord 0x23 b.bit 0 0 0
  | .addCc b c m => cmdWord 0x30 b.bit 0 c m
  | .removeCc b c => cmdWord 0x31 b.bit 0 c 0
  | .updateCc b c => cmdWord 0x32 b.bit 0 c 0
  | .moveCc b c => cmdWord 0x33 b.bit 0 c 0
  | .addAux b => cmdWord 0x34 b.bit 0 0 0
  | .removeAux b => cmdWord 0x35 b.bit 0 0 0
  | .setAntGain => cmdWord 0x36 0 0 0 0
  | .setAllAntGain => cmdWord 0x37 0 0 0 0
  | .commit => cmdWord 0x40 0 0 0 0
  | .commitSw => cmdWord 0x41 0 0 0 0
  | .countOnes m => cmdWord 0x50 0 0 0 m
  | .findUnusedId b => cmdWord 0x51 b.bit 0 0 0
  | .checkSlots b c m => cmdWord 0x52 b.bit 0 c m
  | .deriveRate m => cmdWord 0x53 0 0 0 m
  | .checkCapacity b md c m => cmdWord 0x54 b.bit md.bit c m
  | .derivePhaseOffset => cmdWord 0x55 0 0 0 0

/-! ### The assembler (R77) -/

/-- The word the assembler makes from an opcode and its qualifiers and operands: an absent one is 0, and one
that the opcode does not use is refused. -/
def assemble (opc : BitVec 8) (bank : Option Bank) (mode : Option CapMode) (ccid : Option CcId)
    (map : Option SlotMap) : Option Word :=
  match findRow opc with
  | none => none
  | some r =>
    if (r.usesBank || bank.isNone) && (r.usesMode || mode.isNone) && (r.usesCcid || ccid.isNone)
        && (r.usesMap || map.isNone) then
      some (cmdWord opc (bank.getD .dl).bit (mode.getD .add).bit (ccid.getD 0) (map.getD 0))
    else none

end Sys2Proof
end

