-- ==== Sys2Proof/Config.lean ====
section
/-! DEFINITION. What one hardware build fixes (R8, R9) and the free values of the model: constants
without a body, so that no proof can see which number they are. -/

namespace Sys2Proof

/-! ### Open field widths (R9, D18). No rule computes on a field of these widths but to store and copy it. -/

opaque Config.wFcw : Nat
opaque Config.wSmod : Nat
opaque Config.wDmod : Nat
opaque Config.wPdmc : Nat
opaque Config.wPdms : Nat
opaque Config.wNcoGain : Nat
opaque Config.wCcGain : Nat
opaque Config.wAuxGain : Nat
opaque Config.wAntGain : Nat

/-- W_OVF, at most 30 because STATUS holds two mirrors above it (R46, D53). -/
opaque Config.wOvf : Fin 31

/-! ### The stored records whose fields have those widths -/

/-- An NCO frequency (R19). -/
structure Freq where
  fcw : BitVec Config.wFcw
  singleModCount : BitVec Config.wSmod
  dualModCount : BitVec Config.wDmod
  phaseOffset : BitVec 18
deriving DecidableEq, Repr, Inhabited

/-- An NCO phase-accumulator state (R20). -/
structure Phase where
  acc : BitVec 32
  dualModCount : BitVec Config.wPdmc
  dualModSel : BitVec Config.wPdms
  triggerUpdate : BitVec 1
deriving DecidableEq, Repr, Inhabited

/-- An NCO descriptor (R21). -/
structure NcoDesc where
  freq : Freq
  phase : Phase
  gain : BitVec Config.wNcoGain
deriving DecidableEq, Repr, Inhabited

/-- A carrier descriptor (R22). -/
structure CcDesc where
  nco : BitVec 4
  rate : RateCode
  gain : BitVec Config.wCcGain
deriving DecidableEq, Repr, Inhabited

/-- An auxiliary NCO configuration (R23). -/
structure AuxDesc where
  enable : BitVec 1
  gain : BitVec Config.wAuxGain
  freq : Freq
  phase : Phase
deriving DecidableEq, Repr, Inhabited

/-- One antenna's gain (R24). -/
abbrev AntGain := BitVec Config.wAntGain

/-- The overflow flag vector (R44). -/
abbrev OvfMask := BitVec Config.wOvf.val

/-! ### The build -/

/-- A hardware node's name, an opaque value (R30, R72); the model numbers the names (log 17). -/
structure DeviceName where
  id : Nat
deriving DecidableEq, Repr, Inhabited

/-- HWCFG, the capability constants CONFIGURE reads (R8). DATA_WIDTHS is stored and read by no rule (D50). -/
structure HwCfg where
  numAntenna : Nat
  usableCc : Nat
  lanes : Nat
  antInterleave : Nat
  mixerCps : Nat
  dataWidths : List Nat
deriving DecidableEq, Repr, Inhabited

/-- The parameters of one hardware build (R8, R9): SWITCHABLE, AUX_NUM, DEVICES, REGISTRY_SIZE and HWCFG. -/
structure Build where
  switchable : Bool
  auxNum : Nat
  devices : List DeviceName
  registrySize : Nat
  hwcfg : HwCfg
deriving DecidableEq, Repr, Inhabited

/-- The bus offsets of CMD, ARGS and RESP (R49). -/
structure CmdPortMap where
  cmd : Nat
  args : Nat
  resp : Nat
deriving DecidableEq, Repr, Inhabited

/-- The build the machine after reset is made for: a parameter of the model, not known to any proof (log 4). -/
opaque Config.build : Build

/-- CMD_PORT_MAP: no rule depends on it (R49, R57). -/
opaque Config.cmdPortMap : CmdPortMap

/-! ### Free values, indexed by the draw counter of State (log 9, 10, 11, 15) -/

/-- Whether the other instances fill the registry, drawn anew for each LOOKUP (R233, I14). -/
opaque Config.freeRegFull : Nat → Bool

/-- The phase a read-back returns; the second index numbers the descriptors of one read-back (R164, I7). -/
opaque Config.freePhase : Nat → Nat → Phase

/-- The placeholder cache of an instance that CLOSE has destroyed (R241, I12). -/
opaque Config.freeNotUsed : Nat → Option CcId

/-- An entry that an ARGS.antGains of the wrong length does not have (R72, R176, log 15); the second index is the antenna. -/
opaque Config.freeGainOperand : Nat → Nat → AntGain

/-! The units of a bank that RESET has left without a value (R236, D31, I12). The first index is the draw. -/

/-- One less than the sequence length. -/
opaque Config.freeSeqLen : Nat → Fin 16
opaque Config.freeSlot : Nat → Fin 16 → CcId
opaque Config.freeCc : Nat → Fin 16 → CcDesc
opaque Config.freeNco : Nat → Fin 16 → NcoDesc
opaque Config.freeAux : Nat → Nat → AuxDesc
opaque Config.freeAntGain : Nat → Nat → AntGain

end Sys2Proof
end

