-- ==== Sys2Proof/WellFormed.lean ====
section
/-! DEFINITION. Checks on terms that the types alone do not make. Every field of an Instr is legal at every
value of its type (R70, R71), so the checks are those that depend on the build: the bank a command names
(R68), the capability constants (D44) and the length of the antenna gain operand (R72). -/

namespace Sys2Proof

/-- The WORK bank a command's BANK field names, where it has that field (R68, R74). -/
def Instr.bankOperand : Instr → Option Bank
  | .getEmptyCfg b | .readWork b | .addCc b _ _ | .removeCc b _ | .updateCc b _ | .moveCc b _
  | .addAux b | .removeAux b | .findUnusedId b | .checkSlots b _ _ | .checkCapacity b _ _ _ => some b
  | .lookup | .reset | .configure | .initialise | .activate | .deactivate | .close | .getState
  | .getTriggersCfg | .setTriggersCfg | .getStatus | .getCurrentCfg | .getCurrentCfgSw
  | .setAntGain | .setAllAntGain | .commit | .commitSw | .countOnes _ | .deriveRate _
  | .derivePhaseOffset => none

/-- A command is well formed for a build when the bank it names is one of the build's banks (R39, R68). An
ill-formed command still runs: it raises BANK_MODE. -/
def Instr.wellFormed (bd : Build) (i : Instr) : Bool :=
  bd.switchable || i.bankOperand != some .ul

/-- The premises the model takes on the capability constants (D44): 1 ≤ USABLE_CC ≤ 16, LANES ≥ 1 and
NUM_ANTENNA ≥ 1. -/
def HwCfg.wellFormed (c : HwCfg) : Bool :=
  decide (1 ≤ c.usableCc) && decide (c.usableCc ≤ 16) && decide (1 ≤ c.lanes) && decide (1 ≤ c.numAntenna)

/-- The operand ARGS.antGains is array[NUM_ANTENNA] (R72). SET_ALL_ANT_GAIN runs on another length too (log 15). -/
def antGainsWellFormed (c : HwCfg) (gs : List AntGain) : Bool :=
  gs.length == c.numAntenna

end Sys2Proof
end

