-- ==== Sys2Proof/Machine/State.lean ====
section
/-! DEFINITION. The machine's state as plain data (10_state.md), the reasons a step can stop, and the state
after power-on. -/

namespace Sys2Proof.Machine

open Sys2Proof

/-! ### Modes, triggers and causes -/

/-- The lifecycle state, the block's only mode (R26, R29, R244). -/
inductive Lifecycle where
  | notReady
  | ready
  | reset
  | configured
  | initialised
  | operational
deriving DecidableEq, Repr, Inhabited

/-- The two triggers, in the order of their numbers (R26, R40). -/
inductive TrigId where
  | activate
  | ccUpdate
deriving DecidableEq, Repr, Inhabited

/-- A trigger's configuration and armed bit (R40). -/
structure Trigger where
  armed : Bool
  edgeLevel : BitVec 2
  tuserBit : BitVec 8
deriving DecidableEq, Repr, Inhabited

/-- The causes a command reports with RESP.ok = 0 (R251, codes 0x01 to 0x0B). -/
inductive FailCause where
  | bitmapOverflow
  | slotCollision
  | occNotPow2
  | rateInvalid
  | ncoRange
  | ncoInUse
  | subblockCapacity
  | ccAlreadyActive
  | triggerPending
  | deviceNotFound
  | registryFull
deriving DecidableEq, Repr

/-- The causes of a precondition violation, recorded in FAULT (R251, codes 0x10 to 0x15; R254). -/
inductive FaultCause where
  | nullHandle
  | wrongState
  | indexOob
  | illegalCommand
  | workUnloaded
  | bankMode
deriving DecidableEq, Repr

/-! ### Register files -/

/-- One value per bank. A build that is not switchable has the DL bank only; no rule reads or writes the UL
entry there (R39, log 18). -/
structure PerBank (α : Type) where
  dl : α
  ul : α
deriving DecidableEq, Repr

/-- A full configuration snapshot, the contents of WORK (R24). -/
structure Snapshot where
  seqLen : SeqLen
  seq : Vector (Option CcId) 16
  notUsed : Option CcId
  cc : Vector CcDesc 16
  nco : Vector NcoDesc 16
  aux : List AuxDesc
  antGain : List AntGain
deriving DecidableEq, Repr

/-- One hardware configuration bank, CURRENT or NEXT (R25). -/
structure HwBank where
  seqLen : SeqLen
  slot : Vector CcId 16
  cc : Vector CcDesc 16
  nco : Vector NcoDesc 16
  aux : List AuxDesc
  antGain : List AntGain
deriving DecidableEq, Repr

/-! ### The command port -/

/-- One trigger's part of ARGS.trigCfg (R72). -/
structure TriggerCfg where
  edgeLevel : BitVec 2
  tuserBit : BitVec 8
deriving DecidableEq, Repr, Inhabited

/-- ARGS.auxDesc: an auxiliary configuration without its enable flag (R72). -/
structure AuxArg where
  gain : BitVec Config.wAuxGain
  freq : Freq
  phase : Phase
deriving DecidableEq, Repr, Inhabited

/-- The operand record ARGS (R72). A command reads only the fields its rule names. -/
structure Args where
  name : DeviceName
  seqLen : BitVec 5
  tuserSel : BitVec 8
  trigActivate : TriggerCfg
  trigCcUpdate : TriggerCfg
  length : BitVec 5
  nco : BitVec 8
  ccGain : BitVec Config.wCcGain
  ncoDesc : NcoDesc
  phaseA : Phase
  phaseB : Phase
  auxIdx : BitVec 8
  auxDesc : AuxArg
  antIdx : BitVec 8
  antGain : AntGain
  antGains : List AntGain
deriving DecidableEq, Repr

/-- The payload of a response (R73, R74). -/
inductive Payload where
  | empty
  | lifecycle (code : BitVec 3)
  | triggers (activate ccUpdate : BitVec 32)
  | status (image : BitVec 32)
  | snapshot (work : Snapshot)
  | count (ones : BitVec 5)
  /-- A carrier ID, with NONE encoded as 16 (R123). -/
  | unusedId (code : BitVec 5)
  | rate (code : RateCode)
  | phaseOffset (offset : BitVec 18)
deriving DecidableEq, Repr

/-- The response record RESP (R73). -/
structure Resp where
  ok : Bool
  cause : BitVec 8
  payload : Payload
deriving DecidableEq, Repr

/-- One command of HOST's program: a CMD word with its ARGS record (R67). -/
structure Command where
  cmd : Word
  args : Args
  /-- How many of HOST's next commands are passed over if this one fails: for a command of a BRINGUP the rest of its
  expansion, since BRINGUP stops at the first command that fails (R78, log 31); 0 for every other command. -/
  skipOnFail : Nat
deriving DecidableEq, Repr

/-! ### The agents (R17) -/

/-- A step of TRIG or of DP (R214, R215, R216). -/
inductive AgentEvent where
  | fireCcUpdate
  | fireActivate
  | dpOverflow (mask : OvfMask)
deriving DecidableEq, Repr

/-- Who moves next (R17, R259): HOST, which starts its next command or makes its next unit access, or one of
the other agents, which steps if its event is enabled. -/
inductive Turn where
  | host
  | agent (e : AgentEvent)
deriving DecidableEq, Repr

/-! ### The state -/

@[ext]
structure State where
  /-- The parameters of the build (R8, R9). No step changes them. -/
  build : Build
  /-- HOST's finite list of commands (R28). -/
  program : List Command
  /-- The position k in that list (R28). -/
  pos : Nat
  /-- The turns the environment has chosen for the steps to come; when none is left only HOST moves (log 2). -/
  sched : List Turn
  /-- CMD (R27, R67). -/
  cmd : Word
  /-- ARGS (R27, R72). -/
  args : Args
  /-- RESP (R27, R73). -/
  resp : Resp
  /-- R29. -/
  lc : Lifecycle
  /-- R30. -/
  name : Option DeviceName
  /-- R31. -/
  cfg : Option HwCfg
  /-- The cached sequence length, the spec's L (R32). -/
  len : Option SeqLen
  /-- R33. -/
  tuserSel : BitVec 8
  /-- The placeholder cache (R34). -/
  notUsed : PerBank (Option CcId)
  /-- R35. -/
  bankSel : Bank
  /-- The WORK snapshots, the spec's W (R36). -/
  work : PerBank Snapshot
  /-- Their valid bits (R36). -/
  wv : PerBank Bool
  /-- The sticky precondition-violation record (R37). -/
  fault : Option FaultCause
  /-- The sticky ghost flag of a failed commit (R38). -/
  commitFatal : Bool
  /-- The CURRENT banks (R39). -/
  cur : PerBank HwBank
  /-- The NEXT banks (R39). -/
  nxt : PerBank HwBank
  /-- trig[ACTIVATE] (R40). -/
  trigActivate : Trigger
  /-- trig[CC_UPDATE] (R40). -/
  trigCcUpdate : Trigger
  /-- R41. -/
  hwInReset : Bool
  /-- R42. -/
  datapathEnabled : Bool
  /-- R43. -/
  datapathActive : Bool
  /-- R44. -/
  ovf : OvfMask
  /-- How many free values the machine has drawn (the model's own field, log 9). -/
  draws : Nat
  /-- The draw regFull that the next LOOKUP reads (the model's own field, R233, log 11). -/
  regDraw : Bool
deriving DecidableEq, Repr

/-- trig[t] (R40): each trigger has one home, the field of its name. -/
def State.trig (s : State) : TrigId → Trigger
  | .activate => s.trigActivate
  | .ccUpdate => s.trigCcUpdate

/-- Why the machine stops without a next state. Each is raised by a rule that reads a register holding NONE,
which no state that meets the invariant of Safety.lean does (R243 (e), R202); all are safe: the model stops where
the spec gives no effect (log 14). A precondition violation of the spec is no such fault: it is a next state in
which `State.fault` is set (R256). -/
inductive Fault where
  /-- A command reads a capability constant while cfg = NONE. Raised by DERIVE_RATE, ADD_CC, UPDATE_CC, MOVE_CC,
  CHECK_CAPACITY, SET_ANT_GAIN and SET_ALL_ANT_GAIN. Safe. -/
  | cfgNone
  /-- A command reads the cached sequence length while L = NONE. Raised by DERIVE_RATE and GET_EMPTY_CFG. Safe. -/
  | lengthNone
  /-- A commit must write an unused slot while the snapshot's placeholder is NONE. Raised by COMMIT and
  COMMIT_SW. Safe. -/
  | placeholderNone
deriving DecidableEq, Repr

/-- Why the model gives a command no meaning. -/
inductive Refusal where
  /-- The command has no meaning in this model yet. Raised by no arm of exec. Safe. -/
  | notModelled (mnemonic : String)
  /-- CONFIGURE on a build outside the premises of D44: R237 itself refuses it. Safe. -/
  | capabilityPremises
deriving DecidableEq, Repr

/-! ### Blank contents -/

def Freq.zero : Freq := ⟨0, 0, 0, 0⟩
def Phase.zero : Phase := ⟨0, 0, 0, 0⟩
def NcoDesc.zero : NcoDesc := ⟨Freq.zero, Phase.zero, 0⟩
def CcDesc.zero : CcDesc := ⟨0, 0, 0⟩
def AuxDesc.zero : AuxDesc := ⟨0, 0, Freq.zero, Phase.zero⟩
def Trigger.zero : Trigger := ⟨false, 0, 0⟩

/-- The least sequence length. -/
def SeqLen.one : SeqLen := ⟨1, by decide⟩

/-- The bank blankHw(L) of R25. -/
def HwBank.blank (bd : Build) (l : SeqLen) : HwBank where
  seqLen := l
  slot := Vector.replicate 16 0
  cc := Vector.replicate 16 CcDesc.zero
  nco := Vector.replicate 16 NcoDesc.zero
  aux := List.replicate bd.auxNum AuxDesc.zero
  antGain := List.replicate bd.hwcfg.numAntenna 0

/-- The snapshot blank(L) of R163. -/
def Snapshot.blank (bd : Build) (l : SeqLen) : Snapshot where
  seqLen := l
  seq := Vector.replicate 16 none
  notUsed := some 0
  cc := Vector.replicate 16 CcDesc.zero
  nco := Vector.replicate 16 NcoDesc.zero
  aux := List.replicate bd.auxNum AuxDesc.zero
  antGain := List.replicate bd.hwcfg.numAntenna 0

/-- An ARGS record with every field zero and no gains: the model's choice at power-on (log 8), and for the fields that a
command of BRINGUP does not name (log 32). -/
def Args.zero : Args where
  name := ⟨0⟩
  seqLen := 0
  tuserSel := 0
  trigActivate := ⟨0, 0⟩
  trigCcUpdate := ⟨0, 0⟩
  length := 0
  nco := 0
  ccGain := 0
  ncoDesc := NcoDesc.zero
  phaseA := Phase.zero
  phaseB := Phase.zero
  auxIdx := 0
  auxDesc := ⟨0, Freq.zero, Phase.zero⟩
  antIdx := 0
  antGain := 0
  antGains := []

/-! ### Power-on (R289, R290) -/

/-- The mixer state, which has an arbitrary launch value at power-on (R290, I11). -/
structure Launch where
  cur : PerBank HwBank
  nxt : PerBank HwBank
  trigActivate : Trigger
  trigCcUpdate : Trigger
  hwInReset : Bool
  datapathEnabled : Bool
  datapathActive : Bool
  ovf : OvfMask
deriving DecidableEq, Repr

/-- The launch value the model names for its reset state: every register zero (DESIGN CHOICE, log 6). -/
def Launch.zero (bd : Build) : Launch where
  cur := ⟨HwBank.blank bd SeqLen.one, HwBank.blank bd SeqLen.one⟩
  nxt := ⟨HwBank.blank bd SeqLen.one, HwBank.blank bd SeqLen.one⟩
  trigActivate := Trigger.zero
  trigCcUpdate := Trigger.zero
  hwInReset := false
  datapathEnabled := false
  datapathActive := false
  ovf := 0

/-- The state at power-on of a build whose mixer launches with the given values: the power-on column of R289.
The registers R290 calls unwritten hold the values log 7 names, the command port those of log 8. -/
def State.powerOn (bd : Build) (m : Launch) : State where
  build := bd
  program := []
  pos := 0
  sched := []
  cmd := 0
  args := Args.zero
  resp := ⟨false, 0, .empty⟩
  lc := .notReady
  name := none
  cfg := none
  len := none
  tuserSel := 0
  notUsed := ⟨some 0, some 0⟩
  bankSel := .dl
  work := ⟨Snapshot.blank bd SeqLen.one, Snapshot.blank bd SeqLen.one⟩
  wv := ⟨false, false⟩
  fault := none
  commitFatal := false
  cur := m.cur
  nxt := m.nxt
  trigActivate := m.trigActivate
  trigCcUpdate := m.trigCcUpdate
  hwInReset := m.hwInReset
  datapathEnabled := m.datapathEnabled
  datapathActive := m.datapathActive
  ovf := m.ovf
  draws := 1
  regDraw := Config.freeRegFull 0

/-- The machine right after reset, which for this block is power-on (R289: its initial mode is NotReady). -/
def State.reset : State := State.powerOn Config.build (Launch.zero Config.build)

end Sys2Proof.Machine
end

