-- ==== Sys2Proof/Machine/Flags.lean ====
section
/-! DEFINITION. The codes and flags of the block: the numbers of its enumerations (R26, R251), the flags of R45 and
the logical 32-bit images of its control and status registers (R46). -/

namespace Sys2Proof.Machine

open Sys2Proof

/-- The number of a lifecycle state (R26). -/
def Lifecycle.code : Lifecycle → BitVec 3
  | .notReady => 0
  | .ready => 1
  | .reset => 2
  | .configured => 3
  | .initialised => 4
  | .operational => 5

/-- The number of a trigger (R26). -/
def TrigId.code : TrigId → BitVec 1
  | .activate => 0
  | .ccUpdate => 1

/-- The cause codes of RESP.cause (R251). -/
def FailCause.code : FailCause → BitVec 8
  | .bitmapOverflow => 0x01
  | .slotCollision => 0x02
  | .occNotPow2 => 0x03
  | .rateInvalid => 0x04
  | .ncoRange => 0x05
  | .ncoInUse => 0x06
  | .subblockCapacity => 0x07
  | .ccAlreadyActive => 0x08
  | .triggerPending => 0x09
  | .deviceNotFound => 0x0A
  | .registryFull => 0x0B

/-- The cause codes of the FAULT register (R251). -/
def FaultCause.code : FaultCause → BitVec 8
  | .nullHandle => 0x10
  | .wrongState => 0x11
  | .indexOob => 0x12
  | .illegalCommand => 0x13
  | .workUnloaded => 0x14
  | .bankMode => 0x15

/-- The DISABLED rate code (R18). -/
def rateDisabled : RateCode := 0

/-- A carrier is active iff its rate code is not DISABLED (R16, R22). -/
def ccActive (d : CcDesc) : Bool := d.rate != rateDisabled

/-- A flag as a bit of a 32-bit image. -/
def flagBit (f : Bool) (at' : Nat) : BitVec 32 := if f then 1#32 <<< at' else 0

/-- A placeholder or carrier ID as a number, NONE as 16 (R46, R123). -/
def idCode : Option CcId → BitVec 5
  | none => 16
  | some c => c.setWidth 5

/-! ### Register images (R46). GET_TRIGGERS_CFG and GET_STATUS return the first two; no command reads the others. -/

/-- TRIG_ACTIVATE and TRIG_CC_UPDATE: armed in [0], edgeLevel in [2:1], tuserBit in [15:8], the rest 0 (R210). -/
def triggerImage (t : Trigger) : BitVec 32 :=
  flagBit t.armed 0 ||| t.edgeLevel.setWidth 32 <<< 1 ||| t.tuserBit.setWidth 32 <<< 8

/-- STATUS: ovf in the low bits, activatePending in [30], ccUpdatePending in [31] (R212). -/
def statusImage (s : State) : BitVec 32 :=
  s.ovf.setWidth 32 ||| flagBit s.trigActivate.armed 30 ||| flagBit s.trigCcUpdate.armed 31

def lcImage (s : State) : BitVec 32 := s.lc.code.setWidth 32

/-- SEQ_LEN, which has no image while L = NONE. -/
def seqLenImage (s : State) : Option (BitVec 32) := s.len.map fun l => BitVec.ofNat 32 l.val

def tuserSelImage (s : State) : BitVec 32 := s.tuserSel.setWidth 32

def bankSelImage (s : State) : BitVec 32 := flagBit (s.bankSel == .ul) 0

def hwCtrlImage (s : State) : BitVec 32 :=
  flagBit s.hwInReset 0 ||| flagBit s.datapathEnabled 1 ||| flagBit s.datapathActive 2

def notUsedImage (o : Option CcId) : BitVec 32 := (idCode o).setWidth 32

/-- FAULT: the cause in [7:0], 0 = none. -/
def faultImage (s : State) : BitVec 32 :=
  match s.fault with
  | none => 0
  | some c => c.code.setWidth 32

end Sys2Proof.Machine
end

