-- ==== Sys2Proof/Machine/Ops.lean ====
section
/-! DEFINITION. The named operations every meaning is built from: banks and register files, the response of a
command, the precondition checks and the raising of a fault (R256, R257), the steps of TRIG and DP (R214 to
R216), and the unit-by-unit accesses to the mixer's banks between which those steps may fall (R55). -/

namespace Sys2Proof.Machine

open Sys2Proof

/-! ### Register files -/

def PerBank.get {α : Type} (p : PerBank α) : Bank → α
  | .dl => p.dl
  | .ul => p.ul

def PerBank.set {α : Type} (p : PerBank α) (b : Bank) (v : α) : PerBank α :=
  match b with
  | .dl => { p with dl := v }
  | .ul => { p with ul := v }

/-- The update `for b in banks` (R39): DL always, UL in a switchable build. -/
def PerBank.onBanks {α : Type} (switchable : Bool) (f : Bank → α → α) (p : PerBank α) : PerBank α :=
  { dl := f .dl p.dl, ul := if switchable then f .ul p.ul else p.ul }

/-- Entry c of a 16-entry register file. -/
def entry {α : Type} (v : Vector α 16) (c : BitVec 4) : α := v[c.toNat]'c.isLt

/-- The file with entry c replaced. -/
def setEntry {α : Type} (v : Vector α 16) (c : BitVec 4) (x : α) : Vector α 16 := v.set c.toNat x c.isLt

/-! ### Responses (R73) and faults (R256) -/

/-- The response of a command that succeeds; HOST may then issue the next one (R60). -/
def respondOk (p : Payload) (s : State) : State :=
  { s with resp := ⟨true, 0, p⟩, pos := s.pos + 1 }

/-- The response of a command that fails with a cause (R252, R253). -/
def respondFail (k : FailCause) (s : State) : State :=
  { s with resp := ⟨false, k.code, .empty⟩, pos := s.pos + 1 }

/-- Raising a precondition violation (R256): the cause is recorded, if none is recorded yet, and nothing else
changes. There is no RESP and HOST's position stays at the faulting command. Nothing returns from it (R262). -/
def raise (c : FaultCause) (s : State) : State :=
  { s with fault := s.fault.or (some c) }

/-- The precondition checks common to the commands, in the order of R257: NULL_HANDLE, WRONG_STATE, BANK_MODE,
WORK_UNLOADED, INDEX_OOB. ILLEGAL_COMMAND, the first of the order, is the decoder's (R75). -/
def precondition (s : State) (permitted : Lifecycle → Bool) (bankMode loaded inRange : Bool) : Option FaultCause :=
  if s.lc = .notReady then some .nullHandle
  else if permitted s.lc = false then some .wrongState
  else if bankMode = false then some .bankMode
  else if loaded = false then some .workUnloaded
  else if inRange = false then some .indexOob
  else none

/-- Stage 1 of a command (R13): the fault of the first check that applies, or the command's body. -/
def guarded (s : State) (permitted : Lifecycle → Bool) (bankMode loaded inRange : Bool)
    (body : Host.Outcome State Fault Refusal) : Host.Outcome State Fault Refusal :=
  match precondition s permitted bankMode loaded inRange with
  | some c => .next (raise c s)
  | none => body

/-- A rule that reads the capability constants, which are there in every state the matrix lets it run in (R243 (e)). -/
def withCfg (s : State) (f : HwCfg → Host.Outcome State Fault Refusal) : Host.Outcome State Fault Refusal :=
  match s.cfg with
  | some c => f c
  | none => .fault .cfgNone

/-- A rule that reads the cached sequence length (R243 (e)). -/
def withLen (s : State) (f : SeqLen → Host.Outcome State Fault Refusal) : Host.Outcome State Fault Refusal :=
  match s.len with
  | some l => f l
  | none => .fault .lengthNone

/-! ### The permission matrix (R232): the columns a command's row marks as permitted. NotReady is precondition's. -/

def inAnyState : Lifecycle → Bool := fun _ => true
def inReady (l : Lifecycle) : Bool := l == .ready
def inReset (l : Lifecycle) : Bool := l == .reset
def inConfiguredOrInitialised (l : Lifecycle) : Bool := l == .configured || l == .initialised
def inInitialised (l : Lifecycle) : Bool := l == .initialised
def inOperational (l : Lifecycle) : Bool := l == .operational
def inInitialisedOrOperational (l : Lifecycle) : Bool := l == .initialised || l == .operational
def fromConfigured (l : Lifecycle) : Bool := l == .configured || l == .initialised || l == .operational

/-! ### The steps of TRIG and DP (R214 to R216) -/

/-- FIRE_CC_UPDATE: NXT is copied into CUR for every bank and the trigger disarmed, in one step (R214). -/
def fireCcUpdate (s : State) : State :=
  if s.trigCcUpdate.armed = true ∧ s.hwInReset = false then
    { s with
      cur := s.cur.onBanks s.build.switchable (fun b _ => s.nxt.get b)
      trigCcUpdate := { s.trigCcUpdate with armed := false } }
  else s

/-- FIRE_ACTIVATE (R215). -/
def fireActivate (s : State) : State :=
  if s.trigActivate.armed = true ∧ s.hwInReset = false then
    { s with datapathActive := true, trigActivate := { s.trigActivate with armed := false } }
  else s

/-- DP_OVERFLOW(m) (R216). The mask is a draw of the environment; a zero mask is no event, and or-ing it changes
nothing. -/
def dpOverflow (m : OvfMask) (s : State) : State :=
  if s.datapathActive = true ∧ s.datapathEnabled = true ∧ s.hwInReset = false then
    { s with ovf := s.ovf ||| m }
  else s

/-- An agent's turn: its event if it is enabled, and nothing otherwise. -/
def agentStep (e : AgentEvent) (s : State) : State :=
  match e with
  | .fireCcUpdate => fireCcUpdate s
  | .fireActivate => fireActivate s
  | .dpOverflow m => dpOverflow m s

/-- The agents' turns up to HOST's next turn, which is used up; the other turns stay in the schedule. -/
def runAgents : List Turn → State → State
  | [], s => { s with sched := [] }
  | .host :: rest, s => { s with sched := rest }
  | .agent e :: rest, s => runAgents rest (agentStep e s)

/-- The point between two unit accesses of one command, where TRIG and DP may step (R55). -/
def betweenAccesses (s : State) : State := runAgents s.sched s

/-! ### Register units (R50) -/

/-- A logical register unit of one hardware bank. -/
inductive RegUnit where
  | seqLen
  | slot (i : Fin 16)
  | cc (c : Fin 16)
  | nco (n : Fin 16)
  | aux (a : Nat)
  | ant (k : Nat)
deriving DecidableEq, Repr

/-- Every unit of a bank of this build, in the order in which R164 reads and R202 writes them. -/
def units (bd : Build) : List RegUnit :=
  .seqLen :: (List.finRange 16).map .slot ++ (List.finRange 16).map .cc ++ (List.finRange 16).map .nco
    ++ (List.range bd.auxNum).map .aux ++ (List.range bd.hwcfg.numAntenna).map .ant

/-- Entry a of one file written to entry a of another; an entry a file does not have is not accessed. -/
def copyEntry {α : Type} (a : Nat) (src dst : List α) : List α :=
  match src[a]? with
  | some v => dst.set a v
  | none => dst

/-- One unit access: the unit's value in one bank, written to the same unit of another (R12, R50). -/
def copyUnit (u : RegUnit) (src dst : HwBank) : HwBank :=
  match u with
  | .seqLen => { dst with seqLen := src.seqLen }
  | .slot i => { dst with slot := dst.slot.set i src.slot[i] }
  | .cc c => { dst with cc := dst.cc.set c src.cc[c] }
  | .nco n => { dst with nco := dst.nco.set n src.nco[n] }
  | .aux a => { dst with aux := copyEntry a src.aux dst.aux }
  | .ant k => { dst with antGain := copyEntry k src.antGain dst.antGain }

/-- RegWrite of each unit in turn into NXT[b], with a point for the other agents after each (R55, R202). -/
def writeUnits (b : Bank) (image : HwBank) : List RegUnit → State → State
  | [], s => s
  | u :: us, s =>
    writeUnits b image us (betweenAccesses { s with nxt := s.nxt.set b (copyUnit u image (s.nxt.get b)) })

/-- RegRead of each unit in turn from CUR[b], with a point for the other agents after each (R55, R164). Gives the
units read and the state after the reads. -/
def readUnits (b : Bank) : List RegUnit → HwBank → State → HwBank × State
  | [], acc, s => (acc, s)
  | u :: us, acc, s => readUnits b us (copyUnit u (s.cur.get b) acc) (betweenAccesses s)

/-- A bank whose units have no value (R236): every unit is a free value, all of draw t. -/
def freeBank (bd : Build) (t : Nat) : HwBank where
  seqLen := ⟨(Config.freeSeqLen t).val + 1, by omega, by omega⟩
  slot := Vector.ofFn (Config.freeSlot t)
  cc := Vector.ofFn (Config.freeCc t)
  nco := Vector.ofFn (Config.freeNco t)
  aux := (List.range bd.auxNum).map (Config.freeAux t)
  antGain := (List.range bd.hwcfg.numAntenna).map (Config.freeAntGain t)

/-- The number of a bank (R26), used to give the two banks different draws. -/
def bankIndex : Bank → Nat
  | .dl => 0
  | .ul => 1

end Sys2Proof.Machine
end

