-- ==== Sys2Proof/Machine/Operands.lean ====
section
/-! DEFINITION. Operands of commands: the BANK field and the WORK bank it names (R68, R257), the ARGS indices and
their bounds (R161, R257), and the narrowings the rules make. -/

namespace Sys2Proof.Machine

open Sys2Proof

/-- The bank is one of the build's banks (R39); BANK = 1 in a build that is not switchable is BANK_MODE (R257). -/
def bankExists (s : State) : Bank → Bool
  | .dl => true
  | .ul => s.build.switchable

/-- The bank's WORK is loaded (R36). -/
def loaded (s : State) (b : Bank) : Bool := s.wv.get b

/-- The WORK of every bank of the build is loaded (R257, step 5). -/
def allLoaded (s : State) : Bool := s.wv.dl && (!s.build.switchable || s.wv.ul)

/-- ARGS.auxIdx < AUX_NUM (R257, step 6). -/
def auxInRange (s : State) : Bool := decide (s.args.auxIdx.toNat < s.build.auxNum)

/-- ARGS.antIdx < NUM_ANTENNA, which is read from the capability constants (R31, R257, step 6). -/
def antInRange (s : State) : Bool :=
  match s.cfg with
  | some c => decide (s.args.antIdx.toNat < c.numAntenna)
  | none => true

/-- ARGS.seqLen ≤ 16 (R238). -/
def seqLenInRange (s : State) : Bool := decide (s.args.seqLen.toNat ≤ 16)

/-- The length INITIALISE programs: max(seqLen, 1), at most 16 (R238). -/
def seqLenOperand (n : BitVec 5) : SeqLen := ⟨min (max n.toNat 1) 16, by omega, by omega⟩

/-- n[3:0] of an NCO index (R169). -/
def ncoField (n : BitVec 8) : BitVec 4 := n.setWidth 4

/-- ARGS.auxDesc as an enabled auxiliary configuration (R173). -/
def auxEnabled (a : AuxArg) : AuxDesc := ⟨1, a.gain, a.freq, a.phase⟩

end Sys2Proof.Machine
end

