-- ==== Sys2Proof/Machine/Sequence.lean ====
section
/-! DEFINITION. The carrier-to-slot bitmap validator: the pure functions of 41_bitmap_algebra.md (R116 to R121). -/

namespace Sys2Proof.Machine

open Sys2Proof

/-- The number of set bits among bits 0..n−1. -/
def onesBelow (map : SlotMap) : Nat → Nat
  | 0 => 0
  | n + 1 => onesBelow map n + (map.getLsbD n).toNat

/-- countOnes: set bits within the first `length` bits, a length above 16 counting all 16 (R116, D8). -/
def countOnes (map : SlotMap) (length : Nat) : Nat := onesBelow map (min length 16)

/-- The 16 carrier IDs in order. -/
def allIds : List CcId := (List.range 16).map (BitVec.ofNat 4)

/-- findUnusedId: the smallest carrier ID in no slot of the sequence, NONE if each is in one (R117, D6). -/
def findUnusedId (seq : Vector (Option CcId) 16) : Option CcId :=
  allIds.find? fun c => !seq.toList.contains (some c)

/-- A snapshot whose sequence is replaced, with its placeholder recomputed (R118). -/
def Snapshot.withSeq (w : Snapshot) (seq : Vector (Option CcId) 16) : Snapshot :=
  { w with seq := seq, notUsed := findUnusedId seq }

/-- The slots below the sequence length that the bitmap selects (R119). -/
def selects (w : Snapshot) (map : SlotMap) (i : Fin 16) : Bool :=
  decide (i.val < w.seqLen.val) && map.getLsbD i.val

/-- The legal occupancies (R119). -/
def legalOccupancy (n : Nat) : Bool := [0, 1, 2, 4, 8, 16].contains n

/-- assignSlots, its three checks in order (R119). -/
def assignSlots (w : Snapshot) (c : CcId) (map : SlotMap) : Except FailCause Snapshot :=
  if map >>> w.seqLen.val ≠ 0 then .error .bitmapOverflow
  else if (List.finRange 16).any (fun i => selects w map i && w.seq[i].isSome) then .error .slotCollision
  else if legalOccupancy (countOnes map w.seqLen.val) then
    .ok (w.withSeq (Vector.ofFn fun i : Fin 16 => if selects w map i then some c else w.seq[i]))
  else .error .occNotPow2

/-- releaseSlots (R120). -/
def releaseSlots (w : Snapshot) (c : CcId) : Snapshot :=
  w.withSeq (Vector.ofFn fun i : Fin 16 => if w.seq[i] = some c then none else w.seq[i])

/-- Slot i holds carrier c, for i below the sequence length (R121). -/
def holds (w : Snapshot) (c : CcId) (i : Fin 16) : Bool :=
  decide (i.val < w.seqLen.val) && w.seq[i] == some c

/-- |occ(S, c)|, the slot count of carrier c (R121). -/
def occCount (w : Snapshot) (c : CcId) : Nat := (List.finRange 16).countP (holds w c)

/-- occMap(S, c), the bitmap of the slots carrier c holds (R121). -/
def occMap (w : Snapshot) (c : CcId) : SlotMap := BitVec.ofFnLE (holds w c)

end Sys2Proof.Machine
end

