-- ==== Sys2Proof/Machine/Capacity.lean ====
section
/-! DEFINITION. The NCO capacity checker: the pure functions of 43_capacity_checker.md (R146 to R150). -/

namespace Sys2Proof.Machine

open Sys2Proof

/-- SB_W, the NCOs of one sub-block (R7). -/
def subBlockWidth : Nat := 4

/-- The limit multiplier of the architecture variant: 2 for A (50 %), 4 for B (25 %), none for the unconstrained
variant (R146, R147). -/
def limitMultiplier (c : HwCfg) : Option Nat :=
  if c.usableCc = 8 ∧ c.lanes > 1 then some 2
  else if c.usableCc = 16 then some 4
  else none

/-- sb(n), the sub-block of an NCO index (R147). -/
def subBlock (n : Nat) : Nat := n / subBlockWidth

/-- Slot i, below the sequence length, holds a carrier whose NCO is in sub-block k (R148). -/
def consumes (w : Snapshot) (k : Nat) (i : Fin 16) : Bool :=
  decide (i.val < w.seqLen.val) &&
    match w.seq[i] with
    | some c => subBlock (entry w.cc c).nco.toNat == k
    | none => false

/-- usage(S, k): the slots consumed in sub-block k (R148, D13). -/
def usage (w : Snapshot) (k : Nat) : Nat := (List.finRange 16).countP (consumes w k)

/-- Another active carrier uses NCO index n (R150). -/
def ncoInUse (w : Snapshot) (c : CcId) (n : BitVec 8) : Bool :=
  allIds.any fun c' => c' != c && ccActive (entry w.cc c') && (entry w.cc c').nco.toNat == n.toNat

/-- checkCapacity: range, in-use, then the sub-block check of the variant (R150). -/
def checkCapacity (w : Snapshot) (cfg : HwCfg) (mode : CapMode) (c : CcId) (n : BitVec 8) (map : SlotMap) :
    Except FailCause Unit :=
  if n.toNat ≥ cfg.usableCc then .error .ncoRange
  else if ncoInUse w c n then .error .ncoInUse
  else
    match limitMultiplier cfg with
    | none => .ok ()
    | some mul =>
      match mode with
      | .add =>
        if (usage w (subBlock n.toNat) + countOnes map w.seqLen.val) * mul > w.seqLen.val then
          .error .subblockCapacity
        else .ok ()
      | .update =>
        if subBlock (entry w.cc c).nco.toNat = subBlock n.toNat then .ok ()
        else if (usage w (subBlock n.toNat) + occCount w c) * mul > w.seqLen.val then .error .subblockCapacity
        else .ok ()

end Sys2Proof.Machine
end

