-- ==== Sys2Proof/Machine/PhaseAlign.lean ====
section
/-! DEFINITION. Phase alignment: the pure function of 45_phase_alignment.md (R196). -/

namespace Sys2Proof.Machine

open Sys2Proof

/-- PH_ROUND, the rounding bits (R7). -/
def phaseRoundBits : Nat := 14

/-- derivePhaseOffset: (B − A) mod 2^32, shifted right by 14 and rounded half up, mod 2^18 (R196, D17). -/
def derivePhaseOffset (a b : Phase) : BitVec 18 :=
  let d := b.acc - a.acc
  (d >>> phaseRoundBits).setWidth 18 + (BitVec.ofBool (d.getLsbD (phaseRoundBits - 1))).setWidth 18

end Sys2Proof.Machine
end

