-- ==== Sys2Proof/Machine/Rate.lean ====
section
/-! DEFINITION. The rate-derivation sequencer: the pure function of 42_rate_detector.md (R136). -/

namespace Sys2Proof.Machine

open Sys2Proof

/-- code(r) = log2(r) + 1 for the five legal ratios, and no code for another (R18, D11). -/
def rateOfRatio : Nat → Option RateCode
  | 1 => some 1
  | 2 => some 2
  | 4 => some 3
  | 8 => some 4
  | 16 => some 5
  | _ => none

/-- deriveRate: both divisions must be exact, in the written order (R136, D10; RATE_DIV = EXACT, I4). -/
def deriveRate (map : SlotMap) (len ai cps : Nat) : Except FailCause RateCode :=
  let n := countOnes map len
  if n = 0 then .ok rateDisabled
  else if legalOccupancy n = false then .error .occNotPow2
  else if cps = 0 then .error .rateInvalid
  else if len % n ≠ 0 then .error .rateInvalid
  else if ai * (len / n) % cps ≠ 0 then .error .rateInvalid
  else
    match rateOfRatio (ai * (len / n) / cps) with
    | some r => .ok r
    | none => .error .rateInvalid

end Sys2Proof.Machine
end

