-- ==== Sys2Proof/Machine/Builder.lean ====
section
/-! DEFINITION. The builder commands (44_builder.md, R169 to R176). Every check is made on the unmodified WORK, which is
written only if all pass (R13, R161). -/

namespace Sys2Proof.Machine

open Sys2Proof

/-- W[b] <- w. -/
def writeWork (b : Bank) (w : Snapshot) (s : State) : State := { s with work := s.work.set b w }

/-- Stage 3 of a builder command: the new WORK is written and the command succeeds, or the failing check's cause is
reported and nothing written (R13, R252). -/
def buildWork (b : Bank) (r : Except FailCause Snapshot) (s : State) : State :=
  match r with
  | .ok w => respondOk .empty (writeWork b w s)
  | .error k => respondFail k s

/-- The snapshot with carrier c added (R169). -/
def addCarrier (w : Snapshot) (cfg : HwCfg) (c : CcId) (map : SlotMap) (a : Args) : Except FailCause Snapshot :=
  if ccActive (entry w.cc c) then .error .ccAlreadyActive
  else
    match checkCapacity w cfg .add c a.nco map with
    | .error k => .error k
    | .ok () =>
      match assignSlots w c map with
      | .error k => .error k
      | .ok w' =>
        match deriveRate map w.seqLen.val cfg.antInterleave cfg.mixerCps with
        | .error k => .error k
        | .ok r =>
          .ok { w' with
            cc := setEntry w'.cc c ⟨ncoField a.nco, r, a.ccGain⟩
            nco := setEntry w'.nco (ncoField a.nco) a.ncoDesc }

/-- ADD_CC: add a carrier (R169). -/
def execAddCc (b : Bank) (c : CcId) (map : SlotMap) (s : State) : Host.Outcome State Fault Refusal :=
  guarded s inOperational (bankExists s b) (loaded s b) true
    (withCfg s fun cfg => .next (buildWork b (addCarrier (s.work.get b) cfg c map s.args) s))

/-- The snapshot with carrier c removed: its slots released and its rate DISABLED (R170). -/
def removeCarrier (w : Snapshot) (c : CcId) : Snapshot :=
  let w' := releaseSlots w c
  { w' with cc := setEntry w'.cc c { entry w'.cc c with rate := rateDisabled } }

/-- REMOVE_CC: remove a carrier; it always succeeds (R170). -/
def execRemoveCc (b : Bank) (c : CcId) (s : State) : Host.Outcome State Fault Refusal :=
  guarded s inOperational (bankExists s b) (loaded s b) true
    (.next (buildWork b (.ok (removeCarrier (s.work.get b) c)) s))

/-- A carrier's NCO index and gain rewritten; its rate is kept (R171). -/
def placeCarrier (w : Snapshot) (c : CcId) (a : Args) : Snapshot :=
  { w with cc := setEntry w.cc c { entry w.cc c with nco := ncoField a.nco, gain := a.ccGain } }

/-- The snapshot with carrier c updated (R171). -/
def updateCarrier (w : Snapshot) (cfg : HwCfg) (c : CcId) (a : Args) : Except FailCause Snapshot :=
  match checkCapacity w cfg .update c a.nco 0 with
  | .error k => .error k
  | .ok () => .ok (placeCarrier w c a)

/-- UPDATE_CC: change a carrier's NCO index and gain, active or not (R171, D15). -/
def execUpdateCc (b : Bank) (c : CcId) (s : State) : Host.Outcome State Fault Refusal :=
  guarded s inOperational (bankExists s b) (loaded s b) true
    (withCfg s fun cfg => .next (buildWork b (updateCarrier (s.work.get b) cfg c s.args) s))

/-- ARGS.ncoDesc with its phase offset replaced by the one that makes the move continuous (R172). -/
def movedDesc (a : Args) : NcoDesc :=
  { a.ncoDesc with freq := { a.ncoDesc.freq with phaseOffset := derivePhaseOffset a.phaseA a.phaseB } }

/-- The snapshot with carrier c moved (R172). -/
def moveCarrier (w : Snapshot) (cfg : HwCfg) (c : CcId) (a : Args) : Except FailCause Snapshot :=
  match checkCapacity w cfg .update c a.nco 0 with
  | .error k => .error k
  | .ok () =>
    let w' := placeCarrier w c a
    .ok { w' with nco := setEntry w'.nco (ncoField a.nco) (movedDesc a) }

/-- MOVE_CC: move a carrier to a new NCO with phase continuity (R172, D16). -/
def execMoveCc (b : Bank) (c : CcId) (s : State) : Host.Outcome State Fault Refusal :=
  guarded s inOperational (bankExists s b) (loaded s b) true
    (withCfg s fun cfg => .next (buildWork b (moveCarrier (s.work.get b) cfg c s.args) s))

/-- aux[a] <- d in a snapshot. -/
def setAux (w : Snapshot) (a : Nat) (d : AuxDesc) : Snapshot := { w with aux := w.aux.set a d }

/-- ADD_AUX: enable an auxiliary NCO (R173). -/
def execAddAux (b : Bank) (s : State) : Host.Outcome State Fault Refusal :=
  guarded s inOperational (bankExists s b) (loaded s b) (auxInRange s)
    (.next (buildWork b (.ok (setAux (s.work.get b) s.args.auxIdx.toNat (auxEnabled s.args.auxDesc))) s))

/-- REMOVE_AUX: disable an auxiliary NCO and clear it (R174). -/
def execRemoveAux (b : Bank) (s : State) : Host.Outcome State Fault Refusal :=
  guarded s inOperational (bankExists s b) (loaded s b) (auxInRange s)
    (.next (buildWork b (.ok (setAux (s.work.get b) s.args.auxIdx.toNat AuxDesc.zero)) s))

/-- SET_ANT_GAIN: set one antenna's gain in the WORK of every bank (R175, D21). -/
def execSetAntGain (s : State) : Host.Outcome State Fault Refusal :=
  guarded s inOperational true (allLoaded s) (antInRange s)
    (withCfg s fun _ => .next (respondOk .empty { s with
      work := s.work.onBanks s.build.switchable
        (fun _ w => { w with antGain := w.antGain.set s.args.antIdx.toNat s.args.antGain }) }))

/-- ARGS.antGains as the array[NUM_ANTENNA] of R72. Of an operand of another length, entries past NUM_ANTENNA are not
read, and an entry it does not have is a free value of draw t (DESIGN CHOICE, log 15). -/
def gainVector (c : HwCfg) (t : Nat) (gs : List AntGain) : List AntGain :=
  (List.range c.numAntenna).map fun k => gs[k]?.getD (Config.freeGainOperand t k)

/-- SET_ALL_ANT_GAIN: set every antenna's gain in the WORK of every bank (R176, D21). -/
def execSetAllAntGain (s : State) : Host.Outcome State Fault Refusal :=
  guarded s inOperational true (allLoaded s) true
    (withCfg s fun cfg =>
      .next (respondOk .empty { s with
        work := s.work.onBanks s.build.switchable
          (fun b w => { w with antGain := gainVector cfg (s.draws + bankIndex b) s.args.antGains })
        draws := if antGainsWellFormed cfg s.args.antGains then s.draws else s.draws + 2 }))

end Sys2Proof.Machine
end

