-- ==== Sys2Proof/Machine/Commit.lean ====
section
/-! DEFINITION. The commit commands (46_commit_trigger.md, R202 to R205). -/

namespace Sys2Proof.Machine

open Sys2Proof

/-- The value writeBank gives slot i: the carrier that holds it, or the snapshot's placeholder for an unused slot and
for one at or above the sequence length (R202). -/
def slotValue (w : Snapshot) (i : Fin 16) : Option CcId :=
  if i.val < w.seqLen.val then w.seq[i].or w.notUsed else w.notUsed

/-- The units writeBank writes, if every slot that needs the placeholder has one, which always holds (R202). -/
def bankImage (w : Snapshot) : Option HwBank :=
  if (List.finRange 16).all fun i => (slotValue w i).isSome then
    some {
      seqLen := w.seqLen
      slot := Vector.ofFn fun i => (slotValue w i).getD 0
      cc := w.cc
      nco := w.nco
      aux := w.aux
      antGain := w.antGain }
  else none

/-- writeBank(b): W[b] written into NXT[b], unit by unit (R202). -/
def writeBank (b : Bank) (s : State) : Option State :=
  (bankImage (s.work.get b)).map fun image => writeUnits b image (units s.build) s

/-- testAndArm, one atomic step: PENDING (false), or ARMED (true) with the update trigger armed (R203). -/
def testAndArm (s : State) : Bool × State :=
  if s.trigCcUpdate.armed then (false, s)
  else (true, { s with trigCcUpdate := { s.trigCcUpdate with armed := true } })

/-- notUsed[b] <- W[b].notUsed (R204). -/
def cachePlaceholder (b : Bank) (s : State) : State :=
  { s with notUsed := s.notUsed.set b (s.work.get b).notUsed }

/-- The end of a commit: the trigger armed and the caches updated, or the hardware commit failure (R204, R253). -/
def finishCommit (cache : State → State) (s : State) : State :=
  match testAndArm s with
  | (true, s') => respondOk .empty (cache s')
  | (false, s') => respondFail .triggerPending { s' with commitFatal := true }

/-- COMMIT: commit the WORK bank to the shadow registers, in a build that is not switchable (R204). -/
def execCommit (s : State) : Host.Outcome State Fault Refusal :=
  guarded s inOperational (!s.build.switchable) (loaded s .dl) true
    (match writeBank .dl s with
    | none => .fault .placeholderNone
    | some s1 => .next (finishCommit (cachePlaceholder .dl) s1))

/-- Both banks written in turn under their bank selection, which is restored (R205, D39). -/
def writeBothBanks (s : State) : Option State :=
  (writeBank .dl { s with bankSel := .dl }).bind fun s1 =>
    (writeBank .ul { s1 with bankSel := .ul }).map fun s2 => { s2 with bankSel := s.bankSel }

/-- COMMIT_SW: commit both WORK banks under one trigger, in a switchable build (R205). -/
def execCommitSw (s : State) : Host.Outcome State Fault Refusal :=
  guarded s inOperational s.build.switchable (loaded s .dl && loaded s .ul) true
    (match writeBothBanks s with
    | none => .fault .placeholderNone
    | some s1 => .next (finishCommit (fun t => cachePlaceholder .ul (cachePlaceholder .dl t)) s1))

end Sys2Proof.Machine
end

