-- ==== Sys2Proof/Machine/Lifecycle.lean ====
section
/-! DEFINITION. The lifecycle commands (47_lifecycle.md, R233 to R242) and the pseudo-instruction BRINGUP (R78). -/

namespace Sys2Proof.Machine

open Sys2Proof

/-- regFull: the draw when the registry has entries, always true when it has none (R233, D55). -/
def registryFull (s : State) : Bool := s.build.registrySize == 0 || s.regDraw

/-- The draw regFull has been read; the next LOOKUP reads a fresh one (R233). -/
def drawRegistry (s : State) : State :=
  { s with regDraw := Config.freeRegFull s.draws, draws := s.draws + 1 }

/-- The state after LOOKUP (R233). -/
def lookupState (s : State) : State :=
  if s.lc = .notReady then
    if s.build.devices.contains s.args.name = false then respondFail .deviceNotFound s
    else if registryFull s then respondFail .registryFull (drawRegistry s)
    else respondOk .empty { drawRegistry s with name := some s.args.name, lc := .ready }
  else if s.name = some s.args.name then respondOk .empty s
  else raise .wrongState s

/-- LOOKUP: bind the instance to a hardware node (R233). -/
def execLookup (s : State) : Host.Outcome State Fault Refusal := .next (lookupState s)

/-- What RESET puts the hardware and the instance in (R236): the units of CUR and NXT have no value afterwards, so
each is a free value (log 9). -/
def resetState (s : State) : State :=
  { s with
    hwInReset := true
    trigActivate := Trigger.zero
    trigCcUpdate := Trigger.zero
    datapathEnabled := false
    datapathActive := false
    ovf := 0
    cur := s.cur.onBanks s.build.switchable (fun b _ => freeBank s.build (s.draws + bankIndex b))
    nxt := s.nxt.onBanks s.build.switchable (fun b _ => freeBank s.build (s.draws + 2 + bankIndex b))
    cfg := none
    len := none
    tuserSel := 0
    notUsed := s.notUsed.onBanks s.build.switchable (fun _ _ => some 0)
    wv := s.wv.onBanks s.build.switchable (fun _ _ => false)
    bankSel := .dl
    lc := .reset
    draws := s.draws + 4 }

/-- RESET: put the hardware in reset and discard volatile state (R236). -/
def execReset (s : State) : Host.Outcome State Fault Refusal :=
  guarded s inReady true true true (.next (respondOk .empty (resetState s)))

/-- CONFIGURE: load the capability constants and release hardware reset; a build outside D44 is refused (R237). -/
def execConfigure (s : State) : Host.Outcome State Fault Refusal :=
  guarded s inReset true true true
    (if s.build.hwcfg.wellFormed then
      .next (respondOk .empty { s with
        cfg := some s.build.hwcfg
        hwInReset := false
        wv := s.wv.onBanks s.build.switchable (fun _ _ => false)
        lc := .configured })
    else .refused .capabilityPremises)

/-- The one-time parameters and the blank banks INITIALISE programs (R238). -/
def initialiseState (l : SeqLen) (s : State) : State :=
  { s with
    len := some l
    tuserSel := s.args.tuserSel
    datapathEnabled := true
    cur := s.cur.onBanks s.build.switchable (fun _ _ => HwBank.blank s.build l)
    nxt := s.nxt.onBanks s.build.switchable (fun _ _ => HwBank.blank s.build l)
    notUsed := s.notUsed.onBanks s.build.switchable (fun _ _ => some 0)
    wv := s.wv.onBanks s.build.switchable (fun _ _ => false)
    lc := .initialised }

/-- INITIALISE: program the one-time parameters and zero the carrier tracking state (R238). -/
def execInitialise (s : State) : Host.Outcome State Fault Refusal :=
  guarded s inConfiguredOrInitialised true true (seqLenInRange s)
    (.next
      (if s.trigCcUpdate.armed then respondFail .triggerPending s
      else respondOk .empty (initialiseState (seqLenOperand s.args.seqLen) s)))

/-- ACTIVATE: arm the activation trigger and enter Operational; a no-op there (R239). -/
def execActivate (s : State) : Host.Outcome State Fault Refusal :=
  guarded s inInitialisedOrOperational true true true
    (.next (respondOk .empty
      (if s.lc = .operational then s
      else { s with trigActivate := { s.trigActivate with armed := true }, lc := .operational })))

/-- DEACTIVATE: disarm activation and return to Initialised; a no-op there (R240). -/
def execDeactivate (s : State) : Host.Outcome State Fault Refusal :=
  guarded s inInitialisedOrOperational true true true
    (.next (respondOk .empty
      (if s.lc = .initialised then s
      else { s with
        trigActivate := { s.trigActivate with armed := false }
        datapathActive := false
        lc := .initialised })))

/-- What CLOSE discards (R241): the placeholder caches have no value afterwards, so each is a free value (log 9). -/
def closeState (s : State) : State :=
  { s with
    name := none
    cfg := none
    len := none
    notUsed := s.notUsed.onBanks s.build.switchable (fun b _ => Config.freeNotUsed (s.draws + bankIndex b))
    wv := s.wv.onBanks s.build.switchable (fun _ _ => false)
    bankSel := .dl
    commitFatal := false
    lc := .notReady
    draws := s.draws + 2 }

/-- CLOSE: destroy the instance; the mixer's registers are unchanged (R241). -/
def execClose (s : State) : Host.Outcome State Fault Refusal :=
  guarded s inAnyState true true true (.next (respondOk .empty (closeState s)))

/-- GET_STATE: read the lifecycle state (R242). -/
def execGetState (s : State) : Host.Outcome State Fault Refusal :=
  guarded s inAnyState true true true (.next (respondOk (.lifecycle s.lc.code) s))

/-- The words and operands of a macro as commands, each of which passes over the rest if it fails (R78). -/
def stopAtFailure : List (Word × Args) → List Command
  | [] => []
  | (w, a) :: rest => ⟨w, a, rest.length⟩ :: stopAtFailure rest

/-- BRINGUP name, seqLen, tuserSel: the commands it expands to; it stops at the first of them that fails (R78). What the
ARGS fields hold that a command of it does not name is the model's choice, those of Args.zero: R72 says only that they are
ignored (DESIGN CHOICE, log 32). -/
def bringup (switchable : Bool) (name : DeviceName) (seqLen : BitVec 5) (tuserSel : BitVec 8) : List Command :=
  stopAtFailure ([
    (0x01000000, { Args.zero with name := name }),
    (0x02000000, Args.zero),
    (0x03000000, Args.zero),
    (0x04000000, { Args.zero with seqLen := seqLen, tuserSel := tuserSel }),
    (0x05000000, Args.zero),
    (0x22000000, Args.zero)] ++ if switchable then [(0x22800000, Args.zero)] else [])

end Sys2Proof.Machine
end

