-- ==== Sys2Proof/Machine/Query.lean ====
section
/-! DEFINITION. The query commands, none of which writes a register but RESP (R122, R123, R124, R137, R151, R197). -/

namespace Sys2Proof.Machine

open Sys2Proof

/-- The response of a dry run: OK with no payload, or the cause of the check that failed. -/
def respondCheck {α : Type} (r : Except FailCause α) (p : α → Payload) (s : State) : State :=
  match r with
  | .ok v => respondOk (p v) s
  | .error k => respondFail k s

/-- COUNT_ONES: count set bits (R122). -/
def execCountOnes (map : SlotMap) (s : State) : Host.Outcome State Fault Refusal :=
  guarded s inAnyState true true true
    (.next (respondOk (.count (BitVec.ofNat 5 (countOnes map s.args.length.toNat))) s))

/-- FIND_UNUSED_ID: the placeholder of a WORK bank, NONE as 16 (R123). -/
def execFindUnusedId (b : Bank) (s : State) : Host.Outcome State Fault Refusal :=
  guarded s inOperational (bankExists s b) (loaded s b) true
    (.next (respondOk (.unusedId (idCode (findUnusedId (s.work.get b).seq))) s))

/-- CHECK_SLOTS: the bitmap validator run as a dry run (R124). -/
def execCheckSlots (b : Bank) (c : CcId) (map : SlotMap) (s : State) : Host.Outcome State Fault Refusal :=
  guarded s inOperational (bankExists s b) (loaded s b) true
    (.next (respondCheck (assignSlots (s.work.get b) c map) (fun _ => .empty) s))

/-- DERIVE_RATE: the rate code of a bitmap, with the instance's sequence length (R137). -/
def execDeriveRate (map : SlotMap) (s : State) : Host.Outcome State Fault Refusal :=
  guarded s inInitialisedOrOperational true true true
    (withLen s fun l => withCfg s fun cfg =>
      .next (respondCheck (deriveRate map l.val cfg.antInterleave cfg.mixerCps) .rate s))

/-- CHECK_CAPACITY: the capacity checker run as a dry run (R151). -/
def execCheckCapacity (b : Bank) (mode : CapMode) (c : CcId) (map : SlotMap) (s : State) :
    Host.Outcome State Fault Refusal :=
  guarded s inOperational (bankExists s b) (loaded s b) true
    (withCfg s fun cfg =>
      .next (respondCheck (checkCapacity (s.work.get b) cfg mode c s.args.nco map) (fun _ => .empty) s))

/-- DERIVE_PHASE_OFFSET: the phase offset of two phases (R197). -/
def execDerivePhaseOffset (s : State) : Host.Outcome State Fault Refusal :=
  guarded s inAnyState true true true
    (.next (respondOk (.phaseOffset (derivePhaseOffset s.args.phaseA s.args.phaseB)) s))

end Sys2Proof.Machine
end

