-- ==== Sys2Proof/Machine/Snapshots.lean ====
section
/-! DEFINITION. The snapshot sources (44_builder.md, R164 to R168). -/

namespace Sys2Proof.Machine

open Sys2Proof

/-- A hardware slot as a snapshot slot: NONE at or above the sequence length and where it holds the cached
placeholder (R164). -/
def slotRead (nu : Option CcId) (h : HwBank) (i : Fin 16) : Option CcId :=
  if i.val < h.seqLen.val then (if nu = some h.slot[i] then none else some h.slot[i]) else none

/-- An NCO descriptor read back: its phase is a free value (R164, D54). -/
def ncoRead (t : Nat) (h : HwBank) (n : Fin 16) : NcoDesc :=
  { h.nco[n] with phase := Config.freePhase t n.val }

/-- An auxiliary descriptor read back: its phase is a free value (R164, D54). -/
def auxRead (t : Nat) (a : Nat) (d : AuxDesc) : AuxDesc :=
  { d with phase := Config.freePhase t (16 + a) }

/-- The snapshot a bank's units read back as (R164); nu is the cached placeholder and t the draw. -/
def translateBank (nu : Option CcId) (t : Nat) (h : HwBank) : Snapshot where
  seqLen := h.seqLen
  seq := Vector.ofFn (slotRead nu h)
  notUsed := findUnusedId (Vector.ofFn (slotRead nu h))
  cc := h.cc
  nco := Vector.ofFn (ncoRead t h)
  aux := h.aux.mapIdx (auxRead t)
  antGain := h.antGain

/-- W[b] <- readBack(b); wv[b] <- true (R164, R165). Every unit of CUR[b] is read in turn into a bank that starts
blank, and TRIG and DP may step between two reads. -/
def loadCurrent (b : Bank) (s : State) : State :=
  let r := readUnits b (units s.build) (HwBank.blank s.build SeqLen.one) s
  { r.2 with
    work := r.2.work.set b (translateBank (s.notUsed.get b) s.draws r.1)
    wv := r.2.wv.set b true
    draws := r.2.draws + 1 }

/-- GET_CURRENT_CFG: load W[DL] from the CURRENT bank, in a build that is not switchable (R165). -/
def execGetCurrentCfg (s : State) : Host.Outcome State Fault Refusal :=
  guarded s inInitialisedOrOperational (!s.build.switchable) true true
    (.next (respondOk .empty (loadCurrent .dl s)))

/-- Both banks loaded in turn under their bank selection, which is restored (R166, D39). -/
def loadBothBanks (s : State) : State :=
  let s1 := loadCurrent .dl { s with bankSel := .dl }
  let s2 := loadCurrent .ul { s1 with bankSel := .ul }
  { s2 with bankSel := s.bankSel }

/-- GET_CURRENT_CFG_SW: load both WORK banks from CURRENT, in a switchable build (R166). -/
def execGetCurrentCfgSw (s : State) : Host.Outcome State Fault Refusal :=
  guarded s inInitialisedOrOperational s.build.switchable true true
    (.next (respondOk .empty (loadBothBanks s)))

/-- GET_EMPTY_CFG: load a blank snapshot (R167). -/
def execGetEmptyCfg (b : Bank) (s : State) : Host.Outcome State Fault Refusal :=
  guarded s inInitialisedOrOperational (bankExists s b) true true
    (withLen s fun l => .next (respondOk .empty { s with
      work := s.work.set b (Snapshot.blank s.build l)
      wv := s.wv.set b true }))

/-- READ_WORK: return a WORK bank to HOST (R168). -/
def execReadWork (b : Bank) (s : State) : Host.Outcome State Fault Refusal :=
  guarded s inInitialisedOrOperational (bankExists s b) (loaded s b) true
    (.next (respondOk (.snapshot (s.work.get b)) s))

end Sys2Proof.Machine
end

