-- ==== Sys2Proof/Machine/Triggers.lean ====
section
/-! DEFINITION. The trigger and status commands (46_commit_trigger.md, R210 to R212). -/

namespace Sys2Proof.Machine

open Sys2Proof

/-- GET_TRIGGERS_CFG: read both trigger configurations (R210). -/
def execGetTriggersCfg (s : State) : Host.Outcome State Fault Refusal :=
  guarded s fromConfigured true true true
    (.next (respondOk (.triggers (triggerImage (s.trig .activate)) (triggerImage (s.trig .ccUpdate))) s))

/-- A trigger with its edgeLevel and tuserBit written; armed is never written (R211). -/
def configureTrigger (c : TriggerCfg) (t : Trigger) : Trigger :=
  { t with edgeLevel := c.edgeLevel, tuserBit := c.tuserBit }

/-- SET_TRIGGERS_CFG: write both trigger configurations (R211). -/
def execSetTriggersCfg (s : State) : Host.Outcome State Fault Refusal :=
  guarded s inInitialised true true true
    (.next (respondOk .empty { s with
      trigActivate := configureTrigger s.args.trigActivate s.trigActivate
      trigCcUpdate := configureTrigger s.args.trigCcUpdate s.trigCcUpdate }))

/-- GET_STATUS: read the status flags (R212). -/
def execGetStatus (s : State) : Host.Outcome State Fault Refusal :=
  guarded s fromConfigured true true true (.next (respondOk (.status (statusImage s)) s))

end Sys2Proof.Machine
end

