-- ==== Sys2Proof/Machine/Dispatch.lean ====
section
/-! DEFINITION. The meaning of each command: one arm per row of R74. -/

namespace Sys2Proof.Machine

open Sys2Proof

def exec (i : Instr) (s : State) : Host.Outcome State Fault Refusal :=
  match i with
  | .lookup => Sys2Proof.Machine.execLookup s
  | .reset => Sys2Proof.Machine.execReset s
  | .configure => Sys2Proof.Machine.execConfigure s
  | .initialise => Sys2Proof.Machine.execInitialise s
  | .activate => Sys2Proof.Machine.execActivate s
  | .deactivate => Sys2Proof.Machine.execDeactivate s
  | .close => Sys2Proof.Machine.execClose s
  | .getState => Sys2Proof.Machine.execGetState s
  | .getTriggersCfg => Sys2Proof.Machine.execGetTriggersCfg s
  | .setTriggersCfg => Sys2Proof.Machine.execSetTriggersCfg s
  | .getStatus => Sys2Proof.Machine.execGetStatus s
  | .getCurrentCfg => Sys2Proof.Machine.execGetCurrentCfg s
  | .getCurrentCfgSw => Sys2Proof.Machine.execGetCurrentCfgSw s
  | .getEmptyCfg b => Sys2Proof.Machine.execGetEmptyCfg b s
  | .readWork b => Sys2Proof.Machine.execReadWork b s
  | .addCc b c m => Sys2Proof.Machine.execAddCc b c m s
  | .removeCc b c => Sys2Proof.Machine.execRemoveCc b c s
  | .updateCc b c => Sys2Proof.Machine.execUpdateCc b c s
  | .moveCc b c => Sys2Proof.Machine.execMoveCc b c s
  | .addAux b => Sys2Proof.Machine.execAddAux b s
  | .removeAux b => Sys2Proof.Machine.execRemoveAux b s
  | .setAntGain => Sys2Proof.Machine.execSetAntGain s
  | .setAllAntGain => Sys2Proof.Machine.execSetAllAntGain s
  | .commit => Sys2Proof.Machine.execCommit s
  | .commitSw => Sys2Proof.Machine.execCommitSw s
  | .countOnes m => Sys2Proof.Machine.execCountOnes m s
  | .findUnusedId b => Sys2Proof.Machine.execFindUnusedId b s
  | .checkSlots b c m => Sys2Proof.Machine.execCheckSlots b c m s
  | .deriveRate m => Sys2Proof.Machine.execDeriveRate m s
  | .checkCapacity b md c m => Sys2Proof.Machine.execCheckCapacity b md c m s
  | .derivePhaseOffset => Sys2Proof.Machine.execDerivePhaseOffset s

end Sys2Proof.Machine
end

