-- ==== Sys2Proof/Machine/Issue.lean ====
section
/-! DEFINITION. HOST's turn: issuing the next command of its program (R27, R28, R60, R78, R256). -/

namespace Sys2Proof.Machine

open Sys2Proof

/-- HOST writes CMD and ARGS of the command it issues (R27). -/
def latchCommand (c : Command) (s : State) : State := { s with cmd := c.cmd, args := c.args }

/-- A command is decoded and run; a word that is no command raises ILLEGAL_COMMAND (R75, R257). -/
def runCommand (s : State) : Host.Outcome State Fault Refusal :=
  match decode s.cmd with
  | .ok i => exec i s
  | .error _ => .next (raise .illegalCommand s)

/-- What HOST does with a response: a command of a BRINGUP that has failed ends it, so HOST's position passes over the
rest of the expansion (R78); otherwise HOST goes on with its next command. A recorded fault halts HOST where it is. -/
def endBringup (c : Command) (s : State) : State :=
  if s.fault = none ∧ s.resp.ok = false then { s with pos := s.pos + c.skipOnFail } else s

/-- The outcome with its next state, if it has one, taken further. -/
def mapNext (f : State → State) : Host.Outcome State Fault Refusal → Host.Outcome State Fault Refusal
  | .next s => .next (f s)
  | .fault r => .fault r
  | .refused r => .refused r

/-- HOST's turn. HOST issues nothing once a fault is recorded (R256) or its program has ended (R28): the turn then
passes and changes nothing (log 13). -/
def hostTurn (s : State) : Host.Outcome State Fault Refusal :=
  if s.fault.isSome then .next s
  else
    match s.program[s.pos]? with
    | none => .next s
    | some c => mapNext (endBringup c) (runCommand (latchCommand c s))

/-- The state in which HOST's next turn comes next and issues the given command: HOST's program is that one command,
no fault has halted HOST, and the turns the environment had chosen come after HOST's. -/
def placeCommand (c : Command) (s : State) : State :=
  { s with program := [c], pos := 0, fault := none, sched := .host :: s.sched }

end Sys2Proof.Machine
end

