-- ==== Sys2Proof/Machine/Step.lean ====
section
/-! DEFINITION. One step of the machine (R17, R259): the agent whose turn it is moves. A command of HOST is one step,
inside which TRIG and DP move at the points between its unit accesses (log 3). -/

namespace Sys2Proof.Machine

open Sys2Proof

/-- One step: the next turn of the schedule, or HOST's when the schedule has none left. -/
def step (s : State) : Host.Outcome State Fault Refusal :=
  match s.sched with
  | [] => hostTurn s
  | .host :: rest => hostTurn { s with sched := rest }
  | .agent e :: rest => .next (agentStep e { s with sched := rest })

/-- The state with the command of a table row's word placed where the next step issues it, with the ARGS record
that ARGS already holds (log 1). -/
def State.withFetchWord (s : State) (nbits w : Nat) : State :=
  placeCommand ⟨BitVec.ofNat 32 (w % 2 ^ nbits), s.args, 0⟩ s

end Sys2Proof.Machine
end

