-- ==== Sys2Proof/Safety.lean ====
section
/-! DEFINITION. The terms in which claims speak: the permission matrix R232 as one table, the frame of the agents
(R17), the run a claim may speak of (R253, R256), the soundness of a snapshot (R117, R118, R125), and the invariant of
the machine. -/

namespace Sys2Proof.Machine

open Sys2Proof

/-- The permission matrix of R232, read row by row: the command runs in that state. LOOKUP runs in every state, as a
no-op or WRONG_STATE by the name it is given; in NotReady it is the only command that does. -/
def permits (i : Instr) (l : Lifecycle) : Bool :=
  match i with
  | .lookup => true
  | .reset => l == .ready
  | .configure => l == .reset
  | .initialise => l == .configured || l == .initialised
  | .activate | .deactivate => l == .initialised || l == .operational
  | .close | .getState | .countOnes _ | .derivePhaseOffset => l != .notReady
  | .getTriggersCfg | .getStatus => l == .configured || l == .initialised || l == .operational
  | .setTriggersCfg => l == .initialised
  | .getCurrentCfg | .getCurrentCfgSw | .getEmptyCfg _ | .readWork _ | .deriveRate _ =>
    l == .initialised || l == .operational
  | .addCc _ _ _ | .removeCc _ _ | .updateCc _ _ | .moveCc _ _ | .addAux _ | .removeAux _ | .setAntGain
  | .setAllAntGain | .commit | .commitSw | .findUnusedId _ | .checkSlots _ _ _ | .checkCapacity _ _ _ _ =>
    l == .operational

/-- The bank rules of R257, step 4: the bank a command names exists, a single-bank command runs in a build that is
not switchable, and a dual-bank command in one that is. -/
def bankModeOk (i : Instr) (s : State) : Bool :=
  match i with
  | .commit | .getCurrentCfg => !s.build.switchable
  | .commitSw | .getCurrentCfgSw => s.build.switchable
  | _ => s.build.switchable || i.bankOperand != some .ul

/-- The WORK banks a command reads (R257, step 5). -/
def readsWork (i : Instr) (s : State) (b : Bank) : Bool :=
  match i with
  | .readWork x | .findUnusedId x | .checkSlots x _ _ | .checkCapacity x _ _ _ | .addCc x _ _ | .removeCc x _
  | .updateCc x _ | .moveCc x _ | .addAux x | .removeAux x => x == b
  | .commit => b == .dl
  | .commitSw | .setAntGain | .setAllAntGain => b == .dl || s.build.switchable
  | _ => false

/-- Every WORK bank the command reads is loaded (R257, step 5). -/
def workOk (i : Instr) (s : State) : Bool :=
  (!readsWork i s .dl || s.wv.dl) && (!readsWork i s .ul || s.wv.ul)

/-- What a run of TRIG's and DP's steps may change, and nothing else: CUR, the armed bits, datapathActive, ovf, and
the turns it uses up (R17). -/
def AgentsOnly (s t : State) : Prop :=
  t = { s with
    sched := t.sched
    cur := t.cur
    trigActivate := { s.trigActivate with armed := t.trigActivate.armed }
    trigCcUpdate := { s.trigCcUpdate with armed := t.trigCcUpdate.armed }
    datapathActive := t.datapathActive
    ovf := t.ovf }

/-- It is HOST's turn, with these turns to follow: the schedule says so, or it has no turn left (log 2). -/
def hostIsNext (s : State) (rest : List Turn) : Prop := s.sched = .host :: rest ∨ (s.sched = [] ∧ rest = [])

/-- The turns that n unit accesses use up: those of TRIG and DP up to HOST's n-th turn, that turn included, or all of
them if HOST has fewer turns (R55, log 2, log 3). -/
def turnsUsed : List Turn → Nat → List Turn
  | [], _ => []
  | x :: q, n =>
    match n, x with
    | 0, _ => []
    | n + 1, .host => .host :: turnsUsed q n
    | n + 1, .agent e => .agent e :: turnsUsed q (n + 1)

/-- The turns that are left after them. -/
def turnsLeft : List Turn → Nat → List Turn
  | [], _ => []
  | x :: q, n =>
    match n, x with
    | 0, _ => x :: q
    | n + 1, .host => turnsLeft q n
    | n + 1, .agent _ => turnsLeft q (n + 1)

/-- The state after the events among these turns, one after another, and nothing else (R17). -/
def agentMoves (q : List Turn) (s : State) : State :=
  q.foldl (fun t x => match x with
    | .host => t
    | .agent e => agentStep e t) s

/-- No FIRE_CC_UPDATE happens among these turns, because none is there or the event is not enabled (R214). -/
def noFireAmong (q : List Turn) (s : State) : Prop :=
  s.trigCcUpdate.armed = false ∨ s.hwInReset = true ∨ Turn.agent .fireCcUpdate ∉ q

/-- The first FIRE_CC_UPDATE among these turns happens after k unit accesses of the command that is running: the event
is enabled and comes after HOST's (k - 1)-th turn and before its k-th (R207, R214). -/
def firesAfter (q : List Turn) (k : Nat) (s : State) : Prop :=
  s.trigCcUpdate.armed = true ∧ s.hwInReset = false ∧
    ∃ before after, q = before ++ .agent .fireCcUpdate :: after ∧ Turn.agent .fireCcUpdate ∉ before ∧
      k = before.count .host + 1

/-- How many units a bank of the build has (R50). -/
def unitCount (bd : Build) : Nat := 1 + 16 + 16 + 16 + bd.auxNum + bd.hwcfg.numAntenna

/-- A bank of which the first k units, in the order of R164 and R202, are one bank's and the others another's: a torn
configuration (R207). -/
structure HwBank.mixed (bd : Build) (k : Nat) (first rest h : HwBank) : Prop where
  seqLen : h.seqLen = if 0 < k then first.seqLen else rest.seqLen
  slot : ∀ i : Fin 16, h.slot[i] = if 1 + i.val < k then first.slot[i] else rest.slot[i]
  cc : ∀ i : Fin 16, h.cc[i] = if 17 + i.val < k then first.cc[i] else rest.cc[i]
  nco : ∀ i : Fin 16, h.nco[i] = if 33 + i.val < k then first.nco[i] else rest.nco[i]
  aux : ∀ a : Nat, h.aux[a]? = if 49 + a < k then first.aux[a]? else rest.aux[a]?
  antGain : ∀ a : Nat, h.antGain[a]? = if 49 + bd.auxNum + a < k then first.antGain[a]? else rest.antGain[a]?

/-- A state a claim about read-back may speak of: HOST has not been halted (R256) and no commit has failed (R253). -/
def State.safe (s : State) : Prop := s.fault = none ∧ s.commitFatal = false

/-- A bank's variable-length files have the build's lengths (R24, R25). -/
def Snapshot.fits (bd : Build) (w : Snapshot) : Prop :=
  w.aux.length = bd.auxNum ∧ w.antGain.length = bd.hwcfg.numAntenna

def HwBank.fits (bd : Build) (h : HwBank) : Prop :=
  h.aux.length = bd.auxNum ∧ h.antGain.length = bd.hwcfg.numAntenna

/-- A loaded WORK: its placeholder is the unused ID of its sequence (R118) and the slots at or above its sequence
length hold NONE (R117). -/
def Snapshot.sound (w : Snapshot) : Prop :=
  w.notUsed = findUnusedId w.seq ∧ ∀ i : Fin 16, w.seqLen.val ≤ i.val → w.seq[i] = none

/-- The two properties of R125: a carrier's slot count is 0 or a power of two, and it holds slots exactly when it is
active. -/
def Snapshot.coherent (w : Snapshot) : Prop :=
  ∀ c : CcId, legalOccupancy (occCount w c) = true ∧ (0 < occCount w c ↔ ccActive (entry w.cc c) = true)

/-- The rate codes of a file of carriers are legal: 6 and 7 are written by no rule (R18). -/
def ratesLegal (cc : Vector CcDesc 16) : Prop := ∀ c : CcId, (entry cc c).rate.toNat ≤ 5

/-- The invariant of the machine, which power-on has and every step keeps. -/
structure State.Inv (s : State) : Prop where
  /-- The register files have the build's lengths (R24, R25). -/
  workFits : ∀ b, (s.work.get b).fits s.build
  curFits : ∀ b, (s.cur.get b).fits s.build
  nxtFits : ∀ b, (s.nxt.get b).fits s.build
  /-- An instance is bound to a name in every state but NotReady (R30, R233, R241). -/
  bound : s.name = none ↔ s.lc = .notReady
  /-- cfg is NONE or the build's constants, and is set from Configured on, with the hardware out of reset (R243 (e), R237). -/
  configured : fromConfigured s.lc = true →
    s.cfg = some s.build.hwcfg ∧ s.build.hwcfg.wellFormed = true ∧ s.hwInReset = false
  /-- L is set from Initialised on, and every bank has it; the datapath is enabled (R243 (e), R238). -/
  lengths : inInitialisedOrOperational s.lc = true →
    s.datapathEnabled = true ∧ ∃ l, s.len = some l ∧ ∀ b, bankExists s b = true →
      (s.cur.get b).seqLen = l ∧ (s.nxt.get b).seqLen = l ∧ (loaded s b = true → (s.work.get b).seqLen = l)
  /-- A WORK is loaded only from Initialised on, only in a bank of the build, and then it is sound (R36, R118). -/
  loadedSound : ∀ b, loaded s b = true →
    inInitialisedOrOperational s.lc = true ∧ bankExists s b = true ∧ (s.work.get b).sound
  /-- From RESET to CONFIGURE the hardware is held in reset (R236, R237). -/
  held : s.lc = .reset → s.hwInReset = true
  /-- No update can be pending before Operational has been entered (R236, R290). -/
  updateDisarmed : s.lc = .reset ∨ s.lc = .configured → s.trigCcUpdate.armed = false
  /-- The activation trigger is disarmed and the datapath stopped outside Operational, once reset (R236, R240). -/
  stopped : s.lc = .reset ∨ s.lc = .configured ∨ s.lc = .initialised →
    s.trigActivate.armed = false ∧ s.datapathActive = false
  /-- commitFatal is set only while the instance that failed lives on (R38, R236, R241). -/
  fatal : s.commitFatal = true → inInitialisedOrOperational s.lc = true
  /-- Between commands the bank selection is DL (R35, D39). -/
  selection : s.bankSel = .dl

end Sys2Proof.Machine
end

