-- ==== Sys2Proof/Certificates/Slice0/Obligations.lean ====
section
/-! DEFINITION. The statements about the machine. Each docstring names the rules it formalises. -/

open Sys2Proof Sys2Proof.Machine

/-! ### Terms of the statements -/

namespace Sys2Proof.Claims

/-- The command passes the precondition checks 2 to 5 of R257: an instance, the matrix, the bank and the loaded WORK. -/
def runs (i : Instr) (s : State) : Prop :=
  s.lc ≠ .notReady ∧ permits i s.lc = true ∧ bankModeOk i s = true ∧ workOk i s = true

/-- The responses OK with a payload, and FAIL with a cause (R73). -/
def okResp (p : Payload) : Resp := ⟨true, 0, p⟩
def failResp (k : FailCause) : Resp := ⟨false, k.code, .empty⟩

/-- The contents of blankHw(L) (R25). -/
def blankBank (bd : Build) (l : SeqLen) (h : HwBank) : Prop :=
  h.seqLen = l ∧ (∀ i : Fin 16, h.slot[i] = 0) ∧ (∀ c, entry h.cc c = ⟨0, 0, 0⟩)
    ∧ (∀ n, entry h.nco n = ⟨⟨0, 0, 0, 0⟩, ⟨0, 0, 0, 0⟩, 0⟩)
    ∧ h.aux = List.replicate bd.auxNum ⟨0, 0, ⟨0, 0, 0, 0⟩, ⟨0, 0, 0, 0⟩⟩
    ∧ h.antGain = List.replicate bd.hwcfg.numAntenna 0

/-- The contents of blank(L) (R163). -/
def blankWork (bd : Build) (l : SeqLen) (w : Snapshot) : Prop :=
  w.seqLen = l ∧ (∀ i : Fin 16, w.seq[i] = none) ∧ w.notUsed = some 0 ∧ (∀ c, entry w.cc c = ⟨0, 0, 0⟩)
    ∧ (∀ n, entry w.nco n = ⟨⟨0, 0, 0, 0⟩, ⟨0, 0, 0, 0⟩, 0⟩)
    ∧ w.aux = List.replicate bd.auxNum ⟨0, 0, ⟨0, 0, 0, 0⟩, ⟨0, 0, 0, 0⟩⟩
    ∧ w.antGain = List.replicate bd.hwcfg.numAntenna 0

/-- The snapshot a bank reads back as under a cached placeholder, in every field but the phases, which are draws (R164). -/
def readsBackAs (nu : Option CcId) (h : HwBank) (w : Snapshot) : Prop :=
  w.seqLen = h.seqLen
    ∧ (∀ i : Fin 16, h.seqLen.val ≤ i.val → w.seq[i] = none)
    ∧ (∀ i : Fin 16, i.val < h.seqLen.val → nu = some h.slot[i] → w.seq[i] = none)
    ∧ (∀ i : Fin 16, i.val < h.seqLen.val → nu ≠ some h.slot[i] → w.seq[i] = some h.slot[i])
    ∧ w.notUsed = findUnusedId w.seq ∧ w.cc = h.cc ∧ w.antGain = h.antGain
    ∧ (∀ n, (entry w.nco n).freq = (entry h.nco n).freq ∧ (entry w.nco n).gain = (entry h.nco n).gain)
    ∧ w.aux.map (fun d => (d.enable, d.gain, d.freq)) = h.aux.map (fun d => (d.enable, d.gain, d.freq))

/-- The bank writeBank makes of a snapshot: a slot holds its carrier, or the placeholder if it is unused or at or above
the sequence length; every other unit is the snapshot's (R202). -/
def committedAs (w : Snapshot) (h : HwBank) : Prop :=
  h.seqLen = w.seqLen
    ∧ (∀ (i : Fin 16) (c : CcId), i.val < w.seqLen.val → w.seq[i] = some c → h.slot[i] = c)
    ∧ (∀ i : Fin 16, (w.seqLen.val ≤ i.val ∨ w.seq[i] = none) → some h.slot[i] = w.notUsed)
    ∧ h.cc = w.cc ∧ h.nco = w.nco ∧ h.aux = w.aux ∧ h.antGain = w.antGain

/-- A snapshot is another in every field but the phases (R209). -/
def sameButPhases (v w : Snapshot) : Prop :=
  v.seqLen = w.seqLen ∧ v.seq = w.seq ∧ v.notUsed = w.notUsed ∧ v.cc = w.cc ∧ v.antGain = w.antGain
    ∧ (∀ n, (entry v.nco n).freq = (entry w.nco n).freq ∧ (entry v.nco n).gain = (entry w.nco n).gain)
    ∧ v.aux.map (fun d => (d.enable, d.gain, d.freq)) = w.aux.map (fun d => (d.enable, d.gain, d.freq))

/-- The builder commands of R162. -/
def isBuilder : Instr → Bool
  | .addCc _ _ _ | .removeCc _ _ | .updateCc _ _ | .moveCc _ _ | .addAux _ | .removeAux _ | .setAntGain
  | .setAllAntGain => true
  | _ => false

/-- The commands of 47_lifecycle.md that move the lifecycle (R231). -/
def isLifecycle : Instr → Bool
  | .lookup | .reset | .configure | .initialise | .activate | .deactivate | .close => true
  | _ => false

/-- Another active carrier than c is on NCO index n (R150). -/
def takenByAnother (w : Snapshot) (c : CcId) (n : BitVec 8) : Prop :=
  ∃ d : CcId, d ≠ c ∧ (entry w.cc d).rate ≠ 0 ∧ (entry w.cc d).nco.toNat = n.toNat

/-- The limit multiplier of the variant: A is 2, B is 4, and the unconstrained variant has none (R146, R147). -/
def multiplier (cfg : HwCfg) (mul : Nat) : Prop :=
  (cfg.usableCc = 8 ∧ cfg.lanes > 1 ∧ mul = 2) ∨ (cfg.usableCc = 16 ∧ mul = 4)

/-- The slots of sub-block k, counted slot by slot (R148). -/
def slotsInSubBlock (w : Snapshot) (k : Nat) : Nat :=
  ((List.finRange 16).filter fun i =>
    decide (i.val < w.seqLen.val) && w.seq[i].any fun c => (entry w.cc c).nco.toNat / 4 == k).length

/-- The slots carrier c holds, counted slot by slot (R121). -/
def slotsOf (w : Snapshot) (c : CcId) : Nat :=
  ((List.finRange 16).filter fun i => decide (i.val < w.seqLen.val ∧ w.seq[i] = some c)).length

end Sys2Proof.Claims

open Sys2Proof.Claims

/-! ### Encoding (30_encoding.md) -/

/-- R67, R74, R75: decoding the word of any command gives the command, with every operand at every value. -/
def Obligations.EncodeThenDecode : Prop := ∀ i : Instr, decode (encode i) = .ok i

/-- R75: a word the decoder accepts is the word of the command it gives; no bit of it is dropped. -/
def Obligations.DecodeThenEncode : Prop := ∀ (w : Word) (i : Instr), decode w = .ok i → encode i = w

/-- R75: a word decodes to a row's command exactly when (w & mask) = match for that row, and at most one row matches. -/
def Obligations.DecodeByMatchAndMask : Prop :=
  (∀ (w : Word) (i : Instr), decode w = .ok i ↔
    ∃ r ∈ opcodeTable, w &&& r.maskBits = r.matchBits ∧
      i = r.make (Bank.ofBit (fieldBank w)) (CapMode.ofBit (fieldMode w)) (fieldCcid w) (fieldMap w)) ∧
  (∀ (w : Word) (r q : OpcodeRow), r ∈ opcodeTable → q ∈ opcodeTable →
    w &&& r.maskBits = r.matchBits → w &&& q.maskBits = q.matchBits → r.opc = q.opc)

/-- R79: words written out in the spec decode to the commands they stand for, and its three illegal ones do not. -/
def Obligations.PublishedWordsDecode : Prop :=
  decode 0x01000000 = .ok .lookup ∧ decode 0x04000000 = .ok .initialise ∧ decode 0x22000000 = .ok (.getEmptyCfg .dl)
    ∧ decode 0x22800000 = .ok (.getEmptyCfg .ul) ∧ decode 0x30001111 = .ok (.addCc .dl 0 0x1111)
    ∧ decode 0x30012222 = .ok (.addCc .dl 1 0x2222) ∧ decode 0x308500FF = .ok (.addCc .ul 5 0x00FF)
    ∧ decode 0x31010000 = .ok (.removeCc .dl 1) ∧ decode 0x33020000 = .ok (.moveCc .dl 2)
    ∧ decode 0x40000000 = .ok .commit ∧ decode 0x500000FF = .ok (.countOnes 0x00FF)
    ∧ decode 0x54420000 = .ok (.checkCapacity .dl .update 2 0) ∧ decode 0x55000000 = .ok .derivePhaseOffset
    ∧ decode 0x31010001 = .error .unusedField ∧ decode 0x30101111 = .error .reservedBits
    ∧ decode 0x00000000 = .error .unassignedOpcode

/-- R76: an opcode not in the table, RSV ≠ 0, or a nonzero field the opcode does not use is illegal, and each raises
ILLEGAL_COMMAND on HOST's turn: the cause is recorded, HOST's position stays and nothing else changes but CMD and
ARGS, which HOST has written. It is HOST's turn when the schedule says so or has no turn left (the model's choice, log 2). -/
def Obligations.IllegalWordHaltsHost : Prop :=
  ∀ (s : State) (rest : List Turn) (c : Command),
    s.fault = none → hostIsNext s rest → s.program[s.pos]? = some c →
    ((∀ r ∈ opcodeTable, r.opc ≠ fieldOpc c.cmd) ∨ fieldRsv c.cmd ≠ 0 ∨
      (∃ r ∈ opcodeTable, r.opc = fieldOpc c.cmd ∧
        ((r.usesBank = false ∧ fieldBank c.cmd ≠ 0) ∨ (r.usesMode = false ∧ fieldMode c.cmd ≠ 0) ∨
          (r.usesCcid = false ∧ fieldCcid c.cmd ≠ 0) ∨ (r.usesMap = false ∧ fieldMap c.cmd ≠ 0)))) →
    step s = .next { s with sched := rest, cmd := c.cmd, args := c.args, fault := some .illegalCommand }

/-! ### Steps and agents -/

/-- R17, R28, R60: on HOST's turn, with no fault recorded and a command at HOST's position that decodes, the step is
exec of that command, after HOST has written CMD and ARGS and the turn is used up. R78: only after a failure of a command
of a BRINGUP does HOST's position also pass over the rest of its expansion; the position it stops at is DEDUCED (log 31).
Model's choices: a schedule with no turn left is HOST's turn (log 2), and a whole command is one step, inside which TRIG
and DP have their turns (log 3). -/
def Obligations.StepRunsDecodedCommand : Prop :=
  (∀ (s : State) (c : Command) (i : Instr) (rest : List Turn),
    s.fault = none → s.program[s.pos]? = some c → decode c.cmd = .ok i → hostIsNext s rest →
    let start : State := { s with sched := rest, cmd := c.cmd, args := c.args }
    (c.skipOnFail = 0 → step s = exec i start) ∧
    (∀ t, exec i start = .next t →
      (t.fault = none → t.resp.ok = false → step s = .next { t with pos := t.pos + c.skipOnFail }) ∧
      (t.fault ≠ none ∨ t.resp.ok = true → step s = .next t)) ∧
    (∀ f, exec i start = .fault f → step s = .fault f) ∧
    (∀ r, exec i start = .refused r → step s = .refused r)) ∧
  (∀ (switchable : Bool) (name : DeviceName) (seqLen : BitVec 5) (tuserSel : BitVec 8) (k : Nat) (c : Command),
    (bringup switchable name seqLen tuserSel)[k]? = some c →
    k + 1 + c.skipOnFail = (bringup switchable name seqLen tuserSel).length)

/-- R256, R28: HOST has no step once a fault is recorded or its program has ended; its turn then changes nothing. That
the turn passes is the model's choice (log 13), and so is that a schedule with no turn left is HOST's turn (log 2). -/
def Obligations.HaltedOrFinishedHostChangesNothing : Prop :=
  ∀ (s : State) (rest : List Turn), hostIsNext s rest → (s.fault ≠ none ∨ s.program.length ≤ s.pos) →
    step s = .next { s with sched := rest }

/-- R214: FIRE_CC_UPDATE, when the update trigger is armed and the hardware out of reset, copies NXT into CUR for every
bank and disarms the trigger, in one step that changes nothing else; when it is not enabled it does not happen.
Model's choices: the turn of an event that is not enabled passes (log 2), and a build that is not switchable keeps its
unused UL entry of CUR (log 18). -/
def Obligations.FireCcUpdateCopiesNextIntoCurrent : Prop :=
  ∀ (s : State) (rest : List Turn), s.sched = .agent .fireCcUpdate :: rest →
    (s.trigCcUpdate.armed = true → s.hwInReset = false →
      step s = .next { s with
        sched := rest
        cur := ⟨s.nxt.dl, if s.build.switchable then s.nxt.ul else s.cur.ul⟩
        trigCcUpdate := { s.trigCcUpdate with armed := false } }) ∧
    (s.trigCcUpdate.armed = false ∨ s.hwInReset = true → step s = .next { s with sched := rest })

/-- R215: FIRE_ACTIVATE starts the datapath and disarms the activation trigger; R216: DP_OVERFLOW(m) ors m into ovf.
Each happens only when it is enabled and changes nothing else. Model's choices: the turn of an event that is not enabled
passes (log 2), and the statement says the same of a zero mask, which is no event of R216 and changes nothing (log 30). -/
def Obligations.FireActivateAndOverflowEvents : Prop :=
  ∀ (s : State) (rest : List Turn),
    (s.sched = .agent .fireActivate :: rest →
      (s.trigActivate.armed = true ∧ s.hwInReset = false →
        step s = .next { s with
          sched := rest, datapathActive := true, trigActivate := { s.trigActivate with armed := false } }) ∧
      (¬(s.trigActivate.armed = true ∧ s.hwInReset = false) → step s = .next { s with sched := rest })) ∧
    (∀ m, s.sched = .agent (.dpOverflow m) :: rest →
      (s.datapathActive = true ∧ s.datapathEnabled = true ∧ s.hwInReset = false →
        step s = .next { s with sched := rest, ovf := s.ovf ||| m }) ∧
      (¬(s.datapathActive = true ∧ s.datapathEnabled = true ∧ s.hwInReset = false) →
        step s = .next { s with sched := rest }))

/-- R37, R256: a recorded fault is never cleared, and from then on a step is one event of TRIG's or DP's, as the schedule
has it, or changes nothing but the turn it uses up (that HOST's turn then passes is the model's choice, log 13). -/
def Obligations.FaultIsSticky : Prop :=
  ∀ (s t : State) (c : FaultCause), s.fault = some c → step s = .next t →
    t.fault = some c ∧
    ((∃ e rest, s.sched = .agent e :: rest ∧ t = agentStep e { s with sched := rest }) ∨
      ((∀ e rest, s.sched ≠ .agent e :: rest) ∧ t = { s with sched := s.sched.tail }))

/-- R29, R244: only the lifecycle commands change lc; every other command, and TRIG and DP, keep it. -/
def Obligations.LifecycleMovesOnlyByItsCommands : Prop :=
  (∀ (i : Instr) (s t : State), isLifecycle i = false → exec i s = .next t → t.lc = s.lc) ∧
  (∀ (s t : State) (e : AgentEvent) (rest : List Turn), s.sched = .agent e :: rest → step s = .next t → t.lc = s.lc)

/-- R40: edgeLevel and tuserBit of both triggers are written only by SET_TRIGGERS_CFG and RESET; ACTIVATE alone arms
the activation trigger and a commit alone arms the update trigger. -/
def Obligations.TriggersAreWrittenOnlyByTheirCommands : Prop :=
  ∀ (i : Instr) (s t : State), exec i s = .next t →
    (i ≠ .setTriggersCfg → i ≠ .reset →
      t.trigActivate.edgeLevel = s.trigActivate.edgeLevel ∧ t.trigActivate.tuserBit = s.trigActivate.tuserBit ∧
      t.trigCcUpdate.edgeLevel = s.trigCcUpdate.edgeLevel ∧ t.trigCcUpdate.tuserBit = s.trigCcUpdate.tuserBit) ∧
    (s.trigActivate.armed = false → t.trigActivate.armed = true → i = .activate) ∧
    (s.trigCcUpdate.armed = false → t.trigCcUpdate.armed = true → i = .commit ∨ i = .commitSw)

/-- R44: an overflow bit, once set, stays set through every command but RESET and through every step of TRIG and DP. -/
def Obligations.OverflowBitsAreSticky : Prop :=
  (∀ (i : Instr) (s t : State), i ≠ .reset → exec i s = .next t → s.ovf ||| t.ovf = t.ovf) ∧
  (∀ (s t : State) (e : AgentEvent) (rest : List Turn), s.sched = .agent e :: rest → step s = .next t →
    s.ovf ||| t.ovf = t.ovf)

/-- R38: commitFatal is set only by a COMMIT or COMMIT_SW begun while the update trigger was armed, and cleared only by
CLOSE. -/
def Obligations.CommitFatalOnlyByPendingCommit : Prop :=
  ∀ (i : Instr) (s t : State), exec i s = .next t →
    (s.commitFatal = false → t.commitFatal = true →
      (i = .commit ∨ i = .commitSw) ∧ s.trigCcUpdate.armed = true) ∧
    (s.commitFatal = true → t.commitFatal = false → i = .close)

/-! ### Precondition violations (60_exceptions.md, 47_lifecycle.md) -/

/-- R232, R257: in NotReady every command but LOOKUP raises NULL_HANDLE. -/
def Obligations.NotReadyRaisesNullHandle : Prop :=
  ∀ (i : Instr) (s : State), i ≠ .lookup → s.lc = .notReady → s.fault = none →
    exec i s = .next { s with fault := some .nullHandle }

/-- R232, R257: a command in a state its row of the matrix marks W raises WRONG_STATE. -/
def Obligations.MatrixRaisesWrongState : Prop :=
  ∀ (i : Instr) (s : State), s.lc ≠ .notReady → permits i s.lc = false → s.fault = none →
    exec i s = .next { s with fault := some .wrongState }

/-- R257, step 4: a permitted command that names a bank the build has not, a single-bank command in a switchable build
or a dual-bank command in one that is not, raises BANK_MODE. -/
def Obligations.BankModeIsRaised : Prop :=
  ∀ (i : Instr) (s : State), s.lc ≠ .notReady → permits i s.lc = true → bankModeOk i s = false → s.fault = none →
    exec i s = .next { s with fault := some .bankMode }

/-- R257, step 5: a permitted command in an existing bank that reads a WORK not loaded raises WORK_UNLOADED. -/
def Obligations.UnloadedWorkIsRaised : Prop :=
  ∀ (i : Instr) (s : State), s.lc ≠ .notReady → permits i s.lc = true → bankModeOk i s = true →
    workOk i s = false → s.fault = none → exec i s = .next { s with fault := some .workUnloaded }

/-- R257, step 6: an auxiliary index at or above AUX_NUM and an antenna index at or above NUM_ANTENNA raise INDEX_OOB
(a sequence length above 16 does too: InitialiseEffect). -/
def Obligations.IndexOutOfBoundsIsRaised : Prop :=
  ∀ s : State, s.fault = none →
    (∀ b, runs (.addAux b) s → s.build.auxNum ≤ s.args.auxIdx.toNat →
      exec (.addAux b) s = .next { s with fault := some .indexOob }) ∧
    (∀ b, runs (.removeAux b) s → s.build.auxNum ≤ s.args.auxIdx.toNat →
      exec (.removeAux b) s = .next { s with fault := some .indexOob }) ∧
    (∀ c, runs .setAntGain s → s.cfg = some c → c.numAntenna ≤ s.args.antIdx.toNat →
      exec .setAntGain s = .next { s with fault := some .indexOob })

/-- R254, R256: a fault is precise: a command that raises one changes no state but the recorded cause, and gives no
response. -/
def Obligations.FaultChangesNothingElse : Prop :=
  ∀ (i : Instr) (s t : State) (c : FaultCause), s.fault = none → exec i s = .next t → t.fault = some c →
    t = { s with fault := some c }

/-- R252: a command other than a commit that answers with a failure changes no register but RESP (and the model's own
draw, log 11); HOST goes on with its next command. -/
def Obligations.FailureChangesOnlyTheResponse : Prop :=
  ∀ (i : Instr) (s t : State), i ≠ .commit → i ≠ .commitSw → exec i s = .next t → t.pos = s.pos + 1 →
    t.resp.ok = false →
    t = { s with resp := t.resp, pos := s.pos + 1, draws := t.draws, regDraw := t.regDraw } ∧
      t.resp.payload = .empty ∧ 1 ≤ t.resp.cause.toNat ∧ t.resp.cause.toNat ≤ 0x0B

/-! ### Lifecycle commands (47_lifecycle.md) -/

/-- R233: LOOKUP in NotReady of a name the platform knows, with a registry entry free, binds the instance; an unknown
name fails with DEVICE_NOT_FOUND and a full registry with REGISTRY_FULL. While bound, its own name is a no-op and
another name raises WRONG_STATE. The draw regFull as a field of the state, renewed by each LOOKUP that reads it and counted
in draws, is the model's choice (log 11). -/
def Obligations.LookupEffect : Prop :=
  ∀ s : State,
    (s.lc = .notReady → s.args.name ∈ s.build.devices → 1 ≤ s.build.registrySize → s.regDraw = false →
      ∃ draw, exec .lookup s = .next { s with
        name := some s.args.name, lc := .ready, resp := okResp .empty, pos := s.pos + 1
        draws := s.draws + 1, regDraw := draw }) ∧
    (s.lc = .notReady → s.args.name ∉ s.build.devices →
      exec .lookup s = .next { s with resp := failResp .deviceNotFound, pos := s.pos + 1 }) ∧
    (s.lc = .notReady → s.args.name ∈ s.build.devices → s.build.registrySize = 0 ∨ s.regDraw = true →
      ∃ draw, exec .lookup s = .next { s with
        resp := failResp .registryFull, pos := s.pos + 1, draws := s.draws + 1, regDraw := draw }) ∧
    (s.lc ≠ .notReady → s.name = some s.args.name →
      exec .lookup s = .next { s with resp := okResp .empty, pos := s.pos + 1 }) ∧
    (s.lc ≠ .notReady → s.name ≠ some s.args.name → s.fault = none →
      exec .lookup s = .next { s with fault := some .wrongState })

/-- R236: RESET in Ready holds the hardware in reset, disarms the triggers, stops the datapath, clears ovf and discards
the instance's volatile state; CUR and NXT of the build's banks have no value afterwards. Model's choices: those free
values are counted in draws (log 9), and a build that is not switchable keeps its unused UL entries (log 18). -/
def Obligations.ResetEffect : Prop :=
  ∀ s : State, s.lc = .ready →
    ∃ t, exec .reset s = .next t ∧
      t = { s with
        hwInReset := true
        trigActivate := ⟨false, 0, 0⟩
        trigCcUpdate := ⟨false, 0, 0⟩
        datapathEnabled := false
        datapathActive := false
        ovf := 0
        cur := t.cur
        nxt := t.nxt
        cfg := none
        len := none
        tuserSel := 0
        notUsed := ⟨some 0, if s.build.switchable then some 0 else s.notUsed.ul⟩
        wv := ⟨false, if s.build.switchable then false else s.wv.ul⟩
        bankSel := .dl
        lc := .reset
        resp := okResp .empty
        pos := s.pos + 1
        draws := t.draws } ∧
      (s.build.switchable = false → t.cur.ul = s.cur.ul ∧ t.nxt.ul = s.nxt.ul)

/-- R237, D44: CONFIGURE in Reset loads the capability constants and releases the hardware reset, for a build whose
constants meet the premises; another build is refused (log 16). That a build that is not switchable keeps its unused UL
entry of wv is the model's choice (log 18). -/
def Obligations.ConfigureEffect : Prop :=
  ∀ s : State, s.lc = .reset →
    (1 ≤ s.build.hwcfg.usableCc → s.build.hwcfg.usableCc ≤ 16 → 1 ≤ s.build.hwcfg.lanes →
      1 ≤ s.build.hwcfg.numAntenna →
      exec .configure s = .next { s with
        cfg := some s.build.hwcfg
        hwInReset := false
        wv := ⟨false, if s.build.switchable then false else s.wv.ul⟩
        lc := .configured
        resp := okResp .empty
        pos := s.pos + 1 }) ∧
    (¬(1 ≤ s.build.hwcfg.usableCc ∧ s.build.hwcfg.usableCc ≤ 16 ∧ 1 ≤ s.build.hwcfg.lanes ∧
      1 ≤ s.build.hwcfg.numAntenna) → exec .configure s = .refused .capabilityPremises)

/-- R238: INITIALISE in Configured or Initialised, with no update pending, programs L = max(seqLen, 1) and tuserSel,
enables the datapath and makes CUR and NXT of every bank blankHw(L). With an update pending it fails with
TRIGGER_PENDING and changes nothing but RESP; a length above 16 raises INDEX_OOB. That a build that is not switchable keeps
its unused UL entries is the model's choice (log 18). -/
def Obligations.InitialiseEffect : Prop :=
  ∀ s : State, s.lc = .configured ∨ s.lc = .initialised →
    (s.args.seqLen.toNat ≤ 16 → s.trigCcUpdate.armed = false →
      ∃ (l : SeqLen) (t : State), l.val = max s.args.seqLen.toNat 1 ∧ exec .initialise s = .next t ∧
        t = { s with
          len := some l
          tuserSel := s.args.tuserSel
          datapathEnabled := true
          cur := t.cur
          nxt := t.nxt
          notUsed := ⟨some 0, if s.build.switchable then some 0 else s.notUsed.ul⟩
          wv := ⟨false, if s.build.switchable then false else s.wv.ul⟩
          lc := .initialised
          resp := okResp .empty
          pos := s.pos + 1 } ∧
        blankBank s.build l t.cur.dl ∧ blankBank s.build l t.nxt.dl ∧
        (s.build.switchable = true → blankBank s.build l t.cur.ul ∧ blankBank s.build l t.nxt.ul) ∧
        (s.build.switchable = false → t.cur.ul = s.cur.ul ∧ t.nxt.ul = s.nxt.ul)) ∧
    (s.args.seqLen.toNat ≤ 16 → s.trigCcUpdate.armed = true →
      exec .initialise s = .next { s with resp := failResp .triggerPending, pos := s.pos + 1 }) ∧
    (16 < s.args.seqLen.toNat → s.fault = none →
      exec .initialise s = .next { s with fault := some .indexOob })

/-- R239: ACTIVATE in Initialised arms the activation trigger and enters Operational; in Operational it is a no-op and
re-arms nothing. R240: DEACTIVATE in Operational disarms it, stops the datapath and returns to Initialised, leaving the
update trigger as it is; in Initialised it is a no-op. -/
def Obligations.ActivateAndDeactivateEffect : Prop :=
  ∀ s : State,
    (s.lc = .initialised → exec .activate s = .next { s with
      trigActivate := { s.trigActivate with armed := true }
      lc := .operational, resp := okResp .empty, pos := s.pos + 1 }) ∧
    (s.lc = .operational → exec .activate s = .next { s with resp := okResp .empty, pos := s.pos + 1 }) ∧
    (s.lc = .operational → exec .deactivate s = .next { s with
      trigActivate := { s.trigActivate with armed := false }
      datapathActive := false
      lc := .initialised, resp := okResp .empty, pos := s.pos + 1 }) ∧
    (s.lc = .initialised → exec .deactivate s = .next { s with resp := okResp .empty, pos := s.pos + 1 })

/-- R241: CLOSE in every state but NotReady destroys the instance and leaves every mixer register as it is; the
placeholder caches of the build's banks have no value afterwards. Model's choices: those free values are counted in draws
(log 9), and a build that is not switchable keeps its unused UL entries (log 18). -/
def Obligations.CloseEffect : Prop :=
  ∀ s : State, s.lc ≠ .notReady →
    ∃ t, exec .close s = .next t ∧
      t = { s with
        name := none
        cfg := none
        len := none
        notUsed := t.notUsed
        wv := ⟨false, if s.build.switchable then false else s.wv.ul⟩
        bankSel := .dl
        commitFatal := false
        lc := .notReady
        resp := okResp .empty
        pos := s.pos + 1
        draws := t.draws } ∧
      (s.build.switchable = false → t.notUsed.ul = s.notUsed.ul)

/-- R242: GET_STATE answers the number of the lifecycle state, which is never 0. -/
def Obligations.GetStateAnswersTheLifecycle : Prop :=
  ∀ s : State, s.lc ≠ .notReady → ∃ code : BitVec 3,
    exec .getState s = .next { s with resp := okResp (.lifecycle code), pos := s.pos + 1 } ∧
    (s.lc = .ready → code = 1) ∧ (s.lc = .reset → code = 2) ∧ (s.lc = .configured → code = 3) ∧
    (s.lc = .initialised → code = 4) ∧ (s.lc = .operational → code = 5)

/-! ### Trigger and status commands (46_commit_trigger.md) -/

/-- R210, R46: GET_TRIGGERS_CFG answers both trigger images: armed in bit 0, edgeLevel in bits 2..1, tuserBit in bits
15..8 and every other bit 0. R212, R46: GET_STATUS answers ccUpdatePending in bit 31, activatePending in bit 30 and ovf
below, the bits between being 0. Neither writes or clears anything. -/
def Obligations.TriggerAndStatusImages : Prop :=
  ∀ s : State,
    (runs .getTriggersCfg s → ∃ a u : BitVec 32,
      exec .getTriggersCfg s = .next { s with resp := okResp (.triggers a u), pos := s.pos + 1 } ∧
      a = (0#16 ++ s.trigActivate.tuserBit ++ 0#5 ++ s.trigActivate.edgeLevel ++
        BitVec.ofBool s.trigActivate.armed : BitVec 32) ∧
      u = (0#16 ++ s.trigCcUpdate.tuserBit ++ 0#5 ++ s.trigCcUpdate.edgeLevel ++
        BitVec.ofBool s.trigCcUpdate.armed : BitVec 32)) ∧
    (runs .getStatus s → ∃ image : BitVec 32,
      exec .getStatus s = .next { s with resp := okResp (.status image), pos := s.pos + 1 } ∧
      image.getLsbD 31 = s.trigCcUpdate.armed ∧ image.getLsbD 30 = s.trigActivate.armed ∧
      ∀ i, i < 30 → image.getLsbD i = s.ovf.getLsbD i)

/-- R211: SET_TRIGGERS_CFG writes edgeLevel and tuserBit of both triggers and never armed. -/
def Obligations.SetTriggersWritesTheConfiguration : Prop :=
  ∀ s : State, s.lc = .initialised →
    exec .setTriggersCfg s = .next { s with
      trigActivate := ⟨s.trigActivate.armed, s.args.trigActivate.edgeLevel, s.args.trigActivate.tuserBit⟩
      trigCcUpdate := ⟨s.trigCcUpdate.armed, s.args.trigCcUpdate.edgeLevel, s.args.trigCcUpdate.tuserBit⟩
      resp := okResp .empty
      pos := s.pos + 1 }

/-! ### The pure functions (41 to 45) -/

/-- R116: countOnes is the number of set bits among the first `length` bits, a length above 16 counting all 16. -/
def Obligations.CountOnesIsPopcountOfTheLowBits : Prop :=
  ∀ (map : SlotMap) (length : Nat),
    countOnes map length = ((List.range 16).filter fun i => decide (i < length) && map.getLsbD i).length

/-- R117: findUnusedId is the smallest carrier ID in no slot, and NONE exactly when every ID is in some slot. -/
def Obligations.FindUnusedIdIsTheSmallestAbsentId : Prop :=
  ∀ seq : Vector (Option CcId) 16,
    (∀ c : CcId, findUnusedId seq = some c ↔
      (∀ i : Fin 16, seq[i] ≠ some c) ∧ ∀ d : CcId, d < c → ∃ i : Fin 16, seq[i] = some d) ∧
    (findUnusedId seq = none ↔ ∀ c : CcId, ∃ i : Fin 16, seq[i] = some c)

/-- R119: assignSlots makes its three checks in order, and on success sets exactly the selected slots to the carrier,
recomputes the placeholder and changes nothing else. -/
def Obligations.AssignSlotsChecksAndAssigns : Prop :=
  ∀ (w : Snapshot) (c : CcId) (map : SlotMap),
    let beyond := ∃ i : Fin 16, w.seqLen.val ≤ i.val ∧ map.getLsbD i.val = true
    let hit := ∃ i : Fin 16, i.val < w.seqLen.val ∧ map.getLsbD i.val = true ∧ w.seq[i] ≠ none
    let n := countOnes map w.seqLen.val
    let legal := n = 0 ∨ n = 1 ∨ n = 2 ∨ n = 4 ∨ n = 8 ∨ n = 16
    (beyond → assignSlots w c map = .error .bitmapOverflow) ∧
    (¬beyond → hit → assignSlots w c map = .error .slotCollision) ∧
    (¬beyond → ¬hit → ¬legal → assignSlots w c map = .error .occNotPow2) ∧
    (¬beyond → ¬hit → legal → ∃ w', assignSlots w c map = .ok w' ∧
      w' = { w with seq := w'.seq, notUsed := findUnusedId w'.seq } ∧
      ∀ i : Fin 16, w'.seq[i] = if i.val < w.seqLen.val ∧ map.getLsbD i.val = true then some c else w.seq[i])

/-- R120: releaseSlots sets to NONE exactly the slots that hold the carrier and recomputes the placeholder; nothing
else changes. -/
def Obligations.ReleaseSlotsClearsTheCarrier : Prop :=
  ∀ (w : Snapshot) (c : CcId),
    releaseSlots w c = { w with seq := (releaseSlots w c).seq, notUsed := findUnusedId (releaseSlots w c).seq } ∧
    ∀ i : Fin 16, (releaseSlots w c).seq[i] = if w.seq[i] = some c then none else w.seq[i]

/-- R136: deriveRate gives DISABLED for no slots and otherwise succeeds exactly when the occupancy is a power of two up
to 16, both divisions are exact and the ratio is one of {1,2,4,8,16}, with code log2(ratio) + 1; a failure is
OCC_NOT_POW2 for an illegal occupancy and RATE_INVALID otherwise. -/
def Obligations.DeriveRateIsTheExactRatio : Prop :=
  ∀ (map : SlotMap) (len ai cps : Nat),
    let n := countOnes map len
    let pow2 := n = 1 ∨ n = 2 ∨ n = 4 ∨ n = 8 ∨ n = 16
    let ratio := fun k : Nat => k ≤ 4 ∧ 0 < cps ∧ n ∣ len ∧ ai * (len / n) = 2 ^ k * cps
    (n = 0 → deriveRate map len ai cps = .ok 0) ∧
    (n ≠ 0 → ¬pow2 → deriveRate map len ai cps = .error .occNotPow2) ∧
    (pow2 → ∀ k, ratio k → deriveRate map len ai cps = .ok (BitVec.ofNat 3 (k + 1))) ∧
    (pow2 → (¬∃ k, ratio k) → deriveRate map len ai cps = .error .rateInvalid)

/-- R146, R147, R148, R150: checkCapacity makes its three checks in order: the index is below USABLE_CC; no other active
carrier is on it; and, in variants A and B, the destination sub-block's usage before the change plus the candidate's
slots does not exceed its share of the sequence, which in update mode is not checked within one sub-block. -/
def Obligations.CheckCapacityMakesItsThreeChecks : Prop :=
  ∀ (w : Snapshot) (cfg : HwCfg) (mode : CapMode) (c : CcId) (n : BitVec 8) (map : SlotMap),
    let added := if mode = .add then countOnes map w.seqLen.val else slotsOf w c
    let skipped := mode = .update ∧ (entry w.cc c).nco.toNat / 4 = n.toNat / 4
    let fair := ∀ mul, multiplier cfg mul → skipped ∨ (slotsInSubBlock w (n.toNat / 4) + added) * mul ≤ w.seqLen.val
    (cfg.usableCc ≤ n.toNat → checkCapacity w cfg mode c n map = .error .ncoRange) ∧
    (n.toNat < cfg.usableCc → takenByAnother w c n → checkCapacity w cfg mode c n map = .error .ncoInUse) ∧
    (n.toNat < cfg.usableCc → ¬takenByAnother w c n → ¬fair →
      checkCapacity w cfg mode c n map = .error .subblockCapacity) ∧
    (n.toNat < cfg.usableCc → ¬takenByAnother w c n → fair → checkCapacity w cfg mode c n map = .ok ())

/-- R196: derivePhaseOffset is q + rb mod 2^18, where q is the wrapped 32-bit difference shifted right by 14 and rb its
bit 13; that is the difference rounded half up to a multiple of 2^14 (R198 (d)). -/
def Obligations.PhaseOffsetRoundsHalfUp : Prop :=
  ∀ a b : Phase,
    let d := (2 ^ 32 + b.acc.toNat - a.acc.toNat) % 2 ^ 32
    (derivePhaseOffset a b).toNat = (d / 2 ^ 14 + d / 2 ^ 13 % 2) % 2 ^ 18 ∧
    (derivePhaseOffset a b).toNat = (d + 2 ^ 13) / 2 ^ 14 % 2 ^ 18

/-! ### Queries -/

/-- R122, R123, R124, R137, R151, R197: the query commands answer the value of their function, or the failure of their
check, and write nothing but RESP. -/
def Obligations.QueriesAnswerAndWriteNothing : Prop :=
  ∀ s : State,
    (∀ m, runs (.countOnes m) s → ∃ n : BitVec 5, n.toNat = countOnes m s.args.length.toNat ∧
      exec (.countOnes m) s = .next { s with resp := okResp (.count n), pos := s.pos + 1 }) ∧
    (∀ b, runs (.findUnusedId b) s → ∃ n : BitVec 5,
      exec (.findUnusedId b) s = .next { s with resp := okResp (.unusedId n), pos := s.pos + 1 } ∧
      (∀ c, findUnusedId (s.work.get b).seq = some c → n.toNat = c.toNat) ∧
      (findUnusedId (s.work.get b).seq = none → n.toNat = 16)) ∧
    (∀ b c m, runs (.checkSlots b c m) s →
      (∀ w, assignSlots (s.work.get b) c m = .ok w →
        exec (.checkSlots b c m) s = .next { s with resp := okResp .empty, pos := s.pos + 1 }) ∧
      (∀ k, assignSlots (s.work.get b) c m = .error k →
        exec (.checkSlots b c m) s = .next { s with resp := failResp k, pos := s.pos + 1 })) ∧
    (∀ m l cfg, runs (.deriveRate m) s → s.len = some l → s.cfg = some cfg →
      (∀ r, deriveRate m l.val cfg.antInterleave cfg.mixerCps = .ok r →
        exec (.deriveRate m) s = .next { s with resp := okResp (.rate r), pos := s.pos + 1 }) ∧
      (∀ k, deriveRate m l.val cfg.antInterleave cfg.mixerCps = .error k →
        exec (.deriveRate m) s = .next { s with resp := failResp k, pos := s.pos + 1 })) ∧
    (∀ b md c m cfg, runs (.checkCapacity b md c m) s → s.cfg = some cfg →
      (checkCapacity (s.work.get b) cfg md c s.args.nco m = .ok () →
        exec (.checkCapacity b md c m) s = .next { s with resp := okResp .empty, pos := s.pos + 1 }) ∧
      (∀ k, checkCapacity (s.work.get b) cfg md c s.args.nco m = .error k →
        exec (.checkCapacity b md c m) s = .next { s with resp := failResp k, pos := s.pos + 1 })) ∧
    (runs .derivePhaseOffset s →
      exec .derivePhaseOffset s = .next { s with
        resp := okResp (.phaseOffset (derivePhaseOffset s.args.phaseA s.args.phaseB)), pos := s.pos + 1 })

/-! ### Snapshot sources (44_builder.md) -/

/-- R167, R163: GET_EMPTY_CFG loads blank(L) into the named WORK bank; R168: READ_WORK answers the WORK bank and writes
nothing. -/
def Obligations.EmptyConfigurationAndReadWork : Prop :=
  ∀ (s : State) (b : Bank),
    (∀ l, runs (.getEmptyCfg b) s → s.len = some l → ∃ w, blankWork s.build l w ∧
      exec (.getEmptyCfg b) s = .next { s with
        work := s.work.set b w, wv := s.wv.set b true, resp := okResp .empty, pos := s.pos + 1 }) ∧
    (runs (.readWork b) s →
      exec (.readWork b) s = .next { s with resp := okResp (.snapshot (s.work.get b)), pos := s.pos + 1 })

/-- R164, R165: GET_CURRENT_CFG among whose reads no update fires, because none is pending or because the pending one
does not fire, loads W[DL] with what CUR[DL] reads back as under the cached placeholder, which is the newer one while a
commit is pending (R296). Nothing but W[DL], its valid bit, RESP and the model's draws (log 10) changes, besides exactly
the events of TRIG and DP among the turns the reads use up (log 2, log 3). -/
def Obligations.ReadBackOfSettledHardware : Prop :=
  ∀ s : State, runs .getCurrentCfg s → s.cur.dl.fits s.build →
    let used := turnsUsed s.sched (unitCount s.build)
    noFireAmong used s →
    ∃ w d, readsBackAs s.notUsed.dl s.cur.dl w ∧
      exec .getCurrentCfg s = .next { agentMoves used s with
        sched := turnsLeft s.sched (unitCount s.build)
        cur := s.cur
        trigCcUpdate := s.trigCcUpdate
        work := s.work.set .dl w
        wv := s.wv.set .dl true
        resp := okResp .empty
        pos := s.pos + 1
        draws := d }

/-- R164, R166: GET_CURRENT_CFG_SW among whose reads no update fires, one pending or not, loads both WORK banks, each
translated with its own cache (R296), and the bank selection is as before. Nothing else changes but RESP and the model's
draws (log 10), besides exactly the events of TRIG and DP among the turns the reads use up (log 2, log 3). -/
def Obligations.DualReadBackOfSettledHardware : Prop :=
  ∀ s : State, runs .getCurrentCfgSw s → s.cur.dl.fits s.build → s.cur.ul.fits s.build →
    let used := turnsUsed s.sched (2 * unitCount s.build)
    noFireAmong used s →
    ∃ d u n, readsBackAs s.notUsed.dl s.cur.dl d ∧ readsBackAs s.notUsed.ul s.cur.ul u ∧
      exec .getCurrentCfgSw s = .next { agentMoves used s with
        sched := turnsLeft s.sched (2 * unitCount s.build)
        cur := s.cur
        trigCcUpdate := s.trigCcUpdate
        work := ⟨d, u⟩
        wv := ⟨true, true⟩
        resp := okResp .empty
        pos := s.pos + 1
        draws := n }

/-- R165, R166, R55: a read-back completes whatever TRIG and DP do among its reads, an update pending or not, and
changes nothing but the WORK banks it loads, RESP and the model's draws (log 10), besides exactly the events of TRIG and DP
among the turns the reads use up (log 2, log 3). R164: with a fire after k of its reads it loads a mixture: what a bank
reads back as whose first k units are the old CUR's and the others those of the NXT that the fire copied. -/
def Obligations.ReadBackCompletesUnderAnySchedule : Prop :=
  ∀ s : State,
    (runs .getCurrentCfg s →
      let used := turnsUsed s.sched (unitCount s.build)
      ∃ w d,
        exec .getCurrentCfg s = .next { agentMoves used s with
          sched := turnsLeft s.sched (unitCount s.build)
          work := s.work.set .dl w
          wv := s.wv.set .dl true
          resp := okResp .empty
          pos := s.pos + 1
          draws := d } ∧
        (s.cur.dl.fits s.build → s.nxt.dl.fits s.build → ∀ k, firesAfter used k s →
          ∃ h, HwBank.mixed s.build k s.cur.dl s.nxt.dl h ∧ readsBackAs s.notUsed.dl h w)) ∧
    (runs .getCurrentCfgSw s →
      let used := turnsUsed s.sched (2 * unitCount s.build)
      ∃ d u n,
        exec .getCurrentCfgSw s = .next { agentMoves used s with
          sched := turnsLeft s.sched (2 * unitCount s.build)
          work := ⟨d, u⟩
          wv := ⟨true, true⟩
          resp := okResp .empty
          pos := s.pos + 1
          draws := n } ∧
        ((∀ b, (s.cur.get b).fits s.build ∧ (s.nxt.get b).fits s.build) → ∀ k, firesAfter used k s →
          ∃ h g, HwBank.mixed s.build k s.cur.dl s.nxt.dl h ∧ readsBackAs s.notUsed.dl h d ∧
            HwBank.mixed s.build (k - unitCount s.build) s.cur.ul s.nxt.ul g ∧ readsBackAs s.notUsed.ul g u))

/-! ### Builder commands (44_builder.md) -/

/-- R169: ADD_CC on an inactive carrier whose capacity check, slot assignment and rate derivation all succeed writes the
assigned sequence and its placeholder, the carrier's descriptor and the NCO descriptor, and nothing else. On an active
carrier, or when one of the three fails, it answers the failure of the first check that fails and writes nothing but
RESP. -/
def Obligations.AddCarrierEffect : Prop :=
  ∀ (s : State) (b : Bank) (c : CcId) (m : SlotMap) (cfg : HwCfg), runs (.addCc b c m) s → s.cfg = some cfg →
    (∀ (w' : Snapshot) (r : RateCode), (entry (s.work.get b).cc c).rate = 0 →
      checkCapacity (s.work.get b) cfg .add c s.args.nco m = .ok () → assignSlots (s.work.get b) c m = .ok w' →
      deriveRate m (s.work.get b).seqLen.val cfg.antInterleave cfg.mixerCps = .ok r →
      ∃ t, exec (.addCc b c m) s = .next { s with
          work := s.work.set b t, resp := okResp .empty, pos := s.pos + 1 } ∧
        t = { s.work.get b with seq := w'.seq, notUsed := w'.notUsed, cc := t.cc, nco := t.nco } ∧
        (∀ d, entry t.cc d =
          if d = c then ⟨s.args.nco.setWidth 4, r, s.args.ccGain⟩ else entry (s.work.get b).cc d) ∧
        (∀ n, entry t.nco n =
          if n = s.args.nco.setWidth 4 then s.args.ncoDesc else entry (s.work.get b).nco n)) ∧
    ((entry (s.work.get b).cc c).rate ≠ 0 →
      exec (.addCc b c m) s = .next { s with resp := failResp .ccAlreadyActive, pos := s.pos + 1 }) ∧
    ((entry (s.work.get b).cc c).rate = 0 → ∀ k, checkCapacity (s.work.get b) cfg .add c s.args.nco m = .error k →
      exec (.addCc b c m) s = .next { s with resp := failResp k, pos := s.pos + 1 }) ∧
    ((entry (s.work.get b).cc c).rate = 0 → checkCapacity (s.work.get b) cfg .add c s.args.nco m = .ok () →
      ∀ k, assignSlots (s.work.get b) c m = .error k →
      exec (.addCc b c m) s = .next { s with resp := failResp k, pos := s.pos + 1 }) ∧
    (∀ w', (entry (s.work.get b).cc c).rate = 0 → checkCapacity (s.work.get b) cfg .add c s.args.nco m = .ok () →
      assignSlots (s.work.get b) c m = .ok w' →
      ∀ k, deriveRate m (s.work.get b).seqLen.val cfg.antInterleave cfg.mixerCps = .error k →
      exec (.addCc b c m) s = .next { s with resp := failResp k, pos := s.pos + 1 })

/-- R170: REMOVE_CC always succeeds: the carrier's slots become NONE, the placeholder is recomputed and the carrier's
rate becomes DISABLED; its NCO index and gain, and everything else, are kept. -/
def Obligations.RemoveCarrierEffect : Prop :=
  ∀ (s : State) (b : Bank) (c : CcId), runs (.removeCc b c) s →
    ∃ t, exec (.removeCc b c) s = .next { s with
        work := s.work.set b t, resp := okResp .empty, pos := s.pos + 1 } ∧
      t = { s.work.get b with seq := t.seq, notUsed := findUnusedId t.seq, cc := t.cc } ∧
      (∀ i : Fin 16, t.seq[i] = if (s.work.get b).seq[i] = some c then none else (s.work.get b).seq[i]) ∧
      (∀ d, entry t.cc d =
        if d = c then { entry (s.work.get b).cc c with rate := 0 } else entry (s.work.get b).cc d)

/-- R171: UPDATE_CC whose capacity check succeeds writes the carrier's NCO index and gain and nothing else, whether the
carrier is active or not; when the check fails it writes nothing but RESP. -/
def Obligations.UpdateCarrierEffect : Prop :=
  ∀ (s : State) (b : Bank) (c : CcId) (cfg : HwCfg), runs (.updateCc b c) s → s.cfg = some cfg →
    (checkCapacity (s.work.get b) cfg .update c s.args.nco 0 = .ok () →
      ∃ t, exec (.updateCc b c) s = .next { s with
          work := s.work.set b t, resp := okResp .empty, pos := s.pos + 1 } ∧
        t = { s.work.get b with cc := t.cc } ∧
        ∀ d, entry t.cc d = if d = c then
          ⟨s.args.nco.setWidth 4, (entry (s.work.get b).cc c).rate, s.args.ccGain⟩ else entry (s.work.get b).cc d) ∧
    (∀ k, checkCapacity (s.work.get b) cfg .update c s.args.nco 0 = .error k →
      exec (.updateCc b c) s = .next { s with resp := failResp k, pos := s.pos + 1 })

/-- R172: MOVE_CC whose capacity check succeeds writes the carrier's NCO index and gain and the destination's NCO
descriptor, whose phase offset is the derived one; when the check fails it writes nothing but RESP. -/
def Obligations.MoveCarrierEffect : Prop :=
  ∀ (s : State) (b : Bank) (c : CcId) (cfg : HwCfg), runs (.moveCc b c) s → s.cfg = some cfg →
    (checkCapacity (s.work.get b) cfg .update c s.args.nco 0 = .ok () →
      ∃ t, exec (.moveCc b c) s = .next { s with
          work := s.work.set b t, resp := okResp .empty, pos := s.pos + 1 } ∧
        t = { s.work.get b with cc := t.cc, nco := t.nco } ∧
        (∀ d, entry t.cc d = if d = c then
          ⟨s.args.nco.setWidth 4, (entry (s.work.get b).cc c).rate, s.args.ccGain⟩ else entry (s.work.get b).cc d) ∧
        (∀ n, entry t.nco n = if n = s.args.nco.setWidth 4 then
          ⟨⟨s.args.ncoDesc.freq.fcw, s.args.ncoDesc.freq.singleModCount, s.args.ncoDesc.freq.dualModCount,
            derivePhaseOffset s.args.phaseA s.args.phaseB⟩, s.args.ncoDesc.phase, s.args.ncoDesc.gain⟩
          else entry (s.work.get b).nco n)) ∧
    (∀ k, checkCapacity (s.work.get b) cfg .update c s.args.nco 0 = .error k →
      exec (.moveCc b c) s = .next { s with resp := failResp k, pos := s.pos + 1 })

/-- R173, R174: ADD_AUX writes auxiliary entry auxIdx with enable 1 and the operand, REMOVE_AUX writes it all zero; no
other entry and no other register changes. -/
def Obligations.AuxiliaryEffect : Prop :=
  ∀ (s : State) (b : Bank), s.args.auxIdx.toNat < s.build.auxNum → (s.work.get b).aux.length = s.build.auxNum →
    (runs (.addAux b) s → ∃ l, exec (.addAux b) s = .next { s with
        work := s.work.set b { s.work.get b with aux := l }, resp := okResp .empty, pos := s.pos + 1 } ∧
      ∀ a, l[a]? = if a = s.args.auxIdx.toNat then
        some ⟨1, s.args.auxDesc.gain, s.args.auxDesc.freq, s.args.auxDesc.phase⟩ else (s.work.get b).aux[a]?) ∧
    (runs (.removeAux b) s → ∃ l, exec (.removeAux b) s = .next { s with
        work := s.work.set b { s.work.get b with aux := l }, resp := okResp .empty, pos := s.pos + 1 } ∧
      ∀ a, l[a]? = if a = s.args.auxIdx.toNat then
        some ⟨0, 0, ⟨0, 0, 0, 0⟩, ⟨0, 0, 0, 0⟩⟩ else (s.work.get b).aux[a]?)

/-- R175: SET_ANT_GAIN writes one entry of the antenna gains in the WORK of every bank; R176: SET_ALL_ANT_GAIN writes
every entry. Nothing else changes. Model's choices: a build that is not switchable keeps its unused UL entry (log 18); and
with an operand of another length than NUM_ANTENNA the command runs, sets the entries the operand has, and the others
hold free values, which are counted in draws (log 15). -/
def Obligations.AntennaGainEffect : Prop :=
  ∀ (s : State) (cfg : HwCfg), s.cfg = some cfg →
    (runs .setAntGain s → s.args.antIdx.toNat < cfg.numAntenna →
      (∀ b, (s.work.get b).antGain.length = cfg.numAntenna) →
      ∃ d u, exec .setAntGain s = .next { s with
          work := ⟨{ s.work.dl with antGain := d }, { s.work.ul with antGain := u }⟩
          resp := okResp .empty, pos := s.pos + 1 } ∧
        (∀ k, d[k]? = if k = s.args.antIdx.toNat then some s.args.antGain else s.work.dl.antGain[k]?) ∧
        (s.build.switchable = true →
          ∀ k, u[k]? = if k = s.args.antIdx.toNat then some s.args.antGain else s.work.ul.antGain[k]?) ∧
        (s.build.switchable = false → u = s.work.ul.antGain)) ∧
    (runs .setAllAntGain s → s.args.antGains.length = cfg.numAntenna →
      exec .setAllAntGain s = .next { s with
        work := ⟨{ s.work.dl with antGain := s.args.antGains },
          { s.work.ul with antGain := if s.build.switchable then s.args.antGains else s.work.ul.antGain }⟩
        resp := okResp .empty, pos := s.pos + 1 }) ∧
    (runs .setAllAntGain s → s.args.antGains.length ≠ cfg.numAntenna →
      ∃ d u n, exec .setAllAntGain s = .next { s with
          work := ⟨{ s.work.dl with antGain := d }, { s.work.ul with antGain := u }⟩
          resp := okResp .empty, pos := s.pos + 1, draws := n } ∧
        (d.length = cfg.numAntenna ∧
          ∀ (k : Nat) g, k < cfg.numAntenna → s.args.antGains[k]? = some g → d[k]? = some g) ∧
        (s.build.switchable = true → u.length = cfg.numAntenna ∧
          ∀ (k : Nat) g, k < cfg.numAntenna → s.args.antGains[k]? = some g → u[k]? = some g) ∧
        (s.build.switchable = false → u = s.work.ul.antGain))

/-- R178: a builder command writes no register but WORK, RESP and, where it faults, FAULT; nor does GET_EMPTY_CFG but
for the valid bit. The model's own draws change only in SET_ALL_ANT_GAIN (log 15). -/
def Obligations.BuilderWritesOnlyWork : Prop :=
  ∀ (i : Instr) (s t : State), isBuilder i = true ∨ (∃ b, i = .getEmptyCfg b) → exec i s = .next t →
    t = { s with work := t.work, wv := t.wv, resp := t.resp, pos := t.pos, fault := t.fault, draws := t.draws } ∧
    (isBuilder i = true → t.wv = s.wv) ∧ (i ≠ .setAllAntGain → t.draws = s.draws)

/-- R177: ADD_CC followed at once by REMOVE_CC of the same carrier restores the sequence, the placeholder and every
rate (so every carrier's activity), from a WORK that satisfies R118 and R125; the carrier's NCO index and gain and the NCO
descriptors stay as ADD_CC wrote them. -/
def Obligations.AddThenRemoveRestores : Prop :=
  ∀ (s s1 : State) (b : Bank) (c : CcId) (m : SlotMap),
    (s.work.get b).sound → (s.work.get b).coherent → s.fault = none →
    exec (.addCc b c m) s = .next s1 → s1.pos = s.pos + 1 → s1.resp.ok = true →
    ∃ s2, exec (.removeCc b c) s1 = .next s2 ∧ s2.resp = okResp .empty ∧
      (s2.work.get b).seq = (s.work.get b).seq ∧ (s2.work.get b).notUsed = (s.work.get b).notUsed ∧
      (∀ x, (entry (s2.work.get b).cc x).rate = (entry (s.work.get b).cc x).rate) ∧
      (entry (s2.work.get b).cc c).nco = (entry (s1.work.get b).cc c).nco ∧
      (entry (s2.work.get b).cc c).gain = (entry (s1.work.get b).cc c).gain ∧
      (s2.work.get b).nco = (s1.work.get b).nco

/-- R125: with every loaded WORK sound and coherent (a carrier's slot count is 0 or a power of two, and it holds slots
exactly when it is active), a builder command or GET_EMPTY_CFG leaves every loaded WORK so. -/
def Obligations.BuilderKeepsPowerOfTwoOccupancy : Prop :=
  ∀ (i : Instr) (s t : State), isBuilder i = true ∨ (∃ b, i = .getEmptyCfg b) → exec i s = .next t →
    (∀ b, loaded s b = true → (s.work.get b).sound ∧ (s.work.get b).coherent) →
    ∀ b, loaded t b = true → (t.work.get b).sound ∧ (t.work.get b).coherent

/-! ### Commit (46_commit_trigger.md) -/

/-- R204: COMMIT succeeds when no update is pending (R208), and when the pending one fires after k of its writes (R207):
NXT[DL] holds W[DL] with the placeholder in its unused slots, the update trigger is armed and the cache holds the
placeholder. With no update pending CUR is as it was; after the fire its first k units are the new ones and the others
those of the earlier NXT. Nothing else changes, besides exactly the events of TRIG and DP among the turns the writes use
up (log 2, log 3). -/
def Obligations.CommitWritesNextAndArms : Prop :=
  ∀ s : State, runs .commit s → s.work.dl.sound → s.work.dl.fits s.build → s.nxt.dl.fits s.build →
    let used := turnsUsed s.sched (unitCount s.build)
    let done := fun (h : HwBank) (c : PerBank HwBank) => { agentMoves used s with
      sched := turnsLeft s.sched (unitCount s.build)
      nxt := s.nxt.set .dl h
      cur := c
      trigCcUpdate := { s.trigCcUpdate with armed := true }
      notUsed := s.notUsed.set .dl s.work.dl.notUsed
      resp := okResp .empty
      pos := s.pos + 1 }
    (s.trigCcUpdate.armed = false →
      ∃ h, committedAs s.work.dl h ∧ exec .commit s = .next (done h s.cur)) ∧
    (∀ k, firesAfter used k s →
      ∃ h torn, committedAs s.work.dl h ∧ HwBank.mixed s.build k h s.nxt.dl torn ∧
        exec .commit s = .next (done h (s.cur.set .dl torn)))

/-- R204, R206, R253: COMMIT while an update is pending that does not fire among its writes (it may fire later) fails
with TRIGGER_PENDING: NXT[DL] holds the new snapshot all the same, the trigger stays armed, CUR and the cache stay and
commitFatal is set. Nothing else changes, besides exactly the events of TRIG and DP among the turns the writes use up (log
2, log 3). -/
def Obligations.PendingCommitFailsAfterItsWrites : Prop :=
  ∀ s : State, runs .commit s → s.work.dl.sound → s.work.dl.fits s.build → s.nxt.dl.fits s.build →
    let used := turnsUsed s.sched (unitCount s.build)
    s.trigCcUpdate.armed = true → noFireAmong used s →
    ∃ h, committedAs s.work.dl h ∧
      exec .commit s = .next { agentMoves used s with
        sched := turnsLeft s.sched (unitCount s.build)
        nxt := s.nxt.set .dl h
        cur := s.cur
        trigCcUpdate := s.trigCcUpdate
        commitFatal := true
        resp := failResp .triggerPending
        pos := s.pos + 1 }

/-- R205: COMMIT_SW writes both banks under one trigger, updates both caches and leaves the bank selection as it was, when
no update is pending (R208) and when the pending one fires after k of its writes (R207), which leaves in CUR the first k
units new, those of DL before those of UL, and the others from the earlier NXT. With one pending that does not fire among
its writes it fails after both. Nothing else changes, besides exactly the events of TRIG and DP among the turns the writes
use up (log 2, log 3). -/
def Obligations.DualCommitEffect : Prop :=
  ∀ s : State, runs .commitSw s →
    (∀ b, (s.work.get b).sound ∧ (s.work.get b).fits s.build ∧ (s.nxt.get b).fits s.build) →
    let used := turnsUsed s.sched (2 * unitCount s.build)
    let written := fun (d u : HwBank) (c : PerBank HwBank) => { agentMoves used s with
      sched := turnsLeft s.sched (2 * unitCount s.build)
      nxt := ⟨d, u⟩
      cur := c
      pos := s.pos + 1 }
    let done := fun (d u : HwBank) (c : PerBank HwBank) => { written d u c with
      trigCcUpdate := { s.trigCcUpdate with armed := true }
      notUsed := ⟨s.work.dl.notUsed, s.work.ul.notUsed⟩
      resp := okResp .empty }
    (s.trigCcUpdate.armed = false →
      ∃ d u, committedAs s.work.dl d ∧ committedAs s.work.ul u ∧ exec .commitSw s = .next (done d u s.cur)) ∧
    (∀ k, firesAfter used k s →
      ∃ d u tornDl tornUl, committedAs s.work.dl d ∧ committedAs s.work.ul u ∧
        HwBank.mixed s.build k d s.nxt.dl tornDl ∧
        HwBank.mixed s.build (k - unitCount s.build) u s.nxt.ul tornUl ∧
        exec .commitSw s = .next (done d u ⟨tornDl, tornUl⟩)) ∧
    (s.trigCcUpdate.armed = true → noFireAmong used s →
      ∃ d u, committedAs s.work.dl d ∧ committedAs s.work.ul u ∧
        exec .commitSw s = .next { written d u s.cur with
          trigCcUpdate := s.trigCcUpdate
          commitFatal := true
          resp := failResp .triggerPending })

/-- R209: the round trip through the hardware. A COMMIT, or a COMMIT_SW, begun with no update pending, followed by the
fire it armed, reads back as the committed WORK, of every bank, in every field but the phases. -/
def Obligations.CommitFireReadBackRoundTrip : Prop :=
  ∀ s : State, s.trigCcUpdate.armed = false → s.hwInReset = false →
    (runs .commit s → s.work.dl.sound → s.work.dl.fits s.build → s.nxt.dl.fits s.build →
      ∃ s1 s3, exec .commit s = .next s1 ∧ exec .getCurrentCfg (agentStep .fireCcUpdate s1) = .next s3 ∧
        s3.resp = okResp .empty ∧ s3.wv.dl = true ∧ sameButPhases s3.work.dl s.work.dl) ∧
    (runs .commitSw s → (∀ b, (s.work.get b).sound ∧ (s.work.get b).fits s.build ∧ (s.nxt.get b).fits s.build) →
      ∃ s1 s3, exec .commitSw s = .next s1 ∧ exec .getCurrentCfgSw (agentStep .fireCcUpdate s1) = .next s3 ∧
        s3.resp = okResp .empty ∧ ∀ b, s3.wv.get b = true ∧ sameButPhases (s3.work.get b) (s.work.get b))

/-! ### Invariants -/

/-- R289: the power-on column of the reset table, whatever values the mixer launches with (R290). The registers the
table calls unspecified are not in it. -/
def Obligations.PowerOnState : Prop :=
  ∀ (bd : Build) (m : Launch),
    let s := State.powerOn bd m
    s.lc = .notReady ∧ s.name = none ∧ s.cfg = none ∧ s.len = none ∧ s.tuserSel = 0 ∧ s.bankSel = .dl ∧
      s.wv.dl = false ∧ s.wv.ul = false ∧ s.fault = none ∧ s.commitFatal = false

/-- R24, R25, R30, R36, R118, R243 (e): the invariant of Safety.lean holds at power-on for every launch value of the mixer
whose banks have the build's lengths, and at State.reset. -/
def Obligations.InvariantHoldsAtPowerOn : Prop :=
  (∀ (bd : Build) (m : Launch),
    (∀ b, (m.cur.get b).fits bd) → (∀ b, (m.nxt.get b).fits bd) → (State.powerOn bd m).Inv) ∧
  State.reset.Inv

/-- R118, R243 (e), R244 and the lifecycle rules R236 to R241: every step of every agent keeps the invariant of
Safety.lean. -/
def Obligations.StepKeepsTheInvariant : Prop :=
  ∀ s t : State, s.Inv → step s = .next t → t.Inv

/-- R202, R243 (e): in a state that meets the invariant no step stops with a fault of the model: cfg, L and the
placeholder are there whenever a rule reads them. -/
def Obligations.NoModelFaultUnderTheInvariant : Prop :=
  ∀ (s : State) (f : Fault), s.Inv → step s ≠ .fault f

/-- R18: with the invariant, and with every rate code of the build's banks and loaded WORK at most 5 from Initialised on,
no step writes the values 6 and 7. -/
def Obligations.RateCodesStayLegal : Prop :=
  ∀ s t : State, s.Inv → step s = .next t →
    (inInitialisedOrOperational s.lc = true → ∀ b, bankExists s b = true →
      ratesLegal (s.cur.get b).cc ∧ ratesLegal (s.nxt.get b).cc ∧
      (loaded s b = true → ratesLegal (s.work.get b).cc)) →
    (inInitialisedOrOperational t.lc = true → ∀ b, bankExists t b = true →
      ratesLegal (t.cur.get b).cc ∧ ratesLegal (t.nxt.get b).cc ∧
      (loaded t b = true → ratesLegal (t.work.get b).cc))
end

