-- ==== Sys2Proof/Laws/State.lean ====
section
/-! SUPPORT. What each named update of State does to each field: one lemma per field, so that no later proof unfolds a
record update. -/

namespace Sys2Proof.Machine

open Sys2Proof

/-! ### Banks -/

@[simp] theorem PerBank.get_dl {α : Type} (p : PerBank α) : p.get .dl = p.dl := rfl
@[simp] theorem PerBank.get_ul {α : Type} (p : PerBank α) : p.get .ul = p.ul := rfl
@[simp] theorem PerBank.set_dl {α : Type} (p : PerBank α) (v : α) : p.set .dl v = ⟨v, p.ul⟩ := rfl
@[simp] theorem PerBank.set_ul {α : Type} (p : PerBank α) (v : α) : p.set .ul v = ⟨p.dl, v⟩ := rfl

@[simp] theorem PerBank.get_set_same {α : Type} (p : PerBank α) (b : Bank) (v : α) : (p.set b v).get b = v := by
  cases b <;> rfl

theorem PerBank.get_set_other {α : Type} (p : PerBank α) {b x : Bank} (v : α) (h : x ≠ b) :
    (p.set b v).get x = p.get x := by
  cases b <;> cases x <;> first | rfl | exact absurd rfl h

@[simp] theorem PerBank.set_set {α : Type} (p : PerBank α) (b : Bank) (v v' : α) : (p.set b v).set b v' = p.set b v' := by
  cases b <;> rfl

theorem PerBank.set_get {α : Type} (p : PerBank α) (b : Bank) : p.set b (p.get b) = p := by
  cases b <;> rfl

@[simp] theorem PerBank.onBanks_dl {α : Type} (sw : Bool) (f : Bank → α → α) (p : PerBank α) :
    (p.onBanks sw f).dl = f .dl p.dl := rfl
@[simp] theorem PerBank.onBanks_ul {α : Type} (sw : Bool) (f : Bank → α → α) (p : PerBank α) :
    (p.onBanks sw f).ul = if sw then f .ul p.ul else p.ul := rfl

/-- An update of every bank reaches exactly the banks of the build. -/
theorem PerBank.get_onBanks {α : Type} (s : State) (f : Bank → α → α) (p : PerBank α) (b : Bank) :
    (p.onBanks s.build.switchable f).get b = if bankExists s b then f b (p.get b) else p.get b := by
  cases b <;> rfl

/-! ### Register files -/

@[simp] theorem entry_setEntry_same {α : Type} (v : Vector α 16) (c : BitVec 4) (x : α) :
    entry (setEntry v c x) c = x := by
  simp [entry, setEntry]

theorem entry_setEntry_other {α : Type} (v : Vector α 16) {c d : BitVec 4} (x : α) (h : d ≠ c) :
    entry (setEntry v c x) d = entry v d := by
  have : c.toNat ≠ d.toNat := fun e => h (BitVec.eq_of_toNat_eq e.symm)
  simp [entry, setEntry, this]

/-- Entry d after entry c is replaced. -/
theorem entry_setEntry {α : Type} (v : Vector α 16) (c d : BitVec 4) (x : α) :
    entry (setEntry v c x) d = if d = c then x else entry v d := by
  split
  · next h => subst h; simp
  · next h => exact entry_setEntry_other v x h

/-! ### respondOk -/

@[simp] theorem respondOk_build (p : Payload) (s : State) : (respondOk p s).build = s.build := rfl
@[simp] theorem respondOk_program (p : Payload) (s : State) : (respondOk p s).program = s.program := rfl
@[simp] theorem respondOk_pos (p : Payload) (s : State) : (respondOk p s).pos = s.pos + 1 := rfl
@[simp] theorem respondOk_sched (p : Payload) (s : State) : (respondOk p s).sched = s.sched := rfl
@[simp] theorem respondOk_cmd (p : Payload) (s : State) : (respondOk p s).cmd = s.cmd := rfl
@[simp] theorem respondOk_args (p : Payload) (s : State) : (respondOk p s).args = s.args := rfl
@[simp] theorem respondOk_resp (p : Payload) (s : State) : (respondOk p s).resp = (⟨true, 0, p⟩ : Resp) := rfl
@[simp] theorem respondOk_lc (p : Payload) (s : State) : (respondOk p s).lc = s.lc := rfl
@[simp] theorem respondOk_name (p : Payload) (s : State) : (respondOk p s).name = s.name := rfl
@[simp] theorem respondOk_cfg (p : Payload) (s : State) : (respondOk p s).cfg = s.cfg := rfl
@[simp] theorem respondOk_len (p : Payload) (s : State) : (respondOk p s).len = s.len := rfl
@[simp] theorem respondOk_tuserSel (p : Payload) (s : State) : (respondOk p s).tuserSel = s.tuserSel := rfl
@[simp] theorem respondOk_notUsed (p : Payload) (s : State) : (respondOk p s).notUsed = s.notUsed := rfl
@[simp] theorem respondOk_bankSel (p : Payload) (s : State) : (respondOk p s).bankSel = s.bankSel := rfl
@[simp] theorem respondOk_work (p : Payload) (s : State) : (respondOk p s).work = s.work := rfl
@[simp] theorem respondOk_wv (p : Payload) (s : State) : (respondOk p s).wv = s.wv := rfl
@[simp] theorem respondOk_fault (p : Payload) (s : State) : (respondOk p s).fault = s.fault := rfl
@[simp] theorem respondOk_commitFatal (p : Payload) (s : State) : (respondOk p s).commitFatal = s.commitFatal := rfl
@[simp] theorem respondOk_cur (p : Payload) (s : State) : (respondOk p s).cur = s.cur := rfl
@[simp] theorem respondOk_nxt (p : Payload) (s : State) : (respondOk p s).nxt = s.nxt := rfl
@[simp] theorem respondOk_trigActivate (p : Payload) (s : State) : (respondOk p s).trigActivate = s.trigActivate := rfl
@[simp] theorem respondOk_trigCcUpdate (p : Payload) (s : State) : (respondOk p s).trigCcUpdate = s.trigCcUpdate := rfl
@[simp] theorem respondOk_hwInReset (p : Payload) (s : State) : (respondOk p s).hwInReset = s.hwInReset := rfl
@[simp] theorem respondOk_datapathEnabled (p : Payload) (s : State) : (respondOk p s).datapathEnabled = s.datapathEnabled := rfl
@[simp] theorem respondOk_datapathActive (p : Payload) (s : State) : (respondOk p s).datapathActive = s.datapathActive := rfl
@[simp] theorem respondOk_ovf (p : Payload) (s : State) : (respondOk p s).ovf = s.ovf := rfl
@[simp] theorem respondOk_draws (p : Payload) (s : State) : (respondOk p s).draws = s.draws := rfl
@[simp] theorem respondOk_regDraw (p : Payload) (s : State) : (respondOk p s).regDraw = s.regDraw := rfl

/-! ### respondFail -/

@[simp] theorem respondFail_build (k : FailCause) (s : State) : (respondFail k s).build = s.build := rfl
@[simp] theorem respondFail_program (k : FailCause) (s : State) : (respondFail k s).program = s.program := rfl
@[simp] theorem respondFail_pos (k : FailCause) (s : State) : (respondFail k s).pos = s.pos + 1 := rfl
@[simp] theorem respondFail_sched (k : FailCause) (s : State) : (respondFail k s).sched = s.sched := rfl
@[simp] theorem respondFail_cmd (k : FailCause) (s : State) : (respondFail k s).cmd = s.cmd := rfl
@[simp] theorem respondFail_args (k : FailCause) (s : State) : (respondFail k s).args = s.args := rfl
@[simp] theorem respondFail_resp (k : FailCause) (s : State) : (respondFail k s).resp = (⟨false, k.code, .empty⟩ : Resp) := rfl
@[simp] theorem respondFail_lc (k : FailCause) (s : State) : (respondFail k s).lc = s.lc := rfl
@[simp] theorem respondFail_name (k : FailCause) (s : State) : (respondFail k s).name = s.name := rfl
@[simp] theorem respondFail_cfg (k : FailCause) (s : State) : (respondFail k s).cfg = s.cfg := rfl
@[simp] theorem respondFail_len (k : FailCause) (s : State) : (respondFail k s).len = s.len := rfl
@[simp] theorem respondFail_tuserSel (k : FailCause) (s : State) : (respondFail k s).tuserSel = s.tuserSel := rfl
@[simp] theorem respondFail_notUsed (k : FailCause) (s : State) : (respondFail k s).notUsed = s.notUsed := rfl
@[simp] theorem respondFail_bankSel (k : FailCause) (s : State) : (respondFail k s).bankSel = s.bankSel := rfl
@[simp] theorem respondFail_work (k : FailCause) (s : State) : (respondFail k s).work = s.work := rfl
@[simp] theorem respondFail_wv (k : FailCause) (s : State) : (respondFail k s).wv = s.wv := rfl
@[simp] theorem respondFail_fault (k : FailCause) (s : State) : (respondFail k s).fault = s.fault := rfl
@[simp] theorem respondFail_commitFatal (k : FailCause) (s : State) : (respondFail k s).commitFatal = s.commitFatal := rfl
@[simp] theorem respondFail_cur (k : FailCause) (s : State) : (respondFail k s).cur = s.cur := rfl
@[simp] theorem respondFail_nxt (k : FailCause) (s : State) : (respondFail k s).nxt = s.nxt := rfl
@[simp] theorem respondFail_trigActivate (k : FailCause) (s : State) : (respondFail k s).trigActivate = s.trigActivate := rfl
@[simp] theorem respondFail_trigCcUpdate (k : FailCause) (s : State) : (respondFail k s).trigCcUpdate = s.trigCcUpdate := rfl
@[simp] theorem respondFail_hwInReset (k : FailCause) (s : State) : (respondFail k s).hwInReset = s.hwInReset := rfl
@[simp] theorem respondFail_datapathEnabled (k : FailCause) (s : State) : (respondFail k s).datapathEnabled = s.datapathEnabled := rfl
@[simp] theorem respondFail_datapathActive (k : FailCause) (s : State) : (respondFail k s).datapathActive = s.datapathActive := rfl
@[simp] theorem respondFail_ovf (k : FailCause) (s : State) : (respondFail k s).ovf = s.ovf := rfl
@[simp] theorem respondFail_draws (k : FailCause) (s : State) : (respondFail k s).draws = s.draws := rfl
@[simp] theorem respondFail_regDraw (k : FailCause) (s : State) : (respondFail k s).regDraw = s.regDraw := rfl

/-! ### raise -/

@[simp] theorem raise_build (c : FaultCause) (s : State) : (raise c s).build = s.build := rfl
@[simp] theorem raise_program (c : FaultCause) (s : State) : (raise c s).program = s.program := rfl
@[simp] theorem raise_pos (c : FaultCause) (s : State) : (raise c s).pos = s.pos := rfl
@[simp] theorem raise_sched (c : FaultCause) (s : State) : (raise c s).sched = s.sched := rfl
@[simp] theorem raise_cmd (c : FaultCause) (s : State) : (raise c s).cmd = s.cmd := rfl
@[simp] theorem raise_args (c : FaultCause) (s : State) : (raise c s).args = s.args := rfl
@[simp] theorem raise_resp (c : FaultCause) (s : State) : (raise c s).resp = s.resp := rfl
@[simp] theorem raise_lc (c : FaultCause) (s : State) : (raise c s).lc = s.lc := rfl
@[simp] theorem raise_name (c : FaultCause) (s : State) : (raise c s).name = s.name := rfl
@[simp] theorem raise_cfg (c : FaultCause) (s : State) : (raise c s).cfg = s.cfg := rfl
@[simp] theorem raise_len (c : FaultCause) (s : State) : (raise c s).len = s.len := rfl
@[simp] theorem raise_tuserSel (c : FaultCause) (s : State) : (raise c s).tuserSel = s.tuserSel := rfl
@[simp] theorem raise_notUsed (c : FaultCause) (s : State) : (raise c s).notUsed = s.notUsed := rfl
@[simp] theorem raise_bankSel (c : FaultCause) (s : State) : (raise c s).bankSel = s.bankSel := rfl
@[simp] theorem raise_work (c : FaultCause) (s : State) : (raise c s).work = s.work := rfl
@[simp] theorem raise_wv (c : FaultCause) (s : State) : (raise c s).wv = s.wv := rfl
@[simp] theorem raise_fault (c : FaultCause) (s : State) : (raise c s).fault = s.fault.or (some c) := rfl
@[simp] theorem raise_commitFatal (c : FaultCause) (s : State) : (raise c s).commitFatal = s.commitFatal := rfl
@[simp] theorem raise_cur (c : FaultCause) (s : State) : (raise c s).cur = s.cur := rfl
@[simp] theorem raise_nxt (c : FaultCause) (s : State) : (raise c s).nxt = s.nxt := rfl
@[simp] theorem raise_trigActivate (c : FaultCause) (s : State) : (raise c s).trigActivate = s.trigActivate := rfl
@[simp] theorem raise_trigCcUpdate (c : FaultCause) (s : State) : (raise c s).trigCcUpdate = s.trigCcUpdate := rfl
@[simp] theorem raise_hwInReset (c : FaultCause) (s : State) : (raise c s).hwInReset = s.hwInReset := rfl
@[simp] theorem raise_datapathEnabled (c : FaultCause) (s : State) : (raise c s).datapathEnabled = s.datapathEnabled := rfl
@[simp] theorem raise_datapathActive (c : FaultCause) (s : State) : (raise c s).datapathActive = s.datapathActive := rfl
@[simp] theorem raise_ovf (c : FaultCause) (s : State) : (raise c s).ovf = s.ovf := rfl
@[simp] theorem raise_draws (c : FaultCause) (s : State) : (raise c s).draws = s.draws := rfl
@[simp] theorem raise_regDraw (c : FaultCause) (s : State) : (raise c s).regDraw = s.regDraw := rfl

/-! ### writeWork -/

@[simp] theorem writeWork_build (b : Bank) (w : Snapshot) (s : State) : (writeWork b w s).build = s.build := rfl
@[simp] theorem writeWork_program (b : Bank) (w : Snapshot) (s : State) : (writeWork b w s).program = s.program := rfl
@[simp] theorem writeWork_pos (b : Bank) (w : Snapshot) (s : State) : (writeWork b w s).pos = s.pos := rfl
@[simp] theorem writeWork_sched (b : Bank) (w : Snapshot) (s : State) : (writeWork b w s).sched = s.sched := rfl
@[simp] theorem writeWork_cmd (b : Bank) (w : Snapshot) (s : State) : (writeWork b w s).cmd = s.cmd := rfl
@[simp] theorem writeWork_args (b : Bank) (w : Snapshot) (s : State) : (writeWork b w s).args = s.args := rfl
@[simp] theorem writeWork_resp (b : Bank) (w : Snapshot) (s : State) : (writeWork b w s).resp = s.resp := rfl
@[simp] theorem writeWork_lc (b : Bank) (w : Snapshot) (s : State) : (writeWork b w s).lc = s.lc := rfl
@[simp] theorem writeWork_name (b : Bank) (w : Snapshot) (s : State) : (writeWork b w s).name = s.name := rfl
@[simp] theorem writeWork_cfg (b : Bank) (w : Snapshot) (s : State) : (writeWork b w s).cfg = s.cfg := rfl
@[simp] theorem writeWork_len (b : Bank) (w : Snapshot) (s : State) : (writeWork b w s).len = s.len := rfl
@[simp] theorem writeWork_tuserSel (b : Bank) (w : Snapshot) (s : State) : (writeWork b w s).tuserSel = s.tuserSel := rfl
@[simp] theorem writeWork_notUsed (b : Bank) (w : Snapshot) (s : State) : (writeWork b w s).notUsed = s.notUsed := rfl
@[simp] theorem writeWork_bankSel (b : Bank) (w : Snapshot) (s : State) : (writeWork b w s).bankSel = s.bankSel := rfl
@[simp] theorem writeWork_work (b : Bank) (w : Snapshot) (s : State) : (writeWork b w s).work = s.work.set b w := rfl
@[simp] theorem writeWork_wv (b : Bank) (w : Snapshot) (s : State) : (writeWork b w s).wv = s.wv := rfl
@[simp] theorem writeWork_fault (b : Bank) (w : Snapshot) (s : State) : (writeWork b w s).fault = s.fault := rfl
@[simp] theorem writeWork_commitFatal (b : Bank) (w : Snapshot) (s : State) : (writeWork b w s).commitFatal = s.commitFatal := rfl
@[simp] theorem writeWork_cur (b : Bank) (w : Snapshot) (s : State) : (writeWork b w s).cur = s.cur := rfl
@[simp] theorem writeWork_nxt (b : Bank) (w : Snapshot) (s : State) : (writeWork b w s).nxt = s.nxt := rfl
@[simp] theorem writeWork_trigActivate (b : Bank) (w : Snapshot) (s : State) : (writeWork b w s).trigActivate = s.trigActivate := rfl
@[simp] theorem writeWork_trigCcUpdate (b : Bank) (w : Snapshot) (s : State) : (writeWork b w s).trigCcUpdate = s.trigCcUpdate := rfl
@[simp] theorem writeWork_hwInReset (b : Bank) (w : Snapshot) (s : State) : (writeWork b w s).hwInReset = s.hwInReset := rfl
@[simp] theorem writeWork_datapathEnabled (b : Bank) (w : Snapshot) (s : State) : (writeWork b w s).datapathEnabled = s.datapathEnabled := rfl
@[simp] theorem writeWork_datapathActive (b : Bank) (w : Snapshot) (s : State) : (writeWork b w s).datapathActive = s.datapathActive := rfl
@[simp] theorem writeWork_ovf (b : Bank) (w : Snapshot) (s : State) : (writeWork b w s).ovf = s.ovf := rfl
@[simp] theorem writeWork_draws (b : Bank) (w : Snapshot) (s : State) : (writeWork b w s).draws = s.draws := rfl
@[simp] theorem writeWork_regDraw (b : Bank) (w : Snapshot) (s : State) : (writeWork b w s).regDraw = s.regDraw := rfl

/-! ### cachePlaceholder -/

@[simp] theorem cachePlaceholder_build (b : Bank) (s : State) : (cachePlaceholder b s).build = s.build := rfl
@[simp] theorem cachePlaceholder_program (b : Bank) (s : State) : (cachePlaceholder b s).program = s.program := rfl
@[simp] theorem cachePlaceholder_pos (b : Bank) (s : State) : (cachePlaceholder b s).pos = s.pos := rfl
@[simp] theorem cachePlaceholder_sched (b : Bank) (s : State) : (cachePlaceholder b s).sched = s.sched := rfl
@[simp] theorem cachePlaceholder_cmd (b : Bank) (s : State) : (cachePlaceholder b s).cmd = s.cmd := rfl
@[simp] theorem cachePlaceholder_args (b : Bank) (s : State) : (cachePlaceholder b s).args = s.args := rfl
@[simp] theorem cachePlaceholder_resp (b : Bank) (s : State) : (cachePlaceholder b s).resp = s.resp := rfl
@[simp] theorem cachePlaceholder_lc (b : Bank) (s : State) : (cachePlaceholder b s).lc = s.lc := rfl
@[simp] theorem cachePlaceholder_name (b : Bank) (s : State) : (cachePlaceholder b s).name = s.name := rfl
@[simp] theorem cachePlaceholder_cfg (b : Bank) (s : State) : (cachePlaceholder b s).cfg = s.cfg := rfl
@[simp] theorem cachePlaceholder_len (b : Bank) (s : State) : (cachePlaceholder b s).len = s.len := rfl
@[simp] theorem cachePlaceholder_tuserSel (b : Bank) (s : State) : (cachePlaceholder b s).tuserSel = s.tuserSel := rfl
@[simp] theorem cachePlaceholder_notUsed (b : Bank) (s : State) : (cachePlaceholder b s).notUsed = s.notUsed.set b (s.work.get b).notUsed := rfl
@[simp] theorem cachePlaceholder_bankSel (b : Bank) (s : State) : (cachePlaceholder b s).bankSel = s.bankSel := rfl
@[simp] theorem cachePlaceholder_work (b : Bank) (s : State) : (cachePlaceholder b s).work = s.work := rfl
@[simp] theorem cachePlaceholder_wv (b : Bank) (s : State) : (cachePlaceholder b s).wv = s.wv := rfl
@[simp] theorem cachePlaceholder_fault (b : Bank) (s : State) : (cachePlaceholder b s).fault = s.fault := rfl
@[simp] theorem cachePlaceholder_commitFatal (b : Bank) (s : State) : (cachePlaceholder b s).commitFatal = s.commitFatal := rfl
@[simp] theorem cachePlaceholder_cur (b : Bank) (s : State) : (cachePlaceholder b s).cur = s.cur := rfl
@[simp] theorem cachePlaceholder_nxt (b : Bank) (s : State) : (cachePlaceholder b s).nxt = s.nxt := rfl
@[simp] theorem cachePlaceholder_trigActivate (b : Bank) (s : State) : (cachePlaceholder b s).trigActivate = s.trigActivate := rfl
@[simp] theorem cachePlaceholder_trigCcUpdate (b : Bank) (s : State) : (cachePlaceholder b s).trigCcUpdate = s.trigCcUpdate := rfl
@[simp] theorem cachePlaceholder_hwInReset (b : Bank) (s : State) : (cachePlaceholder b s).hwInReset = s.hwInReset := rfl
@[simp] theorem cachePlaceholder_datapathEnabled (b : Bank) (s : State) : (cachePlaceholder b s).datapathEnabled = s.datapathEnabled := rfl
@[simp] theorem cachePlaceholder_datapathActive (b : Bank) (s : State) : (cachePlaceholder b s).datapathActive = s.datapathActive := rfl
@[simp] theorem cachePlaceholder_ovf (b : Bank) (s : State) : (cachePlaceholder b s).ovf = s.ovf := rfl
@[simp] theorem cachePlaceholder_draws (b : Bank) (s : State) : (cachePlaceholder b s).draws = s.draws := rfl
@[simp] theorem cachePlaceholder_regDraw (b : Bank) (s : State) : (cachePlaceholder b s).regDraw = s.regDraw := rfl

/-! ### trig -/

@[simp] theorem State.trig_activate (s : State) : s.trig .activate = s.trigActivate := rfl
@[simp] theorem State.trig_ccUpdate (s : State) : s.trig .ccUpdate = s.trigCcUpdate := rfl

/-! ### endBringup and mapNext -/

/-- HOST's reaction to a response moves its position and nothing else. -/
theorem endBringup_frame (c : Command) (s : State) : endBringup c s = { s with pos := (endBringup c s).pos } := by
  unfold endBringup; split <;> rfl

/-- After a failure the rest of a BRINGUP is passed over (R78). -/
theorem endBringup_failed {c : Command} {s : State} (hf : s.fault = none) (hr : s.resp.ok = false) :
    endBringup c s = { s with pos := s.pos + c.skipOnFail } := if_pos ⟨hf, hr⟩

theorem endBringup_fault {c : Command} {s : State} (h : s.fault ≠ none) : endBringup c s = s := if_neg fun k => h k.1

theorem endBringup_succeeded {c : Command} {s : State} (h : s.resp.ok = true) : endBringup c s = s :=
  if_neg fun k => by simp [h] at k

/-- A command of no BRINGUP is followed by the next one, whatever it answers (R252). -/
theorem endBringup_alone {c : Command} (h : c.skipOnFail = 0) (s : State) : endBringup c s = s := by
  unfold endBringup; rw [h]; split <;> rfl

@[simp] theorem mapNext_next (f : State → State) (s : State) : mapNext f (.next s) = .next (f s) := rfl
@[simp] theorem mapNext_fault (f : State → State) (r : Fault) : mapNext f (.fault r) = .fault r := rfl
@[simp] theorem mapNext_refused (f : State → State) (r : Refusal) : mapNext f (.refused r) = .refused r := rfl

/-- A next state comes from a next state. -/
theorem mapNext_eq_next {f : State → State} {o : Host.Outcome State Fault Refusal} {t : State} :
    mapNext f o = .next t ↔ ∃ u, o = .next u ∧ f u = t := by
  cases o <;> simp

/-! ### latchCommand -/

@[simp] theorem latchCommand_build (c : Command) (s : State) : (latchCommand c s).build = s.build := rfl
@[simp] theorem latchCommand_program (c : Command) (s : State) : (latchCommand c s).program = s.program := rfl
@[simp] theorem latchCommand_pos (c : Command) (s : State) : (latchCommand c s).pos = s.pos := rfl
@[simp] theorem latchCommand_sched (c : Command) (s : State) : (latchCommand c s).sched = s.sched := rfl
@[simp] theorem latchCommand_cmd (c : Command) (s : State) : (latchCommand c s).cmd = c.cmd := rfl
@[simp] theorem latchCommand_args (c : Command) (s : State) : (latchCommand c s).args = c.args := rfl
@[simp] theorem latchCommand_resp (c : Command) (s : State) : (latchCommand c s).resp = s.resp := rfl
@[simp] theorem latchCommand_lc (c : Command) (s : State) : (latchCommand c s).lc = s.lc := rfl
@[simp] theorem latchCommand_name (c : Command) (s : State) : (latchCommand c s).name = s.name := rfl
@[simp] theorem latchCommand_cfg (c : Command) (s : State) : (latchCommand c s).cfg = s.cfg := rfl
@[simp] theorem latchCommand_len (c : Command) (s : State) : (latchCommand c s).len = s.len := rfl
@[simp] theorem latchCommand_tuserSel (c : Command) (s : State) : (latchCommand c s).tuserSel = s.tuserSel := rfl
@[simp] theorem latchCommand_notUsed (c : Command) (s : State) : (latchCommand c s).notUsed = s.notUsed := rfl
@[simp] theorem latchCommand_bankSel (c : Command) (s : State) : (latchCommand c s).bankSel = s.bankSel := rfl
@[simp] theorem latchCommand_work (c : Command) (s : State) : (latchCommand c s).work = s.work := rfl
@[simp] theorem latchCommand_wv (c : Command) (s : State) : (latchCommand c s).wv = s.wv := rfl
@[simp] theorem latchCommand_fault (c : Command) (s : State) : (latchCommand c s).fault = s.fault := rfl
@[simp] theorem latchCommand_commitFatal (c : Command) (s : State) : (latchCommand c s).commitFatal = s.commitFatal := rfl
@[simp] theorem latchCommand_cur (c : Command) (s : State) : (latchCommand c s).cur = s.cur := rfl
@[simp] theorem latchCommand_nxt (c : Command) (s : State) : (latchCommand c s).nxt = s.nxt := rfl
@[simp] theorem latchCommand_trigActivate (c : Command) (s : State) : (latchCommand c s).trigActivate = s.trigActivate := rfl
@[simp] theorem latchCommand_trigCcUpdate (c : Command) (s : State) : (latchCommand c s).trigCcUpdate = s.trigCcUpdate := rfl
@[simp] theorem latchCommand_hwInReset (c : Command) (s : State) : (latchCommand c s).hwInReset = s.hwInReset := rfl
@[simp] theorem latchCommand_datapathEnabled (c : Command) (s : State) : (latchCommand c s).datapathEnabled = s.datapathEnabled := rfl
@[simp] theorem latchCommand_datapathActive (c : Command) (s : State) : (latchCommand c s).datapathActive = s.datapathActive := rfl
@[simp] theorem latchCommand_ovf (c : Command) (s : State) : (latchCommand c s).ovf = s.ovf := rfl
@[simp] theorem latchCommand_draws (c : Command) (s : State) : (latchCommand c s).draws = s.draws := rfl
@[simp] theorem latchCommand_regDraw (c : Command) (s : State) : (latchCommand c s).regDraw = s.regDraw := rfl

/-! ### drawRegistry -/

@[simp] theorem drawRegistry_build (s : State) : (drawRegistry s).build = s.build := rfl
@[simp] theorem drawRegistry_program (s : State) : (drawRegistry s).program = s.program := rfl
@[simp] theorem drawRegistry_pos (s : State) : (drawRegistry s).pos = s.pos := rfl
@[simp] theorem drawRegistry_sched (s : State) : (drawRegistry s).sched = s.sched := rfl
@[simp] theorem drawRegistry_cmd (s : State) : (drawRegistry s).cmd = s.cmd := rfl
@[simp] theorem drawRegistry_args (s : State) : (drawRegistry s).args = s.args := rfl
@[simp] theorem drawRegistry_resp (s : State) : (drawRegistry s).resp = s.resp := rfl
@[simp] theorem drawRegistry_lc (s : State) : (drawRegistry s).lc = s.lc := rfl
@[simp] theorem drawRegistry_name (s : State) : (drawRegistry s).name = s.name := rfl
@[simp] theorem drawRegistry_cfg (s : State) : (drawRegistry s).cfg = s.cfg := rfl
@[simp] theorem drawRegistry_len (s : State) : (drawRegistry s).len = s.len := rfl
@[simp] theorem drawRegistry_tuserSel (s : State) : (drawRegistry s).tuserSel = s.tuserSel := rfl
@[simp] theorem drawRegistry_notUsed (s : State) : (drawRegistry s).notUsed = s.notUsed := rfl
@[simp] theorem drawRegistry_bankSel (s : State) : (drawRegistry s).bankSel = s.bankSel := rfl
@[simp] theorem drawRegistry_work (s : State) : (drawRegistry s).work = s.work := rfl
@[simp] theorem drawRegistry_wv (s : State) : (drawRegistry s).wv = s.wv := rfl
@[simp] theorem drawRegistry_fault (s : State) : (drawRegistry s).fault = s.fault := rfl
@[simp] theorem drawRegistry_commitFatal (s : State) : (drawRegistry s).commitFatal = s.commitFatal := rfl
@[simp] theorem drawRegistry_cur (s : State) : (drawRegistry s).cur = s.cur := rfl
@[simp] theorem drawRegistry_nxt (s : State) : (drawRegistry s).nxt = s.nxt := rfl
@[simp] theorem drawRegistry_trigActivate (s : State) : (drawRegistry s).trigActivate = s.trigActivate := rfl
@[simp] theorem drawRegistry_trigCcUpdate (s : State) : (drawRegistry s).trigCcUpdate = s.trigCcUpdate := rfl
@[simp] theorem drawRegistry_hwInReset (s : State) : (drawRegistry s).hwInReset = s.hwInReset := rfl
@[simp] theorem drawRegistry_datapathEnabled (s : State) : (drawRegistry s).datapathEnabled = s.datapathEnabled := rfl
@[simp] theorem drawRegistry_datapathActive (s : State) : (drawRegistry s).datapathActive = s.datapathActive := rfl
@[simp] theorem drawRegistry_ovf (s : State) : (drawRegistry s).ovf = s.ovf := rfl
@[simp] theorem drawRegistry_draws (s : State) : (drawRegistry s).draws = s.draws + 1 := rfl
@[simp] theorem drawRegistry_regDraw (s : State) : (drawRegistry s).regDraw = Config.freeRegFull s.draws := rfl

end Sys2Proof.Machine
end

