-- ==== Sys2Proof/Laws/Agents.lean ====
section
/-! SUPPORT. What the steps of TRIG and DP, and the unit-by-unit accesses between which they fall, can do. -/

namespace Sys2Proof.Machine

open Sys2Proof

/-! ### The frame of the agents -/

theorem AgentsOnly.refl (s : State) : AgentsOnly s s := rfl

theorem AgentsOnly.trans {s t u : State} (h : AgentsOnly s t) (k : AgentsOnly t u) : AgentsOnly s u := by
  unfold AgentsOnly at *
  rw [h] at k
  exact k

theorem AgentsOnly.of_sched {s t : State} {q : List Turn} (h : AgentsOnly { s with sched := q } t) : AgentsOnly s t :=
  AgentsOnly.trans (t := { s with sched := q }) rfl h

theorem AgentsOnly.withNxt {s t : State} (h : AgentsOnly s t) (n : PerBank HwBank) :
    AgentsOnly { s with nxt := n } { t with nxt := n } := by
  unfold AgentsOnly at *
  rw [h]

theorem fireCcUpdate_agents (s : State) : AgentsOnly s (fireCcUpdate s) := by
  unfold fireCcUpdate; split <;> rfl

theorem fireActivate_agents (s : State) : AgentsOnly s (fireActivate s) := by
  unfold fireActivate; split <;> rfl

theorem dpOverflow_agents (m : OvfMask) (s : State) : AgentsOnly s (dpOverflow m s) := by
  unfold dpOverflow; split <;> rfl

theorem agentStep_agents (e : AgentEvent) (s : State) : AgentsOnly s (agentStep e s) := by
  cases e
  · exact fireCcUpdate_agents s
  · exact fireActivate_agents s
  · exact dpOverflow_agents _ s

theorem runAgents_agents (q : List Turn) (s : State) : AgentsOnly s (runAgents q s) := by
  induction q generalizing s with
  | nil => rfl
  | cons x rest ih =>
    cases x with
    | host => rfl
    | agent e => exact (agentStep_agents e s).trans (ih _)

theorem betweenAccesses_agents (s : State) : AgentsOnly s (betweenAccesses s) := runAgents_agents _ _

/-! The fields the agents leave alone. -/

variable {s t : State}

theorem AgentsOnly.build_eq (h : AgentsOnly s t) : t.build = s.build := by rw [h]
theorem AgentsOnly.lc_eq (h : AgentsOnly s t) : t.lc = s.lc := by rw [h]
theorem AgentsOnly.nxt_eq (h : AgentsOnly s t) : t.nxt = s.nxt := by rw [h]
theorem AgentsOnly.work_eq (h : AgentsOnly s t) : t.work = s.work := by rw [h]
theorem AgentsOnly.wv_eq (h : AgentsOnly s t) : t.wv = s.wv := by rw [h]
theorem AgentsOnly.notUsed_eq (h : AgentsOnly s t) : t.notUsed = s.notUsed := by rw [h]
theorem AgentsOnly.cfg_eq (h : AgentsOnly s t) : t.cfg = s.cfg := by rw [h]
theorem AgentsOnly.len_eq (h : AgentsOnly s t) : t.len = s.len := by rw [h]
theorem AgentsOnly.name_eq (h : AgentsOnly s t) : t.name = s.name := by rw [h]
theorem AgentsOnly.fault_eq (h : AgentsOnly s t) : t.fault = s.fault := by rw [h]
theorem AgentsOnly.pos_eq (h : AgentsOnly s t) : t.pos = s.pos := by rw [h]
theorem AgentsOnly.draws_eq (h : AgentsOnly s t) : t.draws = s.draws := by rw [h]
theorem AgentsOnly.bankSel_eq (h : AgentsOnly s t) : t.bankSel = s.bankSel := by rw [h]
theorem AgentsOnly.hwInReset_eq (h : AgentsOnly s t) : t.hwInReset = s.hwInReset := by rw [h]
theorem AgentsOnly.datapathEnabled_eq (h : AgentsOnly s t) : t.datapathEnabled = s.datapathEnabled := by rw [h]
theorem AgentsOnly.commitFatal_eq (h : AgentsOnly s t) : t.commitFatal = s.commitFatal := by rw [h]

/-! ### What the agents do to the registers they own -/

/-- The relation an agent's step keeps between the state before and after: a trigger is never armed by it, CUR is
changed only from NXT and only while the update trigger is armed, and the overflow bits never fall. -/
structure AgentEffect (s t : State) : Prop where
  frame : AgentsOnly s t
  /-- Each CUR bank is as before, or the NXT bank that a fire copied. -/
  cur : t.cur = s.cur ∨
    (s.trigCcUpdate.armed = true ∧ s.hwInReset = false ∧ t.trigCcUpdate.armed = false ∧
      t.cur = s.cur.onBanks s.build.switchable (fun b _ => s.nxt.get b))
  /-- No agent arms a trigger (R208). -/
  update : t.trigCcUpdate.armed = true → s.trigCcUpdate.armed = true
  activate : t.trigActivate.armed = true → s.trigActivate.armed = true
  /-- The datapath starts only by a fire of the armed activation trigger (R215). -/
  active : t.datapathActive = s.datapathActive ∨ (s.trigActivate.armed = true ∧ t.datapathActive = true)
  /-- Overflow bits are sticky (R44). -/
  sticky : s.ovf ||| t.ovf = t.ovf

theorem AgentEffect.refl (s : State) : AgentEffect s s :=
  ⟨.refl s, .inl rfl, id, id, .inl rfl, by simp⟩

theorem AgentEffect.trans {s t u : State} (h : AgentEffect s t) (k : AgentEffect t u) : AgentEffect s u := by
  refine ⟨h.frame.trans k.frame, ?_, fun x => h.update (k.update x), fun x => h.activate (k.activate x), ?_, ?_⟩
  · rcases k.cur with e | ⟨ha, hr, hd, hc⟩
    · rcases h.cur with f | ⟨ha', hr', hd', hc'⟩
      · exact .inl (e.trans f)
      · refine .inr ⟨ha', hr', ?_, e.trans hc'⟩
        cases hu : u.trigCcUpdate.armed
        · rfl
        · exact absurd (k.update hu) (by simp [hd'])
    · rcases h.cur with f | ⟨-, -, hd', -⟩
      · refine .inr ⟨h.update ha, by rw [← h.frame.hwInReset_eq]; exact hr, hd, ?_⟩
        rw [hc, f, h.frame.build_eq, h.frame.nxt_eq]
      · exact absurd ha (by simp [hd'])
  · rcases k.active with e | ⟨ha, hd⟩
    · rcases h.active with f | ⟨ha', hd'⟩
      · exact .inl (e.trans f)
      · exact .inr ⟨ha', e.trans hd'⟩
    · exact .inr ⟨h.activate ha, hd⟩
  · rw [← k.sticky, ← h.sticky, ← BitVec.or_assoc, ← BitVec.or_assoc, BitVec.or_self]

theorem agentStep_effect (e : AgentEvent) (s : State) : AgentEffect s (agentStep e s) := by
  cases e with
  | fireCcUpdate =>
    simp only [agentStep, fireCcUpdate]
    split
    · next h => exact ⟨rfl, .inr ⟨h.1, h.2, rfl, rfl⟩, by simp, id, .inl rfl, by simp⟩
    · exact .refl s
  | fireActivate =>
    simp only [agentStep, fireActivate]
    split
    · next h => exact ⟨rfl, .inl rfl, id, by simp, .inr ⟨h.1, rfl⟩, by simp⟩
    · exact .refl s
  | dpOverflow m =>
    simp only [agentStep, dpOverflow]
    split
    · exact ⟨rfl, .inl rfl, id, id, .inl rfl, by simp [← BitVec.or_assoc]⟩
    · exact .refl s

/-- Using up turns of the schedule is no effect on a register. -/
theorem AgentEffect.of_sched (s : State) (q : List Turn) : AgentEffect s { s with sched := q } :=
  ⟨rfl, .inl rfl, id, id, .inl rfl, by simp⟩

theorem runAgents_effect (q : List Turn) (s : State) : AgentEffect s (runAgents q s) := by
  induction q generalizing s with
  | nil => exact .of_sched s []
  | cons x rest ih =>
    cases x with
    | host => exact .of_sched s rest
    | agent e => exact (agentStep_effect e s).trans (ih _)

theorem betweenAccesses_effect (s : State) : AgentEffect s (betweenAccesses s) := runAgents_effect _ _

/-- While the update trigger is disarmed the agents leave CUR alone (R208). -/
theorem AgentEffect.cur_of_disarmed {s t : State} (h : AgentEffect s t) (d : s.trigCcUpdate.armed = false) :
    t.cur = s.cur ∧ t.trigCcUpdate.armed = false := by
  refine ⟨?_, ?_⟩
  · rcases h.cur with e | ⟨ha, -⟩
    · exact e
    · simp [d] at ha
  · cases hu : t.trigCcUpdate.armed
    · rfl
    · exact absurd (h.update hu) (by simp [d])

/-! ### The turns that unit accesses use up -/

theorem agentStep_sched (e : AgentEvent) (s : State) : (agentStep e s).sched = s.sched := by
  cases e <;> simp only [agentStep, fireCcUpdate, fireActivate, dpOverflow] <;> split <;> rfl

/-- The event does not happen: it is no FIRE_CC_UPDATE, or that is not enabled. -/
theorem noFireAmong.cons {x : Turn} {q : List Turn} {s : State} (h : noFireAmong (x :: q) s) :
    noFireAmong [x] s ∧ noFireAmong q s :=
  ⟨h.imp_right (Or.imp_right fun m k => m (by simp_all)), h.imp_right (Or.imp_right fun m k => m (by simp_all))⟩

@[simp] theorem turnsUsed_zero (q : List Turn) : turnsUsed q 0 = [] := by cases q <;> rfl
@[simp] theorem turnsLeft_zero (q : List Turn) : turnsLeft q 0 = q := by cases q <;> rfl
@[simp] theorem turnsUsed_nil (n : Nat) : turnsUsed [] n = [] := rfl
@[simp] theorem turnsLeft_nil (n : Nat) : turnsLeft [] n = [] := rfl

/-- The turns are used up from the front. -/
theorem turnsUsed_append_turnsLeft (q : List Turn) (n : Nat) : turnsUsed q n ++ turnsLeft q n = q := by
  induction q generalizing n with
  | nil => rfl
  | cons x q ih =>
    cases n with
    | zero => simp
    | succ n => cases x <;> simp [turnsUsed, turnsLeft, ih]

/-- The turns of m accesses and then of n. -/
theorem turnsUsed_add (q : List Turn) (m n : Nat) :
    turnsUsed q (m + n) = turnsUsed q m ++ turnsUsed (turnsLeft q m) n ∧
      turnsLeft q (m + n) = turnsLeft (turnsLeft q m) n := by
  induction q generalizing m with
  | nil => exact ⟨rfl, rfl⟩
  | cons x q ih =>
    cases m with
    | zero => simp
    | succ m =>
      rw [Nat.add_right_comm]
      cases x with
      | host => simp [turnsUsed, turnsLeft, ih]
      | agent e =>
        have := ih (m + 1)
        rw [Nat.add_right_comm] at this
        simp [turnsUsed, turnsLeft, this]

/-- An agent's turn among those of n accesses comes before HOST's n-th. -/
theorem count_before_lt {q before after : List Turn} {n : Nat} {e : AgentEvent}
    (h : turnsUsed q n = before ++ .agent e :: after) : before.count .host < n := by
  induction q generalizing n before with
  | nil => simp at h
  | cons x q ih =>
    cases n with
    | zero => simp at h
    | succ n =>
      cases before with
      | nil => simp
      | cons y before =>
        cases x with
        | host =>
          simp only [turnsUsed, List.cons_append, List.cons.injEq] at h
          obtain ⟨rfl, h⟩ := h
          simpa using ih h
        | agent f =>
          simp only [turnsUsed, List.cons_append, List.cons.injEq] at h
          obtain ⟨rfl, h⟩ := h
          simpa using ih h

/-- Where turns are left, HOST has had all its turns. -/
theorem count_turnsUsed {q : List Turn} {n : Nat} (h : turnsLeft q n ≠ []) : (turnsUsed q n).count .host = n := by
  induction q generalizing n with
  | nil => exact absurd rfl h
  | cons x q ih =>
    cases n with
    | zero => simp
    | succ n => cases x <;> simp_all [turnsUsed, turnsLeft]

/-! ### The events among some turns -/

@[simp] theorem agentMoves_nil (s : State) : agentMoves [] s = s := rfl
@[simp] theorem agentMoves_host (q : List Turn) (s : State) : agentMoves (.host :: q) s = agentMoves q s := rfl
@[simp] theorem agentMoves_agent (e : AgentEvent) (q : List Turn) (s : State) :
    agentMoves (.agent e :: q) s = agentMoves q (agentStep e s) := rfl
theorem agentMoves_append (p q : List Turn) (s : State) : agentMoves (p ++ q) s = agentMoves q (agentMoves p s) :=
  List.foldl_append

theorem agentMoves_effect (q : List Turn) (s : State) : AgentEffect s (agentMoves q s) := by
  induction q generalizing s with
  | nil => exact .refl s
  | cons x q ih =>
    cases x with
    | host => exact ih s
    | agent e => exact (agentStep_effect e s).trans (ih _)

/-- The events do not read the schedule. -/
theorem agentStep_withSched (e : AgentEvent) (s : State) (z : List Turn) :
    agentStep e { s with sched := z } = { agentStep e s with sched := z } := by
  cases e <;> simp only [agentStep, fireCcUpdate, fireActivate, dpOverflow] <;> split <;> rfl

theorem agentMoves_withSched (q : List Turn) (s : State) (z : List Turn) :
    agentMoves q { s with sched := z } = { agentMoves q s with sched := z } := by
  induction q generalizing s with
  | nil => rfl
  | cons x q ih =>
    cases x with
    | host => exact ih s
    | agent e => rw [agentMoves_agent, agentStep_withSched, ih]; rfl

/-- The events read the NEXT banks, and the schedule, only to write CUR. -/
theorem agentStep_withNxt (e : AgentEvent) (s : State) (n c : PerBank HwBank) :
    agentStep e { s with nxt := n, cur := c } =
      { agentStep e s with nxt := n, cur := (agentStep e { s with nxt := n, cur := c }).cur } := by
  cases e <;> simp only [agentStep, fireCcUpdate, fireActivate, dpOverflow] <;> split <;> rfl

theorem agentMoves_withNxt (q : List Turn) (s : State) (n c : PerBank HwBank) :
    agentMoves q { s with nxt := n, cur := c } =
      { agentMoves q s with nxt := n, cur := (agentMoves q { s with nxt := n, cur := c }).cur } := by
  induction q generalizing s c with
  | nil => rfl
  | cons x q ih =>
    cases x with
    | host => exact ih s c
    | agent e => rw [agentMoves_agent, agentStep_withNxt, ih]; rfl

/-- The events do not read the bank selection. -/
theorem agentMoves_withBankSel (q : List Turn) (s : State) (b : Bank) :
    agentMoves q { s with bankSel := b } = { agentMoves q s with bankSel := b } := by
  have step : ∀ (e : AgentEvent) (s : State),
      agentStep e { s with bankSel := b } = { agentStep e s with bankSel := b } := by
    intro e s
    cases e <;> simp only [agentStep, fireCcUpdate, fireActivate, dpOverflow] <;> split <;> rfl
  induction q generalizing s with
  | nil => rfl
  | cons x q ih =>
    cases x with
    | host => exact ih s
    | agent e => rw [agentMoves_agent, step, ih]; rfl

/-- The events read none of the registers that a read-back writes. -/
theorem agentMoves_withLoaded (q : List Turn) (s : State) (z : List Turn) (b : Bank) (w : PerBank Snapshot)
    (v : PerBank Bool) (n : Nat) :
    agentMoves q { s with sched := z, bankSel := b, work := w, wv := v, draws := n } =
      { agentMoves q s with sched := z, bankSel := b, work := w, wv := v, draws := n } := by
  have step : ∀ (e : AgentEvent) (s : State),
      agentStep e { s with sched := z, bankSel := b, work := w, wv := v, draws := n } =
        { agentStep e s with sched := z, bankSel := b, work := w, wv := v, draws := n } := by
    intro e s
    cases e <;> simp only [agentStep, fireCcUpdate, fireActivate, dpOverflow] <;> split <;> rfl
  induction q generalizing s with
  | nil => rfl
  | cons x q ih =>
    cases x with
    | host => exact ih s
    | agent e => rw [agentMoves_agent, step, ih]; rfl

/-- Between two accesses the events of the turns up to HOST's next happen, and those turns are used up (R55). -/
theorem betweenAccesses_eq (s : State) :
    betweenAccesses s = { agentMoves (turnsUsed s.sched 1) s with sched := turnsLeft s.sched 1 } := by
  have key : ∀ (q : List Turn) (s : State),
      runAgents q s = { agentMoves (turnsUsed q 1) s with sched := turnsLeft q 1 } := by
    intro q
    induction q with
    | nil => intro s; rfl
    | cons x q ih =>
      intro s
      cases x with
      | host => simp [runAgents, turnsUsed, turnsLeft]
      | agent e => simp [runAgents, ih, turnsUsed, turnsLeft]
  exact key s.sched s

/-- With no fire of the update trigger, the events leave CUR and that trigger alone. -/
theorem agentMoves_noFire {q : List Turn} {s : State} (h : noFireAmong q s) :
    (agentMoves q s).cur = s.cur ∧ (agentMoves q s).trigCcUpdate = s.trigCcUpdate := by
  induction q generalizing s with
  | nil => exact ⟨rfl, rfl⟩
  | cons x q ih =>
    obtain ⟨hx, hq⟩ := h.cons
    cases x with
    | host => exact ih hq
    | agent e =>
      have step : (agentStep e s).cur = s.cur ∧ (agentStep e s).trigCcUpdate = s.trigCcUpdate := by
        cases e with
        | fireCcUpdate =>
          have : ¬(s.trigCcUpdate.armed = true ∧ s.hwInReset = false) := fun k => by
            rcases hx with m | m | m <;> simp_all
          simp [agentStep, fireCcUpdate, this]
        | fireActivate => simp only [agentStep, fireActivate]; split <;> exact ⟨rfl, rfl⟩
        | dpOverflow m => simp only [agentStep, dpOverflow]; split <;> exact ⟨rfl, rfl⟩
      have hr : (agentStep e s).hwInReset = s.hwInReset := (agentStep_agents e s).hwInReset_eq
      have := ih (s := agentStep e s) (by unfold noFireAmong at hq ⊢; rw [step.2, hr]; exact hq)
      exact ⟨this.1.trans step.1, this.2.trans step.2⟩

/-- With a fire of the update trigger, CUR is NXT of the build's banks and the trigger is disarmed (R214). -/
theorem agentMoves_fires {q : List Turn} {k : Nat} {s : State} (h : firesAfter q k s) :
    (agentMoves q s).cur = s.cur.onBanks s.build.switchable (fun b _ => s.nxt.get b) ∧
      (agentMoves q s).trigCcUpdate = { s.trigCcUpdate with armed := false } := by
  obtain ⟨ha, hr, before, after, rfl, hb, -⟩ := h
  have h1 := agentMoves_noFire (s := s) (q := before) (.inr (.inr hb))
  have f1 := (agentMoves_effect before s).frame
  rw [agentMoves_append, agentMoves_agent]
  generalize agentMoves before s = t at h1 f1 ⊢
  have e : agentStep .fireCcUpdate t = { t with
      cur := s.cur.onBanks s.build.switchable (fun b _ => s.nxt.get b)
      trigCcUpdate := { s.trigCcUpdate with armed := false } } := by
    simp [agentStep, fireCcUpdate, h1.2, h1.1, ha, f1.hwInReset_eq, hr, f1.build_eq, f1.nxt_eq]
  have h2 := agentMoves_noFire (s := agentStep .fireCcUpdate t) (q := after) (.inl (by rw [e]))
  exact ⟨h2.1.trans (by rw [e]), h2.2.trans (by rw [e])⟩

/-! Turns in two parts. -/

theorem noFireAmong_append {p q : List Turn} {s : State} (h : noFireAmong (p ++ q) s) :
    noFireAmong p s ∧ noFireAmong q (agentMoves p s) := by
  have hp : noFireAmong p s := h.imp_right (Or.imp_right fun m k => m (List.mem_append_left _ k))
  refine ⟨hp, ?_⟩
  unfold noFireAmong at h ⊢
  rw [(agentMoves_noFire hp).2, (agentMoves_effect p s).frame.hwInReset_eq]
  exact h.imp_right (Or.imp_right fun m k => m (List.mem_append_right _ k))

/-- A fire among the turns of m accesses and some more falls among the first, and no other follows, or after them. -/
theorem firesAfter_append {r q : List Turn} {m k : Nat} {s : State}
    (h : firesAfter (turnsUsed r m ++ q) k s) (hq : q ≠ [] → turnsLeft r m ≠ []) :
    (k ≤ m ∧ firesAfter (turnsUsed r m) k s ∧ noFireAmong q (agentMoves (turnsUsed r m) s)) ∨
    (m < k ∧ noFireAmong (turnsUsed r m) s ∧ firesAfter q (k - m) (agentMoves (turnsUsed r m) s)) := by
  obtain ⟨ha, hr, before, after, e, hb, hk⟩ := h
  rcases List.append_eq_append_iff.mp e with ⟨mid, e1, e2⟩ | ⟨mid, e1, e2⟩
  · right
    have hn : noFireAmong (turnsUsed r m) s := .inr (.inr fun x => hb (by rw [e1]; exact List.mem_append_left _ x))
    have hc : (turnsUsed r m).count .host = m := count_turnsUsed (hq (by rw [e2]; simp))
    have hk' : k - m = mid.count .host + 1 := by rw [hk, e1, List.count_append, hc]; omega
    refine ⟨by omega, hn, ?_, ?_, mid, after, e2, fun x => hb (by rw [e1]; exact List.mem_append_right _ x), hk'⟩
    · rw [(agentMoves_noFire hn).2]; exact ha
    · rw [(agentMoves_effect _ s).frame.hwInReset_eq]; exact hr
  · cases mid with
    | nil =>
      simp only [List.append_nil, List.nil_append] at e1 e2
      right
      have hn : noFireAmong (turnsUsed r m) s := .inr (.inr fun x => hb (by rw [← e1]; exact x))
      have hc : (turnsUsed r m).count .host = m := count_turnsUsed (hq (by rw [← e2]; simp))
      refine ⟨by rw [hk, ← e1, hc]; omega, hn, ?_, ?_, [], after, e2.symm, by simp, by rw [hk, ← e1, hc]; simp⟩
      · rw [(agentMoves_noFire hn).2]; exact ha
      · rw [(agentMoves_effect _ s).frame.hwInReset_eq]; exact hr
    | cons x mid =>
      simp only [List.cons_append, List.cons.injEq] at e2
      obtain ⟨rfl, e2⟩ := e2
      left
      have hf : firesAfter (turnsUsed r m) k s := ⟨ha, hr, before, mid, e1, hb, hk⟩
      have := count_before_lt e1
      exact ⟨by omega, hf, .inl (by rw [(agentMoves_fires hf).2])⟩

end Sys2Proof.Machine
end

