-- ==== Sys2Proof/Laws/Ops.lean ====
section
/-! SUPPORT. The precondition checks: what a guarded command can do, said once (R257), and every command but LOOKUP
written as one guarded body over the tables of Safety.lean. -/

namespace Sys2Proof.Machine

open Sys2Proof

/-- Raising in a state with no recorded fault records the cause and nothing else (R256). -/
theorem raise_of_none {s : State} (c : FaultCause) (h : s.fault = none) : raise c s = { s with fault := some c } := by
  simp [raise, h]

section
variable {s : State} {permitted : Lifecycle → Bool} {bankMode isLoaded inRange : Bool}
variable {body : Host.Outcome State Fault Refusal}

/-- A command whose checks all pass runs its body. -/
theorem guarded_runs (h1 : s.lc ≠ .notReady) (h2 : permitted s.lc = true) (h3 : bankMode = true)
    (h4 : isLoaded = true) (h5 : inRange = true) :
    guarded s permitted bankMode isLoaded inRange body = body := by
  simp [guarded, precondition, h1, h2, h3, h4, h5]

theorem guarded_nullHandle (h1 : s.lc = .notReady) :
    guarded s permitted bankMode isLoaded inRange body = .next (raise .nullHandle s) := by
  simp [guarded, precondition, h1]

theorem guarded_wrongState (h1 : s.lc ≠ .notReady) (h2 : permitted s.lc = false) :
    guarded s permitted bankMode isLoaded inRange body = .next (raise .wrongState s) := by
  simp [guarded, precondition, h1, h2]

theorem guarded_bankMode (h1 : s.lc ≠ .notReady) (h2 : permitted s.lc = true) (h3 : bankMode = false) :
    guarded s permitted bankMode isLoaded inRange body = .next (raise .bankMode s) := by
  simp [guarded, precondition, h1, h2, h3]

theorem guarded_workUnloaded (h1 : s.lc ≠ .notReady) (h2 : permitted s.lc = true) (h3 : bankMode = true)
    (h4 : isLoaded = false) :
    guarded s permitted bankMode isLoaded inRange body = .next (raise .workUnloaded s) := by
  simp [guarded, precondition, h1, h2, h3, h4]

theorem guarded_indexOob (h1 : s.lc ≠ .notReady) (h2 : permitted s.lc = true) (h3 : bankMode = true)
    (h4 : isLoaded = true) (h5 : inRange = false) :
    guarded s permitted bankMode isLoaded inRange body = .next (raise .indexOob s) := by
  simp [guarded, precondition, h1, h2, h3, h4, h5]

/-- All a guarded command can do: raise one cause, or pass every check and run its body. -/
theorem guarded_cases (s : State) (permitted : Lifecycle → Bool) (bankMode isLoaded inRange : Bool)
    (body : Host.Outcome State Fault Refusal) :
    (∃ c, guarded s permitted bankMode isLoaded inRange body = .next (raise c s)) ∨
    (s.lc ≠ .notReady ∧ permitted s.lc = true ∧ bankMode = true ∧ isLoaded = true ∧ inRange = true ∧
      guarded s permitted bankMode isLoaded inRange body = body) := by
  by_cases h1 : s.lc = .notReady
  · exact .inl ⟨_, guarded_nullHandle h1⟩
  cases h2 : permitted s.lc
  · exact .inl ⟨_, guarded_wrongState h1 h2⟩
  cases bankMode
  · exact .inl ⟨_, guarded_bankMode h1 h2 rfl⟩
  cases isLoaded
  · exact .inl ⟨_, guarded_workUnloaded h1 h2 rfl rfl⟩
  cases inRange
  · exact .inl ⟨_, guarded_indexOob h1 h2 rfl rfl rfl⟩
  exact .inr ⟨h1, rfl, rfl, rfl, rfl, guarded_runs h1 h2 rfl rfl rfl⟩

end

/-! ### HOST's turn -/

/-- When HOST is next, the step is HOST's turn. -/
theorem step_host {s : State} {rest : List Turn} (h : hostIsNext s rest) : step s = hostTurn { s with sched := rest } := by
  rcases h with h | ⟨h, rfl⟩
  · simp only [step, h]
  · simp only [step, h]
    rw [← h]

/-- HOST issues the command at its position (R28). -/
theorem hostTurn_issues {s : State} {c : Command} (hf : s.fault = none) (hp : s.program[s.pos]? = some c) :
    hostTurn s = mapNext (endBringup c) (runCommand (latchCommand c s)) := by
  simp [hostTurn, hf, hp]

/-- A halted HOST issues nothing (R256). -/
theorem hostTurn_halted {s : State} (hf : s.fault ≠ none) : hostTurn s = .next s := by
  simp [hostTurn, Option.isSome_iff_ne_none, hf]

/-! ### The operand of SET_ALL_ANT_GAIN (R72, R176) -/

@[simp] theorem gainVector_length (c : HwCfg) (t : Nat) (gs : List AntGain) : (gainVector c t gs).length = c.numAntenna := by
  simp [gainVector]

/-- An entry the operand has is the one that is set. -/
theorem gainVector_get {c : HwCfg} {t k : Nat} {gs : List AntGain} {g : AntGain} (hk : k < c.numAntenna)
    (hg : gs[k]? = some g) : (gainVector c t gs)[k]? = some g := by
  simp [gainVector, hk, hg]

/-- An operand of NUM_ANTENNA entries is set as it is. -/
theorem gainVector_eq {c : HwCfg} (t : Nat) {gs : List AntGain} (h : gs.length = c.numAntenna) : gainVector c t gs = gs := by
  refine List.ext_getElem? fun k => ?_
  by_cases hk : k < c.numAntenna
  · exact (gainVector_get hk (List.getElem?_eq_getElem (h ▸ hk))).trans (List.getElem?_eq_getElem (h ▸ hk)).symm
  · rw [List.getElem?_eq_none (by simpa using hk), List.getElem?_eq_none (by omega)]

/-! ### The body of each command -/

/-- The index check of R257, step 6. -/
def indexOk (i : Instr) (s : State) : Bool :=
  match i with
  | .addAux _ | .removeAux _ => auxInRange s
  | .setAntGain => antInRange s
  | .initialise => seqLenInRange s
  | _ => true

/-- What a command does once its checks have passed; LOOKUP has no such checks. -/
def bodyOf (i : Instr) (s : State) : Host.Outcome State Fault Refusal :=
  match i with
  | .lookup => execLookup s
  | .reset => .next (respondOk .empty (resetState s))
  | .configure =>
    if s.build.hwcfg.wellFormed then
      .next (respondOk .empty { s with
        cfg := some s.build.hwcfg
        hwInReset := false
        wv := s.wv.onBanks s.build.switchable (fun _ _ => false)
        lc := .configured })
    else .refused .capabilityPremises
  | .initialise =>
    .next (if s.trigCcUpdate.armed then respondFail .triggerPending s
      else respondOk .empty (initialiseState (seqLenOperand s.args.seqLen) s))
  | .activate =>
    .next (respondOk .empty (if s.lc = .operational then s
      else { s with trigActivate := { s.trigActivate with armed := true }, lc := .operational }))
  | .deactivate =>
    .next (respondOk .empty (if s.lc = .initialised then s
      else { s with
        trigActivate := { s.trigActivate with armed := false }, datapathActive := false, lc := .initialised }))
  | .close => .next (respondOk .empty (closeState s))
  | .getState => .next (respondOk (.lifecycle s.lc.code) s)
  | .getTriggersCfg =>
    .next (respondOk (.triggers (triggerImage (s.trig .activate)) (triggerImage (s.trig .ccUpdate))) s)
  | .setTriggersCfg =>
    .next (respondOk .empty { s with
      trigActivate := configureTrigger s.args.trigActivate s.trigActivate
      trigCcUpdate := configureTrigger s.args.trigCcUpdate s.trigCcUpdate })
  | .getStatus => .next (respondOk (.status (statusImage s)) s)
  | .getCurrentCfg => .next (respondOk .empty (loadCurrent .dl s))
  | .getCurrentCfgSw => .next (respondOk .empty (loadBothBanks s))
  | .getEmptyCfg b =>
    withLen s fun l => .next (respondOk .empty { s with
      work := s.work.set b (Snapshot.blank s.build l), wv := s.wv.set b true })
  | .readWork b => .next (respondOk (.snapshot (s.work.get b)) s)
  | .addCc b c m => withCfg s fun cfg => .next (buildWork b (addCarrier (s.work.get b) cfg c m s.args) s)
  | .removeCc b c => .next (buildWork b (.ok (removeCarrier (s.work.get b) c)) s)
  | .updateCc b c => withCfg s fun cfg => .next (buildWork b (updateCarrier (s.work.get b) cfg c s.args) s)
  | .moveCc b c => withCfg s fun cfg => .next (buildWork b (moveCarrier (s.work.get b) cfg c s.args) s)
  | .addAux b =>
    .next (buildWork b (.ok (setAux (s.work.get b) s.args.auxIdx.toNat (auxEnabled s.args.auxDesc))) s)
  | .removeAux b => .next (buildWork b (.ok (setAux (s.work.get b) s.args.auxIdx.toNat AuxDesc.zero)) s)
  | .setAntGain =>
    withCfg s fun _ => .next (respondOk .empty { s with
      work := s.work.onBanks s.build.switchable
        (fun _ w => { w with antGain := w.antGain.set s.args.antIdx.toNat s.args.antGain }) })
  | .setAllAntGain =>
    withCfg s fun cfg =>
      .next (respondOk .empty { s with
        work := s.work.onBanks s.build.switchable
          (fun b w => { w with antGain := gainVector cfg (s.draws + bankIndex b) s.args.antGains })
        draws := if antGainsWellFormed cfg s.args.antGains then s.draws else s.draws + 2 })
  | .commit =>
    match writeBank .dl s with
    | none => .fault .placeholderNone
    | some s1 => .next (finishCommit (cachePlaceholder .dl) s1)
  | .commitSw =>
    match writeBothBanks s with
    | none => .fault .placeholderNone
    | some s1 => .next (finishCommit (fun t => cachePlaceholder .ul (cachePlaceholder .dl t)) s1)
  | .countOnes m => .next (respondOk (.count (BitVec.ofNat 5 (countOnes m s.args.length.toNat))) s)
  | .findUnusedId b => .next (respondOk (.unusedId (idCode (findUnusedId (s.work.get b).seq))) s)
  | .checkSlots b c m => .next (respondCheck (assignSlots (s.work.get b) c m) (fun _ => .empty) s)
  | .deriveRate m =>
    withLen s fun l => withCfg s fun cfg =>
      .next (respondCheck (Machine.deriveRate m l.val cfg.antInterleave cfg.mixerCps) .rate s)
  | .checkCapacity b md c m =>
    withCfg s fun cfg =>
      .next (respondCheck (Machine.checkCapacity (s.work.get b) cfg md c s.args.nco m) (fun _ => .empty) s)
  | .derivePhaseOffset => .next (respondOk (.phaseOffset (Machine.derivePhaseOffset s.args.phaseA s.args.phaseB)) s)

/-- Every command but LOOKUP is its body behind the checks of R257, with the matrix, the bank rules and the WORK banks
that Safety.lean tabulates. -/
theorem exec_eq_guarded (i : Instr) (s : State) (h : i ≠ .lookup) :
    exec i s = guarded s (permits i) (bankModeOk i s) (workOk i s) (indexOk i s) (bodyOf i s) := by
  have key : ∀ {p q : Lifecycle → Bool} {m m' l l' r r' : Bool} {body : Host.Outcome State Fault Refusal},
      (s.lc ≠ .notReady → p s.lc = q s.lc) → m = m' → (m' = true → l = l') → r = r' →
      guarded s p m l r body = guarded s q m' l' r' body := by
    rintro p q m m' l l' r r' body hp rfl hl rfl
    by_cases hn : s.lc = .notReady
    · rw [guarded_nullHandle hn, guarded_nullHandle hn]
    · cases m
      · simp [guarded, precondition, hn, hp hn]
      · simp [guarded, precondition, hn, hp hn, hl rfl]
  have bank : ∀ b, bankExists s b = (s.build.switchable || some b != some .ul) := by
    intro b; cases b <;> simp [bankExists]
  have wv : ∀ b, loaded s b = ((!(b == .dl) || s.wv.dl) && (!(b == .ul) || s.wv.ul)) := by
    intro b; cases b <;> simp [loaded]
  cases i
  case lookup => exact absurd rfl h
  all_goals
    refine key (fun hn => ?_) ?_ (fun hb => ?_) rfl
    · simp [permits, inAnyState, inReady, inReset, inConfiguredOrInitialised, inInitialisedOrOperational,
        inInitialised, inOperational, fromConfigured, hn]
    · simp [bankModeOk, Instr.bankOperand, bank]
    · first
      | (simp [workOk, readsWork, wv]; done)
      | (simp [workOk, readsWork, allLoaded, show (Bank.ul == Bank.dl) = false from rfl]; done)
      | (simp only [bankModeOk] at hb; simp [workOk, readsWork, loaded, hb])

end Sys2Proof.Machine
end

