-- ==== Sys2Proof/Laws/Units.lean ====
section
/-! SUPPORT. The unit-by-unit accesses: what a list of unit copies does to a bank, and what writeUnits and readUnits do
whatever TRIG and DP do between two accesses (R55, R164, R202). -/

namespace Sys2Proof.Machine

open Sys2Proof

/-- The units of a list copied in turn from one bank to another. -/
def copyUnits (us : List RegUnit) (src dst : HwBank) : HwBank := us.foldl (fun d u => copyUnit u src d) dst

@[simp] theorem copyUnits_nil (src dst : HwBank) : copyUnits [] src dst = dst := rfl
@[simp] theorem copyUnits_cons (u : RegUnit) (us : List RegUnit) (src dst : HwBank) :
    copyUnits (u :: us) src dst = copyUnits us src (copyUnit u src dst) := rfl

theorem copyEntry_length {α : Type} (a : Nat) (src dst : List α) : (copyEntry a src dst).length = dst.length := by
  unfold copyEntry; split <;> simp

/-- Between files of one length, copyEntry a replaces entry a and no other. -/
theorem copyEntry_get {α : Type} (a x : Nat) (src dst : List α) (h : src.length = dst.length) :
    (copyEntry a src dst)[x]? = if a = x then src[x]? else dst[x]? := by
  unfold copyEntry
  by_cases e : a = x
  · subst e
    by_cases hx : a < src.length
    · have hd : a < dst.length := h ▸ hx
      simp [hx, hd]
    · have hd : ¬ a < dst.length := h ▸ hx
      simp [hx, hd]
  · cases src[a]? <;> simp [e]

theorem copyUnit_lengths (u : RegUnit) (src dst : HwBank) :
    (copyUnit u src dst).aux.length = dst.aux.length ∧ (copyUnit u src dst).antGain.length = dst.antGain.length := by
  cases u <;> simp [copyUnit, copyEntry_length]

theorem copyUnits_lengths (us : List RegUnit) (src dst : HwBank) :
    (copyUnits us src dst).aux.length = dst.aux.length ∧
      (copyUnits us src dst).antGain.length = dst.antGain.length := by
  induction us generalizing dst with
  | nil => exact ⟨rfl, rfl⟩
  | cons u us ih =>
    have h := copyUnit_lengths u src dst
    exact ⟨(ih _).1.trans h.1, (ih _).2.trans h.2⟩

/-! One unit copied: the unit has the source's value and every other unit its own. -/

theorem copyUnit_seqLen (u : RegUnit) (src dst : HwBank) :
    (copyUnit u src dst).seqLen = if u = .seqLen then src.seqLen else dst.seqLen := by
  cases u <;> rfl

theorem copyUnit_slot (u : RegUnit) (src dst : HwBank) (i : Fin 16) :
    (copyUnit u src dst).slot[i] = if u = .slot i then src.slot[i] else dst.slot[i] := by
  cases u with
  | slot j => by_cases e : j = i <;> simp [copyUnit, e, Fin.val_inj]
  | _ => rfl

theorem copyUnit_cc (u : RegUnit) (src dst : HwBank) (i : Fin 16) :
    (copyUnit u src dst).cc[i] = if u = .cc i then src.cc[i] else dst.cc[i] := by
  cases u with
  | cc j => by_cases e : j = i <;> simp [copyUnit, e, Fin.val_inj]
  | _ => rfl

theorem copyUnit_nco (u : RegUnit) (src dst : HwBank) (i : Fin 16) :
    (copyUnit u src dst).nco[i] = if u = .nco i then src.nco[i] else dst.nco[i] := by
  cases u with
  | nco j => by_cases e : j = i <;> simp [copyUnit, e, Fin.val_inj]
  | _ => rfl

theorem copyUnit_aux (u : RegUnit) (src dst : HwBank) (a : Nat) (h : src.aux.length = dst.aux.length) :
    (copyUnit u src dst).aux[a]? = if u = .aux a then src.aux[a]? else dst.aux[a]? := by
  cases u with
  | aux x => simp [copyUnit, copyEntry_get x a _ _ h]
  | _ => rfl

theorem copyUnit_ant (u : RegUnit) (src dst : HwBank) (a : Nat) (h : src.antGain.length = dst.antGain.length) :
    (copyUnit u src dst).antGain[a]? = if u = .ant a then src.antGain[a]? else dst.antGain[a]? := by
  cases u with
  | ant x => simp [copyUnit, copyEntry_get x a _ _ h]
  | _ => rfl

/-! A list of units copied. -/

/-- Later copies of a unit from the same source do not matter. -/
theorem ite_mem_cons {α : Type} (u x : RegUnit) (us : List RegUnit) (v w : α) :
    (if x ∈ us then v else if u = x then v else w) = if x ∈ u :: us then v else w := by
  by_cases h : x ∈ us <;> by_cases e : u = x <;> simp [h, e, eq_comm]

theorem copyUnits_seqLen (us : List RegUnit) (src dst : HwBank) :
    (copyUnits us src dst).seqLen = if .seqLen ∈ us then src.seqLen else dst.seqLen := by
  induction us generalizing dst with
  | nil => rfl
  | cons u us ih => rw [copyUnits_cons, ih, copyUnit_seqLen, ite_mem_cons]

theorem copyUnits_slot (us : List RegUnit) (src dst : HwBank) (i : Fin 16) :
    (copyUnits us src dst).slot[i] = if .slot i ∈ us then src.slot[i] else dst.slot[i] := by
  induction us generalizing dst with
  | nil => rfl
  | cons u us ih => rw [copyUnits_cons, ih, copyUnit_slot, ite_mem_cons]

theorem copyUnits_cc (us : List RegUnit) (src dst : HwBank) (i : Fin 16) :
    (copyUnits us src dst).cc[i] = if .cc i ∈ us then src.cc[i] else dst.cc[i] := by
  induction us generalizing dst with
  | nil => rfl
  | cons u us ih => rw [copyUnits_cons, ih, copyUnit_cc, ite_mem_cons]

theorem copyUnits_nco (us : List RegUnit) (src dst : HwBank) (i : Fin 16) :
    (copyUnits us src dst).nco[i] = if .nco i ∈ us then src.nco[i] else dst.nco[i] := by
  induction us generalizing dst with
  | nil => rfl
  | cons u us ih => rw [copyUnits_cons, ih, copyUnit_nco, ite_mem_cons]

theorem copyUnits_aux (us : List RegUnit) (src dst : HwBank) (a : Nat) (h : src.aux.length = dst.aux.length) :
    (copyUnits us src dst).aux[a]? = if .aux a ∈ us then src.aux[a]? else dst.aux[a]? := by
  induction us generalizing dst with
  | nil => rfl
  | cons u us ih =>
    rw [copyUnits_cons, ih _ (h.trans (copyUnit_lengths u src dst).1.symm), copyUnit_aux _ _ _ _ h, ite_mem_cons]

theorem copyUnits_ant (us : List RegUnit) (src dst : HwBank) (a : Nat) (h : src.antGain.length = dst.antGain.length) :
    (copyUnits us src dst).antGain[a]? = if .ant a ∈ us then src.antGain[a]? else dst.antGain[a]? := by
  induction us generalizing dst with
  | nil => rfl
  | cons u us ih =>
    rw [copyUnits_cons, ih _ (h.trans (copyUnit_lengths u src dst).2.symm), copyUnit_ant _ _ _ _ h, ite_mem_cons]

/-- Copying every unit of the build makes the banks equal (R202, R209). -/
theorem copyUnits_units {bd : Build} {src dst : HwBank} (hs : src.fits bd) (hd : dst.fits bd) :
    copyUnits (units bd) src dst = src := by
  have haux : src.aux.length = dst.aux.length := hs.1.trans hd.1.symm
  have hant : src.antGain.length = dst.antGain.length := hs.2.trans hd.2.symm
  have e1 : (copyUnits (units bd) src dst).seqLen = src.seqLen := by rw [copyUnits_seqLen]; simp [units]
  have e2 : (copyUnits (units bd) src dst).slot = src.slot := by
    refine Vector.ext fun i hi => ?_
    have := copyUnits_slot (units bd) src dst ⟨i, hi⟩
    simpa [units] using this
  have e3 : (copyUnits (units bd) src dst).cc = src.cc := by
    refine Vector.ext fun i hi => ?_
    have := copyUnits_cc (units bd) src dst ⟨i, hi⟩
    simpa [units] using this
  have e4 : (copyUnits (units bd) src dst).nco = src.nco := by
    refine Vector.ext fun i hi => ?_
    have := copyUnits_nco (units bd) src dst ⟨i, hi⟩
    simpa [units] using this
  have e5 : (copyUnits (units bd) src dst).aux = src.aux := by
    refine List.ext_getElem? fun a => ?_
    rw [copyUnits_aux _ _ _ _ haux]
    split
    · rfl
    · next hn =>
      have : ¬ a < bd.auxNum := fun hl => hn (by simp [units, hl])
      rw [List.getElem?_eq_none (by rw [← hd.1] at this; omega), List.getElem?_eq_none (by rw [← hs.1] at this; omega)]
  have e6 : (copyUnits (units bd) src dst).antGain = src.antGain := by
    refine List.ext_getElem? fun a => ?_
    rw [copyUnits_ant _ _ _ _ hant]
    split
    · rfl
    · next hn =>
      have : ¬ a < bd.hwcfg.numAntenna := fun hl => hn (by simp [units, hl])
      rw [List.getElem?_eq_none (by rw [← hd.2] at this; omega), List.getElem?_eq_none (by rw [← hs.2] at this; omega)]
  rcases hc : copyUnits (units bd) src dst with ⟨a, b, c, d, e, f⟩
  simp only [hc] at e1 e2 e3 e4 e5 e6
  subst e1 e2 e3 e4 e5 e6
  rfl

/-! ### Some of a bank's units -/

/-- The number of a unit in the order of R164 and R202. -/
def RegUnit.index (bd : Build) : RegUnit → Nat
  | .seqLen => 0
  | .slot i => 1 + i.val
  | .cc c => 17 + c.val
  | .nco n => 33 + n.val
  | .aux a => 49 + a
  | .ant k => 49 + bd.auxNum + k

theorem units_length (bd : Build) : (units bd).length = unitCount bd := by
  simp [units, unitCount]; omega

/-- The units stand in their order: unit number i is the one with that index. -/
theorem index_of_units {bd : Build} {i : Nat} {u : RegUnit} (h : (units bd)[i]? = some u) : u.index bd = i := by
  simp only [units, List.getElem?_append, List.getElem?_cons, List.length_append, List.length_cons, List.length_map,
    List.length_finRange, List.length_range, List.getElem?_map] at h
  split at h
  · split at h
    · split at h
      · split at h
        · split at h
          · simp at h; subst h; simp [RegUnit.index]; omega
          · simp only [Option.map_eq_some_iff] at h
            obtain ⟨x, hx, rfl⟩ := h
            have := List.getElem?_eq_some_iff.mp hx
            obtain ⟨hl, rfl⟩ := this
            simp [RegUnit.index]; omega
        · simp only [Option.map_eq_some_iff] at h
          obtain ⟨x, hx, rfl⟩ := h
          obtain ⟨hl, rfl⟩ := List.getElem?_eq_some_iff.mp hx
          simp [RegUnit.index]; omega
      · simp only [Option.map_eq_some_iff] at h
        obtain ⟨x, hx, rfl⟩ := h
        obtain ⟨hl, rfl⟩ := List.getElem?_eq_some_iff.mp hx
        simp [RegUnit.index]; omega
    · simp only [Option.map_eq_some_iff] at h
      obtain ⟨x, hx, rfl⟩ := h
      obtain ⟨hl, rfl⟩ := List.getElem?_eq_some_iff.mp hx
      simp [RegUnit.index]; omega
  · simp only [Option.map_eq_some_iff] at h
    obtain ⟨x, hx, rfl⟩ := h
    obtain ⟨hl, rfl⟩ := List.getElem?_eq_some_iff.mp hx
    simp [RegUnit.index]; omega

/-- The first k units are those whose index is below k. -/
theorem mem_take_units {bd : Build} {u : RegUnit} (k : Nat) (h : u ∈ units bd) :
    u ∈ (units bd).take k ↔ u.index bd < k := by
  obtain ⟨i, hi⟩ := List.mem_iff_getElem?.mp h
  have hx := index_of_units hi
  refine ⟨fun m => ?_, fun m => List.mem_take_iff_getElem.mpr ?_⟩
  · obtain ⟨j, hj⟩ := List.mem_iff_getElem?.mp m
    rw [List.getElem?_take] at hj
    split at hj
    · next hl => rw [index_of_units hj]; exact hl
    · simp at hj
  · obtain ⟨hl, e⟩ := List.getElem?_eq_some_iff.mp hi
    exact ⟨i, by omega, e⟩

/-- The first k units of one bank copied into another make a mixture (R207). -/
theorem copyUnits_take_mixed {bd : Build} (k : Nat) {src dst : HwBank} (hs : src.fits bd) (hd : dst.fits bd) :
    HwBank.mixed bd k src dst (copyUnits ((units bd).take k) src dst) := by
  have haux : src.aux.length = dst.aux.length := hs.1.trans hd.1.symm
  have hant : src.antGain.length = dst.antGain.length := hs.2.trans hd.2.symm
  constructor
  · rw [copyUnits_seqLen]; simp only [mem_take_units k (show RegUnit.seqLen ∈ units bd by simp [units])]; rfl
  · intro i
    rw [copyUnits_slot]; simp only [mem_take_units k (show RegUnit.slot i ∈ units bd by simp [units])]; rfl
  · intro i
    rw [copyUnits_cc]; simp only [mem_take_units k (show RegUnit.cc i ∈ units bd by simp [units])]; rfl
  · intro i
    rw [copyUnits_nco]; simp only [mem_take_units k (show RegUnit.nco i ∈ units bd by simp [units])]; rfl
  · intro a
    rw [copyUnits_aux _ _ _ _ haux]
    by_cases h : a < bd.auxNum
    · simp only [mem_take_units k (show RegUnit.aux a ∈ units bd by simp [units, h])]; rfl
    · rw [List.getElem?_eq_none (by rw [hs.1]; omega), List.getElem?_eq_none (by rw [hd.1]; omega), ite_self, ite_self]
  · intro a
    rw [copyUnits_ant _ _ _ _ hant]
    by_cases h : a < bd.hwcfg.numAntenna
    · simp only [mem_take_units k (show RegUnit.ant a ∈ units bd by simp [units, h])]; rfl
    · rw [List.getElem?_eq_none (by rw [hs.2]; omega), List.getElem?_eq_none (by rw [hd.2]; omega), ite_self, ite_self]

/-- The two ends of a mixture: none of the first bank's units, and all of them. -/
theorem HwBank.mixed_zero (bd : Build) (first rest : HwBank) : HwBank.mixed bd 0 first rest rest := by
  constructor <;> simp

theorem HwBank.mixed_all {bd : Build} {k : Nat} {first rest : HwBank} (h : unitCount bd ≤ k) (hf : first.fits bd)
    (hr : rest.fits bd) : HwBank.mixed bd k first rest first := by
  have := copyUnits_take_mixed k hf hr
  rwa [List.take_of_length_le (by rw [units_length]; exact h), copyUnits_units hf hr] at this

/-- The first k units copied from one bank and the rest from another make a mixture of the two, whatever the bank they
are copied into held (R164). -/
theorem copyUnits_drop_mixed {bd : Build} (k : Nat) {first rest dst : HwBank} (hf : first.fits bd) (hr : rest.fits bd)
    (hd : dst.fits bd) :
    HwBank.mixed bd k first rest
      (copyUnits ((units bd).drop k) rest (copyUnits ((units bd).take k) first dst)) := by
  have hl := copyUnits_lengths ((units bd).take k) first dst
  have mem : ∀ u ∈ units bd, u ∈ (units bd).take k ∨ u ∈ (units bd).drop k := fun u hu => by
    rw [← List.take_append_drop k (units bd)] at hu; exact List.mem_append.mp hu
  have out : ∀ u, u ∈ (units bd).drop k → ¬ u.index bd < k := fun u hu => by
    obtain ⟨j, hj⟩ := List.mem_iff_getElem?.mp hu
    rw [List.getElem?_drop] at hj
    rw [index_of_units hj]; omega
  have key : ∀ {α : Type} (u : RegUnit) (x y z : α), u ∈ units bd →
      (if u ∈ (units bd).drop k then y else if u ∈ (units bd).take k then x else z) =
        if u.index bd < k then x else y := fun u x y z hu => by
    by_cases h : u ∈ (units bd).drop k
    · simp [h, out u h]
    · have ht := (mem u hu).resolve_right h
      simp [h, ht, (mem_take_units k hu).mp ht]
  constructor
  · rw [copyUnits_seqLen, copyUnits_seqLen, key _ _ _ _ (by simp [units])]; rfl
  · intro i; rw [copyUnits_slot, copyUnits_slot, key _ _ _ _ (by simp [units])]; rfl
  · intro i; rw [copyUnits_cc, copyUnits_cc, key _ _ _ _ (by simp [units])]; rfl
  · intro i; rw [copyUnits_nco, copyUnits_nco, key _ _ _ _ (by simp [units])]; rfl
  · intro a
    rw [copyUnits_aux _ _ _ _ (by rw [hl.1, hr.1, hd.1]), copyUnits_aux _ _ _ _ (by rw [hf.1, hd.1])]
    by_cases h : a < bd.auxNum
    · rw [key _ _ _ _ (by simp [units, h])]; rfl
    · rw [List.getElem?_eq_none (l := rest.aux) (by rw [hr.1]; omega),
        List.getElem?_eq_none (l := first.aux) (by rw [hf.1]; omega),
        List.getElem?_eq_none (l := dst.aux) (by rw [hd.1]; omega)]
      simp
  · intro a
    rw [copyUnits_ant _ _ _ _ (by rw [hl.2, hr.2, hd.2]), copyUnits_ant _ _ _ _ (by rw [hf.2, hd.2])]
    by_cases h : a < bd.hwcfg.numAntenna
    · rw [key _ _ _ _ (by simp [units, h])]; rfl
    · rw [List.getElem?_eq_none (l := rest.antGain) (by rw [hr.2]; omega),
        List.getElem?_eq_none (l := first.antGain) (by rw [hf.2]; omega),
        List.getElem?_eq_none (l := dst.antGain) (by rw [hd.2]; omega)]
      simp

/-! ### Writing a bank -/

/-- What writing units of NXT[b] does: NXT[b] receives the units, the other NXT bank and all of HOST's state stay, and
the registers the agents own change only as the agents may change them. -/
structure WriteEffect (b : Bank) (bank : HwBank) (s t : State) : Prop where
  nxt : t.nxt = s.nxt.set b bank
  frame : AgentsOnly { s with nxt := t.nxt } t
  update : t.trigCcUpdate.armed = true → s.trigCcUpdate.armed = true
  activate : t.trigActivate.armed = true → s.trigActivate.armed = true
  sticky : s.ovf ||| t.ovf = t.ovf
  /-- With the update trigger disarmed no fire falls among the writes, and CUR stays (R208). -/
  cur : s.trigCcUpdate.armed = false → t.cur = s.cur

theorem writeUnits_effect (b : Bank) (image : HwBank) (us : List RegUnit) (s : State) :
    WriteEffect b (copyUnits us image (s.nxt.get b)) s (writeUnits b image us s) := by
  induction us generalizing s with
  | nil => exact ⟨(PerBank.set_get _ _).symm, rfl, id, id, by simp [writeUnits], fun _ => rfl⟩
  | cons u us ih =>
    rw [writeUnits]
    generalize hs1 : ({ s with nxt := s.nxt.set b (copyUnit u image (s.nxt.get b)) } : State) = s1
    have h1 := betweenAccesses_effect s1
    generalize betweenAccesses s1 = s2 at h1 ⊢
    have h2 := ih s2
    have e2 : s2.nxt = s.nxt.set b (copyUnit u image (s.nxt.get b)) := by rw [h1.frame.nxt_eq, ← hs1]
    refine ⟨?_, ?_, fun x => ?_, fun x => ?_, ?_, fun d => ?_⟩
    · rw [h2.nxt, e2]; simp
    · have f1 := h1.frame
      rw [← hs1] at f1
      exact (f1.withNxt _).trans h2.frame
    · have := h1.update (h2.update x); rwa [← hs1] at this
    · have := h1.activate (h2.activate x); rwa [← hs1] at this
    · have h := h1.sticky
      rw [← h2.sticky, ← h, ← hs1, ← BitVec.or_assoc, ← BitVec.or_assoc, BitVec.or_self]
    · have hd : s1.trigCcUpdate.armed = false := by rw [← hs1]; exact d
      have := h1.cur_of_disarmed hd
      rw [h2.cur this.2, this.1, ← hs1]

/-- Everything writing units of NXT[b] does but to CUR: the units are written, and exactly the events among the turns it
uses up happen. -/
theorem writeUnits_eq (b : Bank) (image : HwBank) (us : List RegUnit) (s : State) :
    writeUnits b image us s = { agentMoves (turnsUsed s.sched us.length) s with
      sched := turnsLeft s.sched us.length
      nxt := s.nxt.set b (copyUnits us image (s.nxt.get b))
      cur := (writeUnits b image us s).cur } := by
  induction us generalizing s with
  | nil => simp [writeUnits, PerBank.set_get]
  | cons u us ih =>
    simp only [writeUnits]
    rw [ih]
    generalize hx : ({ s with nxt := s.nxt.set b (copyUnit u image (s.nxt.get b)) } : State) = s1
    have e := betweenAccesses_eq s1
    have hs : s1.sched = s.sched := by rw [← hx]
    have hn : s1.nxt = s.nxt.set b (copyUnit u image (s.nxt.get b)) := by rw [← hx]
    have f := (betweenAccesses_agents s1).nxt_eq
    rw [hs] at e
    have e2 : (betweenAccesses s1).sched = turnsLeft s.sched 1 := by rw [e]
    have m : agentMoves (turnsUsed (turnsLeft s.sched 1) us.length) (betweenAccesses s1) =
        { agentMoves (turnsUsed s.sched (us.length + 1)) s1 with sched := turnsLeft s.sched 1 } := by
      rw [e, agentMoves_withSched, Nat.add_comm us.length 1, (turnsUsed_add s.sched 1 us.length).1, agentMoves_append]
    have k := agentMoves_withNxt (turnsUsed s.sched (us.length + 1)) s s1.nxt s.cur
    rw [show { s with nxt := s1.nxt, cur := s.cur } = s1 by rw [← hx]] at k
    have l : turnsLeft (turnsLeft s.sched 1) us.length = turnsLeft s.sched (us.length + 1) := by
      rw [Nat.add_comm us.length 1, (turnsUsed_add s.sched 1 us.length).2]
    rw [e2, m, k, f, hn, l]
    simp only [PerBank.set_set, PerBank.get_set_same, copyUnits_cons, List.length_cons]

/-- With no fire among the writes CUR stays (R208). -/
theorem writeUnits_noFire {b : Bank} {image : HwBank} {us : List RegUnit} {s : State}
    (h : noFireAmong (turnsUsed s.sched us.length) s) : (writeUnits b image us s).cur = s.cur := by
  induction us generalizing s with
  | nil => rfl
  | cons u us ih =>
    rw [List.length_cons, Nat.add_comm, (turnsUsed_add s.sched 1 us.length).1] at h
    generalize hx : ({ s with nxt := s.nxt.set b (copyUnit u image (s.nxt.get b)) } : State) = s1
    have hs : s1.sched = s.sched := by rw [← hx]
    have h' : noFireAmong (turnsUsed s1.sched 1 ++ turnsUsed (turnsLeft s1.sched 1) us.length) s1 := by
      rw [← hx]; exact h
    obtain ⟨h1, h2⟩ := noFireAmong_append h'
    have e := betweenAccesses_eq s1
    rw [writeUnits, hx, ih (by rw [e]; exact h2), e]
    exact (agentMoves_noFire h1).1.trans (by rw [← hx])

/-- With a fire after k of the writes CUR is NXT as it was then, its first k units written (R207, R214). -/
theorem writeUnits_fires {b : Bank} {image : HwBank} {us : List RegUnit} {s : State} {k : Nat}
    (h : firesAfter (turnsUsed s.sched us.length) k s) :
    (writeUnits b image us s).cur = s.cur.onBanks s.build.switchable
      (fun x _ => (s.nxt.set b (copyUnits (us.take k) image (s.nxt.get b))).get x) := by
  induction us generalizing s k with
  | nil => obtain ⟨-, -, before, after, e, -⟩ := h; simp at e
  | cons u us ih =>
    rw [List.length_cons, Nat.add_comm, (turnsUsed_add s.sched 1 us.length).1] at h
    generalize hx : ({ s with nxt := s.nxt.set b (copyUnit u image (s.nxt.get b)) } : State) = s1
    have hn : s1.nxt = s.nxt.set b (copyUnit u image (s.nxt.get b)) := by rw [← hx]
    have hc : s1.cur = s.cur := by rw [← hx]
    have hb : s1.build = s.build := by rw [← hx]
    have h' : firesAfter (turnsUsed s1.sched 1 ++ turnsUsed (turnsLeft s1.sched 1) us.length) k s1 := by
      rw [← hx]; exact h
    have e := betweenAccesses_eq s1
    rw [writeUnits, hx]
    rcases firesAfter_append h' (fun hq hl => hq (by rw [hl]; rfl)) with ⟨hk, h1, h2⟩ | ⟨hk, h1, h2⟩
    · have hk1 : k = 1 := by obtain ⟨-, -, _, _, -, -, k1⟩ := h1; omega
      rw [writeUnits_noFire (by rw [e]; exact h2), e]
      refine (agentMoves_fires h1).1.trans ?_
      rw [hn, hc, hb, hk1]; rfl
    · rw [ih (by rw [e]; exact h2), e]
      have f := (agentMoves_effect (turnsUsed s1.sched 1) s1).frame
      have g := (agentMoves_noFire h1).1
      obtain ⟨j, rfl⟩ : ∃ j, k = j + 1 := ⟨k - 1, by omega⟩
      simp only [f.build_eq, f.nxt_eq, g, hn, hc, hb, PerBank.set_set, PerBank.get_set_same, Nat.add_sub_cancel,
        List.take_succ_cons, copyUnits_cons]

/-! ### Reading a bank -/

theorem readUnits_effect (b : Bank) (us : List RegUnit) (acc : HwBank) (s : State) :
    AgentEffect s (readUnits b us acc s).2 := by
  induction us generalizing acc s with
  | nil => exact .refl s
  | cons u us ih => exact (betweenAccesses_effect s).trans (ih _ _)

theorem readUnits_lengths (b : Bank) (us : List RegUnit) (acc : HwBank) (s : State) :
    (readUnits b us acc s).1.aux.length = acc.aux.length ∧
      (readUnits b us acc s).1.antGain.length = acc.antGain.length := by
  induction us generalizing acc s with
  | nil => exact ⟨rfl, rfl⟩
  | cons u us ih =>
    have h := copyUnit_lengths u (s.cur.get b) acc
    exact ⟨(ih _ _).1.trans h.1, (ih _ _).2.trans h.2⟩

/-- Reading units does exactly the events among the turns it uses up. -/
theorem readUnits_state (b : Bank) (us : List RegUnit) (acc : HwBank) (s : State) :
    (readUnits b us acc s).2 =
      { agentMoves (turnsUsed s.sched us.length) s with sched := turnsLeft s.sched us.length } := by
  induction us generalizing acc s with
  | nil => simp [readUnits]
  | cons u us ih =>
    rw [readUnits, ih, betweenAccesses_eq, List.length_cons, Nat.add_comm us.length 1, (turnsUsed_add s.sched 1 us.length).1,
      (turnsUsed_add s.sched 1 us.length).2, agentMoves_append, agentMoves_withSched]

/-- With no fire among the reads, what is read is CUR[b] as it was before them. -/
theorem readUnits_noFire {b : Bank} {us : List RegUnit} {acc : HwBank} {s : State}
    (h : noFireAmong (turnsUsed s.sched us.length) s) : (readUnits b us acc s).1 = copyUnits us (s.cur.get b) acc := by
  induction us generalizing acc s with
  | nil => rfl
  | cons u us ih =>
    rw [List.length_cons, Nat.add_comm, (turnsUsed_add s.sched 1 us.length).1] at h
    obtain ⟨h1, h2⟩ := noFireAmong_append h
    have e := betweenAccesses_eq s
    rw [readUnits, ih (by rw [e]; exact h2), e]
    simp only [(agentMoves_noFire h1).1, copyUnits_cons]

/-- With a fire after k of the reads, the first k units read are CUR[b]'s and the others those the fire brought (R164). -/
theorem readUnits_fires {b : Bank} {us : List RegUnit} {acc : HwBank} {s : State} {k : Nat}
    (h : firesAfter (turnsUsed s.sched us.length) k s) :
    (readUnits b us acc s).1 =
      copyUnits (us.drop k) ((s.cur.onBanks s.build.switchable (fun x _ => s.nxt.get x)).get b)
        (copyUnits (us.take k) (s.cur.get b) acc) := by
  induction us generalizing acc s k with
  | nil => simp [readUnits]
  | cons u us ih =>
    rw [List.length_cons, Nat.add_comm, (turnsUsed_add s.sched 1 us.length).1] at h
    have e := betweenAccesses_eq s
    rw [readUnits]
    rcases firesAfter_append h (fun hq hl => hq (by rw [hl]; rfl)) with ⟨hk, h1, h2⟩ | ⟨hk, h1, h2⟩
    · have hk1 : k = 1 := by obtain ⟨-, -, _, _, -, -, k1⟩ := h1; omega
      rw [readUnits_noFire (by rw [e]; exact h2), e, hk1]
      simp only [(agentMoves_fires h1).1]; rfl
    · rw [ih (by rw [e]; exact h2), e]
      have f := (agentMoves_effect (turnsUsed s.sched 1) s).frame
      have g := (agentMoves_noFire h1).1
      obtain ⟨j, rfl⟩ : ∃ j, k = j + 1 := ⟨k - 1, by omega⟩
      simp only [f.build_eq, f.nxt_eq, g, Nat.add_sub_cancel, List.take_succ_cons, List.drop_succ_cons, copyUnits_cons]

end Sys2Proof.Machine
end

