-- ==== Sys2Proof/Laws/Commit.lean ====
section
/-! SUPPORT. What the parts of a commit can do: the placeholder is there whenever a slot needs it (R202), what bankImage
and writeBank give, and what arming does (R203). -/

namespace Sys2Proof.Machine

open Sys2Proof

/-! ### The placeholder -/

theorem mem_allIds (c : CcId) : c ∈ allIds := by
  refine List.mem_map.mpr ⟨c.toNat, List.mem_range.mpr c.isLt, ?_⟩
  simp

theorem contains_seq (seq : Vector (Option CcId) 16) (c : CcId) :
    seq.toList.contains (some c) = true ↔ ∃ i : Fin 16, seq[i] = some c := by
  rw [List.contains_iff_mem, Vector.mem_toList_iff, Vector.mem_iff_getElem]
  exact ⟨fun ⟨i, hi, h⟩ => ⟨⟨i, hi⟩, h⟩, fun ⟨i, h⟩ => ⟨i.val, i.isLt, h⟩⟩

/-- The placeholder is the ID of no carrier that holds a slot (R118). -/
theorem findUnusedId_absent {seq : Vector (Option CcId) 16} {c : CcId} (h : findUnusedId seq = some c) (i : Fin 16) :
    seq[i] ≠ some c := by
  have hc := List.find?_some h
  intro hi
  have := (contains_seq seq c).mpr ⟨i, hi⟩
  rw [this] at hc
  simp at hc

/-- Without a placeholder every slot is in use (R202). -/
theorem isSome_of_findUnusedId_none {seq : Vector (Option CcId) 16} (h : findUnusedId seq = none) (i : Fin 16) :
    seq[i].isSome = true := by
  have all : ∀ n : Fin 16, ∃ j : Fin 16, seq[j] = some (BitVec.ofFin n) := fun n => by
    have := List.find?_eq_none.mp h _ (mem_allIds (BitVec.ofFin n))
    simp only [Bool.not_eq_true', Bool.not_eq_false] at this
    exact (contains_seq seq _).mp this
  choose g hg using all
  have inj : Function.Injective g := fun a b e => by
    have := (hg a).symm.trans (e ▸ hg b)
    simpa using this
  obtain ⟨n, rfl⟩ := Finite.injective_iff_surjective.mp inj i
  simp [hg]

/-! ### The image of a snapshot -/

/-- The bank that a sound snapshot is written as (R202). -/
def imageOf (w : Snapshot) : HwBank where
  seqLen := w.seqLen
  slot := Vector.ofFn fun i => (slotValue w i).getD 0
  cc := w.cc
  nco := w.nco
  aux := w.aux
  antGain := w.antGain

/-- Every slot of a sound snapshot has a value to write. -/
theorem Snapshot.sound.slotValue_isSome {w : Snapshot} (h : w.sound) (i : Fin 16) : (slotValue w i).isSome = true := by
  unfold slotValue
  cases hn : w.notUsed with
  | some c => split <;> cases w.seq[i] <;> simp
  | none =>
    have hu := h.1.symm.trans hn
    have hs := isSome_of_findUnusedId_none hu i
    split
    · simpa using hs
    · next hl => simp [h.2 i (by omega)] at hs

theorem Snapshot.sound.bankImage {w : Snapshot} (h : w.sound) : Machine.bankImage w = some (imageOf w) := by
  unfold Machine.bankImage
  rw [if_pos (by simpa [List.all_eq_true] using fun i => h.slotValue_isSome i)]
  rfl

@[simp] theorem imageOf_fits (bd : Build) (w : Snapshot) : (imageOf w).fits bd ↔ w.fits bd := Iff.rfl

/-- The slot of the image is the slot's value. -/
theorem Snapshot.sound.imageOf_slot {w : Snapshot} (h : w.sound) (i : Fin 16) :
    some (imageOf w).slot[i] = slotValue w i := by
  have := h.slotValue_isSome i
  cases hv : slotValue w i <;> simp_all [imageOf]

/-! ### Writing a bank and arming -/

/-- writeBank of a sound snapshot writes every unit of its image. -/
theorem writeBank_sound {b : Bank} {s : State} (h : (s.work.get b).sound) :
    writeBank b s = some (writeUnits b (imageOf (s.work.get b)) (units s.build) s) := by
  simp [writeBank, h.bankImage]

/-- Everything writeBank does: NXT[b] is the image, exactly the events among the turns it uses up happen, and CUR is as
it was or, with a fire after k of the writes, NXT as it was then (R202, R207, R208). -/
theorem writeBank_eq {b : Bank} {s : State} (hs : (s.work.get b).sound) (hw : (s.work.get b).fits s.build)
    (hn : (s.nxt.get b).fits s.build) :
    ∃ c, writeBank b s = some { agentMoves (turnsUsed s.sched (unitCount s.build)) s with
        sched := turnsLeft s.sched (unitCount s.build)
        nxt := s.nxt.set b (imageOf (s.work.get b))
        cur := c } ∧
      (noFireAmong (turnsUsed s.sched (unitCount s.build)) s → c = s.cur) ∧
      ∀ k, firesAfter (turnsUsed s.sched (unitCount s.build)) k s →
        ∃ torn, HwBank.mixed s.build k (imageOf (s.work.get b)) (s.nxt.get b) torn ∧
          c = s.cur.onBanks s.build.switchable (fun x _ => (s.nxt.set b torn).get x) := by
  refine ⟨(writeUnits b (imageOf (s.work.get b)) (units s.build) s).cur, ?_, fun h => ?_, fun k h => ?_⟩
  · rw [writeBank_sound hs]
    conv_lhs => rw [writeUnits_eq]
    rw [copyUnits_units (by simpa using hw) hn, units_length]
  · exact writeUnits_noFire (by rw [units_length]; exact h)
  · exact ⟨_, copyUnits_take_mixed k (by simpa using hw) hn, writeUnits_fires (by rw [units_length]; exact h)⟩

/-- Everything writing both banks does, in a switchable build (R205, R207). -/
theorem writeBothBanks_eq {s : State} (hb : s.build.switchable = true)
    (h : ∀ b, (s.work.get b).sound ∧ (s.work.get b).fits s.build ∧ (s.nxt.get b).fits s.build) :
    ∃ c, writeBothBanks s = some { agentMoves (turnsUsed s.sched (2 * unitCount s.build)) s with
        sched := turnsLeft s.sched (2 * unitCount s.build)
        nxt := ⟨imageOf s.work.dl, imageOf s.work.ul⟩
        cur := c } ∧
      (noFireAmong (turnsUsed s.sched (2 * unitCount s.build)) s → c = s.cur) ∧
      ∀ k, firesAfter (turnsUsed s.sched (2 * unitCount s.build)) k s →
        ∃ d u, HwBank.mixed s.build k (imageOf s.work.dl) s.nxt.dl d ∧
          HwBank.mixed s.build (k - unitCount s.build) (imageOf s.work.ul) s.nxt.ul u ∧ c = ⟨d, u⟩ := by
  obtain ⟨c, e, quiet, torn⟩ := writeBank_eq (b := .dl) (s := { s with bankSel := .dl }) (h .dl).1 (h .dl).2.1 (h .dl).2.2
  simp only [agentMoves_withBankSel] at e
  have f := (agentMoves_effect (turnsUsed s.sched (unitCount s.build)) s).frame
  generalize hs1 : ({ agentMoves (turnsUsed s.sched (unitCount s.build)) s with
    sched := turnsLeft s.sched (unitCount s.build)
    nxt := s.nxt.set .dl (imageOf s.work.dl)
    cur := c
    bankSel := .ul } : State) = s1
  have b1 : s1.build = s.build := by rw [← hs1]; exact f.build_eq
  have w1 : s1.work = s.work := by rw [← hs1]; exact f.work_eq
  have n1 : s1.nxt = ⟨imageOf s.work.dl, s.nxt.ul⟩ := by rw [← hs1]; rfl
  have c1 : s1.cur = c := by rw [← hs1]
  have q1 : s1.sched = turnsLeft s.sched (unitCount s.build) := by rw [← hs1]
  obtain ⟨c', e', quiet', torn'⟩ := writeBank_eq (b := .ul) (s := s1) (by rw [w1]; exact (h .ul).1)
    (by rw [w1, b1]; exact (h .ul).2.1) (by rw [n1, b1]; exact (h .ul).2.2)
  have two := turnsUsed_add s.sched (unitCount s.build) (unitCount s.build)
  rw [← Nat.two_mul] at two
  have noFire1 : ∀ q, noFireAmong q (agentMoves (turnsUsed s.sched (unitCount s.build)) s) → noFireAmong q s1 :=
    fun q hq => by rw [← hs1]; exact hq
  have fires1 : ∀ q k, firesAfter q k (agentMoves (turnsUsed s.sched (unitCount s.build)) s) → firesAfter q k s1 :=
    fun q k hq => by rw [← hs1]; exact hq
  refine ⟨c', ?_, fun hq => ?_, fun k hk => ?_⟩
  · have m : ∀ q, agentMoves q s1 = { agentMoves (turnsUsed s.sched (unitCount s.build) ++ q) s with
        sched := s1.sched, nxt := s1.nxt, cur := (agentMoves q s1).cur, bankSel := .ul } := by
      intro q
      have k := agentMoves_withNxt q (agentMoves (turnsUsed s.sched (unitCount s.build)) s) s1.nxt s1.cur
      have e1 : s1 = { { { agentMoves (turnsUsed s.sched (unitCount s.build)) s with nxt := s1.nxt, cur := s1.cur } with
          sched := s1.sched } with bankSel := .ul } := by rw [← hs1]
      generalize s1.nxt = n, s1.cur = c, s1.sched = z at k e1 ⊢
      rw [e1, agentMoves_withBankSel, agentMoves_withSched, k, agentMoves_append]
    simp only [writeBothBanks, e, Option.bind_some]
    simp only [PerBank.get_dl] at hs1 ⊢
    rw [hs1, e', m, two.1, two.2, b1, q1, n1, w1]
    have f2 := (agentMoves_effect (turnsUsed s.sched (unitCount s.build) ++
      turnsUsed (turnsLeft s.sched (unitCount s.build)) (unitCount s.build)) s).frame
    simp [← f2.bankSel_eq]
  · rw [two.1] at hq
    obtain ⟨h1, h2⟩ := noFireAmong_append hq
    rw [quiet' (by rw [b1, q1]; exact noFire1 _ h2), c1]
    exact quiet h1
  · rw [two.1] at hk
    rcases firesAfter_append hk (fun hq hl => hq (by rw [hl]; rfl)) with ⟨hle, h1, h2⟩ | ⟨hlt, h1, h2⟩
    · obtain ⟨d, md, hc⟩ := torn k h1
      refine ⟨d, s.nxt.ul, md, ?_, ?_⟩
      · rw [Nat.sub_eq_zero_of_le hle]; exact HwBank.mixed_zero _ _ _
      · rw [quiet' (by rw [b1, q1]; exact noFire1 _ h2), c1, hc]
        simp [PerBank.onBanks, hb]
    · obtain ⟨u, mu, hc⟩ := torn' (k - unitCount s.build) (by rw [b1, q1]; exact fires1 _ _ h2)
      rw [b1, w1, n1] at mu
      refine ⟨imageOf s.work.dl, u, HwBank.mixed_all (by omega) (by simpa using (h .dl).2.1) (h .dl).2.2, mu, ?_⟩
      rw [hc, b1, n1]
      simp [PerBank.onBanks, hb]

/-- All a commit can end in: armed, with the caches updated, or the hardware commit failure (R203, R204). -/
theorem finishCommit_cases (cache : State → State) (s : State) :
    (s.trigCcUpdate.armed = false ∧
      finishCommit cache s =
        respondOk .empty (cache { s with trigCcUpdate := { s.trigCcUpdate with armed := true } })) ∨
    (s.trigCcUpdate.armed = true ∧
      finishCommit cache s = respondFail .triggerPending { s with commitFatal := true }) := by
  cases h : s.trigCcUpdate.armed <;> simp [finishCommit, testAndArm, h]

end Sys2Proof.Machine
end

