-- ==== Sys2Proof/Laws/Decode.lean ====
section
/-! SUPPORT. The fields of an encoded word: each field of cmdWord is read back as it was written (R67). -/

namespace Sys2Proof

variable (o : BitVec 8) (b m : BitVec 1) (c : CcId) (p : SlotMap)

@[simp] theorem fieldOpc_cmdWord : fieldOpc (cmdWord o b m c p) = o := by
  refine BitVec.eq_of_getLsbD_eq fun i (hi : i < 8) => ?_
  interval_cases i <;> simp [fieldOpc, cmdWord]

@[simp] theorem fieldBank_cmdWord : fieldBank (cmdWord o b m c p) = b := by
  refine BitVec.eq_of_getLsbD_eq fun i (hi : i < 1) => ?_
  obtain rfl : i = 0 := by omega
  simp [fieldBank, cmdWord]

@[simp] theorem fieldMode_cmdWord : fieldMode (cmdWord o b m c p) = m := by
  refine BitVec.eq_of_getLsbD_eq fun i (hi : i < 1) => ?_
  obtain rfl : i = 0 := by omega
  simp [fieldMode, cmdWord]

@[simp] theorem fieldRsv_cmdWord : fieldRsv (cmdWord o b m c p) = 0 := by
  refine BitVec.eq_of_getLsbD_eq fun i (hi : i < 2) => ?_
  interval_cases i <;> simp [fieldRsv, cmdWord]

@[simp] theorem fieldCcid_cmdWord : fieldCcid (cmdWord o b m c p) = c := by
  refine BitVec.eq_of_getLsbD_eq fun i (hi : i < 4) => ?_
  interval_cases i <;> simp [fieldCcid, cmdWord]

@[simp] theorem fieldMap_cmdWord : fieldMap (cmdWord o b m c p) = p := by
  refine BitVec.eq_of_getLsbD_eq fun i (hi : i < 16) => ?_
  interval_cases i <;> simp [fieldMap, cmdWord]

@[simp] theorem Bank.ofBit_bit (b : Bank) : Bank.ofBit b.bit = b := by cases b <;> rfl

@[simp] theorem CapMode.ofBit_bit (m : CapMode) : CapMode.ofBit m.bit = m := by cases m <;> rfl

/-- What the decoder answers, in one line: the row of the opcode, with RSV and every unused field zero. -/
theorem decode_eq_ok {w : Word} {i : Instr} (h : decode w = .ok i) :
    ∃ r, findRow (fieldOpc w) = some r ∧ fieldRsv w = 0 ∧ r.unusedZero w = true ∧
      i = r.make (Bank.ofBit (fieldBank w)) (CapMode.ofBit (fieldMode w)) (fieldCcid w) (fieldMap w) := by
  unfold decode at h
  split at h
  · cases h
  · next r hr =>
    split at h
    · cases h
    · next hv =>
      split at h
      · next hu => exact ⟨r, hr, not_not.mp hv, hu, (Except.ok.inj h).symm⟩
      · cases h

end Sys2Proof
end

