-- ==== Sys2Proof/Laws/PerInstr.lean ====
section
/-! SUPPORT. The family EncodedForm: the word of every command has its RSV field 0 and an assigned opcode (R74, R75). -/

namespace Sys2Proof.Laws.EncodedForm

open Sys2Proof

/-- The word of a command passes the decoder's first two steps. -/
def Statement (i : Instr) : Prop := (findRow (fieldOpc (encode i))).isSome = true ∧ fieldRsv (encode i) = 0

theorem lookup : Statement .lookup := by simp [Statement, encode]; decide
theorem reset : Statement .reset := by simp [Statement, encode]; decide
theorem configure : Statement .configure := by simp [Statement, encode]; decide
theorem initialise : Statement .initialise := by simp [Statement, encode]; decide
theorem activate : Statement .activate := by simp [Statement, encode]; decide
theorem deactivate : Statement .deactivate := by simp [Statement, encode]; decide
theorem close : Statement .close := by simp [Statement, encode]; decide
theorem getState : Statement .getState := by simp [Statement, encode]; decide
theorem getTriggersCfg : Statement .getTriggersCfg := by simp [Statement, encode]; decide
theorem setTriggersCfg : Statement .setTriggersCfg := by simp [Statement, encode]; decide
theorem getStatus : Statement .getStatus := by simp [Statement, encode]; decide
theorem getCurrentCfg : Statement .getCurrentCfg := by simp [Statement, encode]; decide
theorem getCurrentCfgSw : Statement .getCurrentCfgSw := by simp [Statement, encode]; decide
theorem getEmptyCfg (b : Bank) : Statement (.getEmptyCfg b) := by simp [Statement, encode]; decide
theorem readWork (b : Bank) : Statement (.readWork b) := by simp [Statement, encode]; decide
theorem addCc (b : Bank) (c : CcId) (m : SlotMap) : Statement (.addCc b c m) := by simp [Statement, encode]; decide
theorem removeCc (b : Bank) (c : CcId) : Statement (.removeCc b c) := by simp [Statement, encode]; decide
theorem updateCc (b : Bank) (c : CcId) : Statement (.updateCc b c) := by simp [Statement, encode]; decide
theorem moveCc (b : Bank) (c : CcId) : Statement (.moveCc b c) := by simp [Statement, encode]; decide
theorem addAux (b : Bank) : Statement (.addAux b) := by simp [Statement, encode]; decide
theorem removeAux (b : Bank) : Statement (.removeAux b) := by simp [Statement, encode]; decide
theorem setAntGain : Statement .setAntGain := by simp [Statement, encode]; decide
theorem setAllAntGain : Statement .setAllAntGain := by simp [Statement, encode]; decide
theorem commit : Statement .commit := by simp [Statement, encode]; decide
theorem commitSw : Statement .commitSw := by simp [Statement, encode]; decide
theorem countOnes (m : SlotMap) : Statement (.countOnes m) := by simp [Statement, encode]; decide
theorem findUnusedId (b : Bank) : Statement (.findUnusedId b) := by simp [Statement, encode]; decide
theorem checkSlots (b : Bank) (c : CcId) (m : SlotMap) : Statement (.checkSlots b c m) := by
  simp [Statement, encode]; decide
theorem deriveRate (m : SlotMap) : Statement (.deriveRate m) := by simp [Statement, encode]; decide
theorem checkCapacity (b : Bank) (md : CapMode) (c : CcId) (m : SlotMap) : Statement (.checkCapacity b md c m) := by
  simp [Statement, encode]; decide
theorem derivePhaseOffset : Statement .derivePhaseOffset := by simp [Statement, encode]; decide

end Sys2Proof.Laws.EncodedForm
end

