-- ==== Sys2Proof/Laws/Snapshots.lean ====
section
/-! SUPPORT. What a read-back does whatever TRIG and DP do among its reads (R164 to R166, R296). -/

namespace Sys2Proof.Machine

open Sys2Proof

theorem HwBank.blank_fits (bd : Build) (l : SeqLen) : (HwBank.blank bd l).fits bd := by simp [HwBank.fits, HwBank.blank]

/-- Everything loadCurrent does: W[b] is the translation of the bank that was read, exactly the events among the turns it
uses up happen, and the bank read is CUR[b] or, with a fire after k of the reads, a mixture of CUR[b] and NXT[b] (R164). -/
theorem loadCurrent_eq (b : Bank) (s : State) :
    ∃ h, loadCurrent b s = { agentMoves (turnsUsed s.sched (unitCount s.build)) s with
        sched := turnsLeft s.sched (unitCount s.build)
        work := s.work.set b (translateBank (s.notUsed.get b) s.draws h)
        wv := s.wv.set b true
        draws := s.draws + 1 } ∧
      (noFireAmong (turnsUsed s.sched (unitCount s.build)) s → (s.cur.get b).fits s.build → h = s.cur.get b) ∧
      ∀ k, firesAfter (turnsUsed s.sched (unitCount s.build)) k s → (s.cur.get b).fits s.build →
        (s.nxt.get b).fits s.build → bankExists s b = true →
        HwBank.mixed s.build k (s.cur.get b) (s.nxt.get b) h := by
  refine ⟨(readUnits b (units s.build) (HwBank.blank s.build SeqLen.one) s).1, ?_, fun h hf => ?_, fun k h hf hn hb => ?_⟩
  · have f := (agentMoves_effect (turnsUsed s.sched (unitCount s.build)) s).frame
    simp only [loadCurrent, readUnits_state, units_length, f.work_eq, f.wv_eq, f.draws_eq]
  · rw [readUnits_noFire (by rw [units_length]; exact h), copyUnits_units hf (HwBank.blank_fits _ _)]
  · rw [readUnits_fires (by rw [units_length]; exact h), PerBank.get_onBanks, if_pos hb]
    exact copyUnits_drop_mixed k hf hn (HwBank.blank_fits _ _)

/-- Everything reading both banks back does, in a switchable build (R166). -/
theorem loadBothBanks_eq {s : State} (hb : s.build.switchable = true) :
    ∃ h g, loadBothBanks s = { agentMoves (turnsUsed s.sched (2 * unitCount s.build)) s with
        sched := turnsLeft s.sched (2 * unitCount s.build)
        work := ⟨translateBank s.notUsed.dl s.draws h, translateBank s.notUsed.ul (s.draws + 1) g⟩
        wv := ⟨true, true⟩
        draws := s.draws + 2 } ∧
      (noFireAmong (turnsUsed s.sched (2 * unitCount s.build)) s → s.cur.dl.fits s.build → s.cur.ul.fits s.build →
        h = s.cur.dl ∧ g = s.cur.ul) ∧
      ∀ k, firesAfter (turnsUsed s.sched (2 * unitCount s.build)) k s →
        (∀ b, (s.cur.get b).fits s.build ∧ (s.nxt.get b).fits s.build) →
        HwBank.mixed s.build k s.cur.dl s.nxt.dl h ∧
          HwBank.mixed s.build (k - unitCount s.build) s.cur.ul s.nxt.ul g := by
  obtain ⟨h, e, quiet, torn⟩ := loadCurrent_eq .dl { s with bankSel := .dl }
  simp only [agentMoves_withBankSel] at e
  have f := (agentMoves_effect (turnsUsed s.sched (unitCount s.build)) s).frame
  generalize hs1 : ({ agentMoves (turnsUsed s.sched (unitCount s.build)) s with
    sched := turnsLeft s.sched (unitCount s.build)
    work := s.work.set .dl (translateBank (s.notUsed.get .dl) s.draws h)
    wv := s.wv.set .dl true
    draws := s.draws + 1
    bankSel := .ul } : State) = s1
  have b1 : s1.build = s.build := by rw [← hs1]; exact f.build_eq
  have u1 : s1.notUsed = s.notUsed := by rw [← hs1]; exact f.notUsed_eq
  have n1 : s1.nxt = s.nxt := by rw [← hs1]; exact f.nxt_eq
  have c1 : s1.cur = (agentMoves (turnsUsed s.sched (unitCount s.build)) s).cur := by rw [← hs1]
  have q1 : s1.sched = turnsLeft s.sched (unitCount s.build) := by rw [← hs1]
  obtain ⟨g, e', quiet', torn'⟩ := loadCurrent_eq .ul s1
  have two := turnsUsed_add s.sched (unitCount s.build) (unitCount s.build)
  rw [← Nat.two_mul] at two
  have noFire1 : ∀ q, noFireAmong q (agentMoves (turnsUsed s.sched (unitCount s.build)) s) → noFireAmong q s1 :=
    fun q hq => by rw [← hs1]; exact hq
  have fires1 : ∀ q k, firesAfter q k (agentMoves (turnsUsed s.sched (unitCount s.build)) s) → firesAfter q k s1 :=
    fun q k hq => by rw [← hs1]; exact hq
  refine ⟨h, g, ?_, fun hq hf hg => ?_, fun k hk hf => ?_⟩
  · have m : ∀ q, agentMoves q s1 = { agentMoves (turnsUsed s.sched (unitCount s.build) ++ q) s with
        sched := s1.sched, bankSel := .ul, work := s1.work, wv := s1.wv, draws := s1.draws } := by
      intro q
      rw [agentMoves_append, ← agentMoves_withLoaded, ← hs1]
    have w1 : s1.work = ⟨translateBank s.notUsed.dl s.draws h, s.work.ul⟩ ∧ s1.wv = ⟨true, s.wv.ul⟩ ∧
        s1.draws = s.draws + 1 := by rw [← hs1]; exact ⟨rfl, rfl, rfl⟩
    simp only [loadBothBanks, e]
    rw [hs1, e', m, two.1, two.2, b1, q1, u1, w1.1, w1.2.1, w1.2.2]
    have f2 := (agentMoves_effect (turnsUsed s.sched (unitCount s.build) ++
      turnsUsed (turnsLeft s.sched (unitCount s.build)) (unitCount s.build)) s).frame
    simp [← f2.bankSel_eq]
  · rw [two.1] at hq
    obtain ⟨h1, h2⟩ := noFireAmong_append hq
    have hc := (agentMoves_noFire h1).1
    refine ⟨quiet h1 hf, ?_⟩
    have := quiet' (by rw [b1, q1]; exact noFire1 _ h2) (by rw [c1, b1, hc]; exact hg)
    rw [this, c1, hc]; rfl
  · rw [two.1] at hk
    rcases firesAfter_append hk (fun hq hl => hq (by rw [hl]; rfl)) with ⟨hle, h1, h2⟩ | ⟨hlt, h1, h2⟩
    · have hc := (agentMoves_fires h1).1
      have hu : s1.cur.get .ul = s.nxt.ul := by rw [c1, hc]; simp [hb]
      refine ⟨torn k h1 (hf .dl).1 (hf .dl).2 rfl, ?_⟩
      rw [quiet' (by rw [b1, q1]; exact noFire1 _ h2) (by rw [hu, b1]; exact (hf .ul).2), hu, Nat.sub_eq_zero_of_le hle]
      exact HwBank.mixed_zero _ _ _
    · have hc := (agentMoves_noFire h1).1
      have hu : s1.cur.get .ul = s.cur.ul := by rw [c1, hc]; rfl
      have := torn' (k - unitCount s.build) (by rw [b1, q1]; exact fires1 _ _ h2) (by rw [hu, b1]; exact (hf .ul).1)
        (by rw [n1, b1]; exact (hf .ul).2) (by simp only [bankExists, b1]; exact hb)
      rw [hu, n1, b1] at this
      rw [quiet h1 (hf .dl).1]
      exact ⟨HwBank.mixed_all (by omega) (hf .dl).1 (hf .dl).2, this⟩

end Sys2Proof.Machine
end

