-- ==== Sys2Proof/Tests/Slice0.lean ====
section
/-! SUPPORT. The model's own tests: the checks of WellFormed, decoding of words written from the spec's tables, vectors of
95_test_vectors.md, and for each statement a state and operands that meet its hypotheses. -/

namespace Sys2Proof.Tests

open Sys2Proof Sys2Proof.Machine Sys2Proof.Claims

/-! ### The states the tests start from -/

/-- The capability constants of program P1: variant B. -/
def hwB : HwCfg := ⟨2, 16, 1, 1, 1, []⟩

/-- The constants of program P2: variant A. -/
def hwA : HwCfg := ⟨2, 8, 2, 1, 1, []⟩

/-- The build of program P1, switchable or not. -/
def build (sw : Bool) : Build := ⟨sw, 2, [⟨0⟩], 1, hwB⟩

def seqLenOf (n : Nat) (h : 1 ≤ n ∧ n ≤ 16 := by decide) : SeqLen := ⟨n, h⟩

/-- An instance in a lifecycle state, with sequence length 16 and blank banks, as bring-up leaves it. -/
def inState (sw : Bool) (l : Lifecycle) : State :=
  { State.powerOn (build sw) (Launch.zero (build sw)) with
    lc := l
    name := if l = .notReady then none else some ⟨0⟩
    cfg := if fromConfigured l then some hwB else none
    len := if inInitialisedOrOperational l then some (seqLenOf 16) else none
    hwInReset := l == .reset
    datapathEnabled := inInitialisedOrOperational l
    regDraw := false
    wv := ⟨inInitialisedOrOperational l, sw && inInitialisedOrOperational l⟩
    work := ⟨Snapshot.blank (build sw) (seqLenOf 16), Snapshot.blank (build sw) (seqLenOf 16)⟩
    cur := ⟨HwBank.blank (build sw) (seqLenOf 16), HwBank.blank (build sw) (seqLenOf 16)⟩
    nxt := ⟨HwBank.blank (build sw) (seqLenOf 16), HwBank.blank (build sw) (seqLenOf 16)⟩ }

/-- The state with another operand record. -/
def withArgs (a : Args) (s : State) : State := { s with args := a }

/-- The state whose W[DL] has carrier 0 on NCO 0 with slots 0x1111, the base WORK of vectors V3. -/
def withCarrier (s : State) : State :=
  let w := s.work.dl.withSeq (Vector.ofFn fun i : Fin 16 => if i.val % 4 = 0 then some 0 else none)
  { s with work := s.work.set .dl { w with cc := setEntry w.cc 0 ⟨0, 3, 0⟩ } }

/-- Operational, update trigger armed. -/
def pendingState (sw : Bool) : State := { inState sw .operational with trigCcUpdate := ⟨true, 0, 0⟩ }

/-- The command runs to a next state with the property. -/
def gives (o : Host.Outcome State Fault Refusal) (p : State → Bool) : Bool :=
  match o with
  | .next t => p t
  | _ => false

/-- HOST's turn ran the command: it answered a response that the test accepts. -/
def answers (i : Instr) (s : State) (ok : Bool) (cause : BitVec 8) (p : State → Bool := fun _ => true) : Bool :=
  gives (exec i s) fun t => t.resp.ok == ok && t.resp.cause == cause && t.pos == s.pos + 1 && p t

/-- The command raised the cause. -/
def raises (i : Instr) (s : State) (c : FaultCause) : Bool :=
  gives (exec i s) fun t => t.fault == some c && t.pos == s.pos

/-! ### WellFormed: an ill-formed term for each check -/

theorem test_wellFormed_bank : Instr.wellFormed (build false) (.addCc .ul 0 0) = false := by decide
theorem test_wellFormed_bank_ok : Instr.wellFormed (build true) (.addCc .ul 0 0) = true := by decide
theorem test_wellFormed_usableCc_zero : HwCfg.wellFormed ⟨1, 0, 1, 1, 1, []⟩ = false := by decide
theorem test_wellFormed_usableCc_high : HwCfg.wellFormed ⟨1, 17, 1, 1, 1, []⟩ = false := by decide
theorem test_wellFormed_lanes : HwCfg.wellFormed ⟨1, 16, 0, 1, 1, []⟩ = false := by decide
theorem test_wellFormed_antennas : HwCfg.wellFormed ⟨0, 16, 1, 1, 1, []⟩ = false := by decide
theorem test_wellFormed_hwcfg_ok : hwB.wellFormed = true := by decide
theorem test_wellFormed_antGains : antGainsWellFormed hwB [0] = false := by decide

/-! ### Decoding: every opcode of R74, its word written field by field as R67 lays them out
(OPC, BANK, MODE, RSV, CCID, MAP) -/

theorem test_decode_lifecycle :
    decode (0x01#8 ++ 0#1 ++ 0#1 ++ 0#2 ++ 0#4 ++ 0#16) = .ok .lookup ∧
    decode (0x02#8 ++ 0#1 ++ 0#1 ++ 0#2 ++ 0#4 ++ 0#16) = .ok .reset ∧
    decode (0x03#8 ++ 0#1 ++ 0#1 ++ 0#2 ++ 0#4 ++ 0#16) = .ok .configure ∧
    decode (0x04#8 ++ 0#1 ++ 0#1 ++ 0#2 ++ 0#4 ++ 0#16) = .ok .initialise ∧
    decode (0x05#8 ++ 0#1 ++ 0#1 ++ 0#2 ++ 0#4 ++ 0#16) = .ok .activate ∧
    decode (0x06#8 ++ 0#1 ++ 0#1 ++ 0#2 ++ 0#4 ++ 0#16) = .ok .deactivate ∧
    decode (0x07#8 ++ 0#1 ++ 0#1 ++ 0#2 ++ 0#4 ++ 0#16) = .ok .close ∧
    decode (0x08#8 ++ 0#1 ++ 0#1 ++ 0#2 ++ 0#4 ++ 0#16) = .ok .getState := by decide

theorem test_decode_triggers :
    decode (0x10#8 ++ 0#1 ++ 0#1 ++ 0#2 ++ 0#4 ++ 0#16) = .ok .getTriggersCfg ∧
    decode (0x11#8 ++ 0#1 ++ 0#1 ++ 0#2 ++ 0#4 ++ 0#16) = .ok .setTriggersCfg ∧
    decode (0x18#8 ++ 0#1 ++ 0#1 ++ 0#2 ++ 0#4 ++ 0#16) = .ok .getStatus := by decide

theorem test_decode_snapshots :
    decode (0x20#8 ++ 0#1 ++ 0#1 ++ 0#2 ++ 0#4 ++ 0#16) = .ok .getCurrentCfg ∧
    decode (0x21#8 ++ 0#1 ++ 0#1 ++ 0#2 ++ 0#4 ++ 0#16) = .ok .getCurrentCfgSw ∧
    decode (0x22#8 ++ 1#1 ++ 0#1 ++ 0#2 ++ 0#4 ++ 0#16) = .ok (.getEmptyCfg .ul) ∧
    decode (0x23#8 ++ 0#1 ++ 0#1 ++ 0#2 ++ 0#4 ++ 0#16) = .ok (.readWork .dl) := by decide

theorem test_decode_builder :
    decode (0x30#8 ++ 1#1 ++ 0#1 ++ 0#2 ++ 5#4 ++ 0xFFFF#16) = .ok (.addCc .ul 5 0xFFFF) ∧
    decode (0x31#8 ++ 0#1 ++ 0#1 ++ 0#2 ++ 1#4 ++ 0#16) = .ok (.removeCc .dl 1) ∧
    decode (0x32#8 ++ 1#1 ++ 0#1 ++ 0#2 ++ 15#4 ++ 0#16) = .ok (.updateCc .ul 15) ∧
    decode (0x33#8 ++ 0#1 ++ 0#1 ++ 0#2 ++ 2#4 ++ 0#16) = .ok (.moveCc .dl 2) ∧
    decode (0x34#8 ++ 1#1 ++ 0#1 ++ 0#2 ++ 0#4 ++ 0#16) = .ok (.addAux .ul) ∧
    decode (0x35#8 ++ 0#1 ++ 0#1 ++ 0#2 ++ 0#4 ++ 0#16) = .ok (.removeAux .dl) ∧
    decode (0x36#8 ++ 0#1 ++ 0#1 ++ 0#2 ++ 0#4 ++ 0#16) = .ok .setAntGain ∧
    decode (0x37#8 ++ 0#1 ++ 0#1 ++ 0#2 ++ 0#4 ++ 0#16) = .ok .setAllAntGain := by decide

theorem test_decode_commit :
    decode (0x40#8 ++ 0#1 ++ 0#1 ++ 0#2 ++ 0#4 ++ 0#16) = .ok .commit ∧
    decode (0x41#8 ++ 0#1 ++ 0#1 ++ 0#2 ++ 0#4 ++ 0#16) = .ok .commitSw := by decide

theorem test_decode_queries :
    decode (0x50#8 ++ 0#1 ++ 0#1 ++ 0#2 ++ 0#4 ++ 0x8001#16) = .ok (.countOnes 0x8001) ∧
    decode (0x51#8 ++ 1#1 ++ 0#1 ++ 0#2 ++ 0#4 ++ 0#16) = .ok (.findUnusedId .ul) ∧
    decode (0x52#8 ++ 0#1 ++ 0#1 ++ 0#2 ++ 1#4 ++ 0x0100#16) = .ok (.checkSlots .dl 1 0x0100) ∧
    decode (0x53#8 ++ 0#1 ++ 0#1 ++ 0#2 ++ 0#4 ++ 0x1111#16) = .ok (.deriveRate 0x1111) ∧
    decode (0x54#8 ++ 1#1 ++ 1#1 ++ 0#2 ++ 2#4 ++ 0x00F0#16) = .ok (.checkCapacity .ul .update 2 0x00F0) ∧
    decode (0x54#8 ++ 0#1 ++ 0#1 ++ 0#2 ++ 2#4 ++ 0#16) = .ok (.checkCapacity .dl .add 2 0) ∧
    decode (0x55#8 ++ 0#1 ++ 0#1 ++ 0#2 ++ 0#4 ++ 0#16) = .ok .derivePhaseOffset := by decide

/-- V8.1 to V8.5, V8.9, V8.10: illegal words. -/
theorem test_decode_illegal :
    [0x00000000, 0xFF000000, 0x09000000, 0x30101111, 0x31010001, 0x36800000, 0x40400000, 0x30F00000, 0x30A5FFFF].all
      (fun w => (decode w).toOption.isNone) = true := by decide

/-- R53: the byte view is little-endian. -/
theorem test_decode_bytes : decodeBytes [0x11, 0x11, 0x03, 0x30] = .ok (.addCc .dl 3 0x1111) := by decide

theorem test_decode_tableWord :
    decodeTableWord 32 0x308500FF = some (.addCc .ul 5 0x00FF) ∧ decodeTableWord 32 0 = none := by decide

/-- R79 and R77: the encoder and the assembler give the spec's words; an operand the opcode does not use is refused. -/
theorem test_encode_assemble :
    encode (.addCc .ul 5 0x00FF) = 0x308500FF ∧ encode (.checkCapacity .dl .update 2 0) = 0x54420000 ∧
    assemble 0x30 none none (some 3) (some 0x1111) = some 0x30031111 ∧
    assemble 0x31 none none (some 1) (some 1) = none ∧ assemble 0x00 none none none none = none := by decide

/-- R78: BRINGUP expands to six commands, and to a seventh in a switchable build. -/
theorem test_bringup :
    ((bringup false ⟨0⟩ 16 0).map fun c => c.cmd) =
      [0x01000000, 0x02000000, 0x03000000, 0x04000000, 0x05000000, 0x22000000] ∧
    (bringup true ⟨0⟩ 16 0).length = 7 := by decide

/-! ### Vectors: lifecycle (95_test_vectors.md, 2.7) -/

/-- V7.2. -/
theorem test_lookup_unknown :
    answers .lookup (withArgs { Args.zero with name := ⟨1⟩ } (inState false .notReady)) false 0x0A
      (fun t => t.lc == .notReady) = true := by decide
/-- V7.3. -/
theorem test_lookup_other_name :
    raises .lookup (withArgs { Args.zero with name := ⟨1⟩ } (inState false .ready)) .wrongState = true := by decide
/-- The example of R236. -/
theorem test_reset : answers .reset (inState false .ready) true 0 (fun t => t.lc == .reset && t.hwInReset) = true := by
  decide
/-- V7.4. -/
theorem test_reset_in_configured : raises .reset (inState false .configured) .wrongState = true := by decide
/-- The example of R237. -/
theorem test_configure :
    answers .configure (inState false .reset) true 0
      (fun t => t.lc == .configured && t.cfg == some hwB && !t.hwInReset) = true := by decide
/-- V7.5. -/
theorem test_initialise_zero :
    answers .initialise (inState false .configured) true 0 (fun t => t.len == some (seqLenOf 1)) = true := by decide
theorem test_initialise_seventeen :
    raises .initialise (withArgs { Args.zero with seqLen := 17 } (inState false .configured)) .indexOob = true := by
  decide
/-- The example of R239; E9. -/
theorem test_activate :
    answers .activate (inState false .initialised) true 0 (fun t => t.lc == .operational && t.trigActivate.armed) = true := by
  decide
theorem test_activate_twice :
    answers .activate (inState false .operational) true 0 (fun t => !t.trigActivate.armed) = true := by decide
/-- V7.8. -/
theorem test_deactivate_pending :
    answers .deactivate (pendingState false) true 0 (fun t => t.lc == .initialised && t.trigCcUpdate.armed) = true := by
  decide
/-- V7.9. -/
theorem test_close :
    answers .close (inState false .operational) true 0 (fun t => t.lc == .notReady && t.name == none) = true := by decide
/-- R242, and V7.1. -/
theorem test_getState :
    answers .getState (inState false .operational) true 0 (fun t => t.resp.payload matches .lifecycle 5) = true := by decide
theorem test_getState_notReady : raises .getState (inState false .notReady) .nullHandle = true := by decide

/-! ### Vectors: triggers and status (2.6) -/

/-- V6.7. -/
theorem test_setTriggersCfg :
    answers .setTriggersCfg
      (withArgs { Args.zero with trigActivate := ⟨3, 7⟩, trigCcUpdate := ⟨1, 255⟩ } (inState false .initialised)) true 0
      (fun t => t.trigActivate == ⟨false, 3, 7⟩ && t.trigCcUpdate == ⟨false, 1, 255⟩) = true := by decide
theorem test_getTriggersCfg :
    answers .getTriggersCfg
      { inState false .initialised with trigActivate := ⟨false, 3, 7⟩, trigCcUpdate := ⟨false, 1, 255⟩ } true 0
      (fun t => t.resp.payload matches .triggers 0x00000706 0x0000FF02) = true := by decide
/-- The example of R212, with no overflow bit set. -/
theorem test_statusImage : statusImage (pendingState false) = 0x80000000 := by
  simp [statusImage, flagBit, pendingState, inState, State.powerOn, Launch.zero, Trigger.zero]

/-! ### Vectors: snapshots and builder (2.4) -/

/-- V6.6, the hazard of R296: with 1 cached, slots that hold 0 read as carrier 0. -/
theorem test_getCurrentCfg_stale :
    answers .getCurrentCfg { inState false .operational with notUsed := ⟨some 1, some 0⟩ } true 0
      (fun t => t.work.dl.seq[3] == some 0) = true := by decide
/-- P4, step 1. -/
theorem test_getCurrentCfgSw :
    answers .getCurrentCfgSw (inState true .operational) true 0
      (fun t => t.work.ul.seq[0] == none && t.work.ul.notUsed == some 0 && t.bankSel == .dl) = true := by decide
theorem test_getEmptyCfg :
    answers (.getEmptyCfg .dl) { withCarrier (inState false .initialised) with wv := ⟨false, false⟩ } true 0
      (fun t => t.wv.dl && t.work.dl.seq[0] == none) = true := by decide
/-- V4.16. -/
theorem test_readWork_ul : raises (.readWork .ul) (inState false .operational) .bankMode = true := by decide
theorem test_readWork :
    answers (.readWork .dl) (withCarrier (inState false .operational)) true 0
      (fun t => match t.resp.payload with | .snapshot w => w.notUsed == some 1 | _ => false) = true := by decide
/-- V4.1. -/
theorem test_addCc :
    answers (.addCc .dl 0 0x1111) (inState false .operational) true 0
      (fun t => t.work.dl.seq[0] == some 0 && t.work.dl.seq[12] == some 0 && t.work.dl.seq[1] == none &&
        t.work.dl.notUsed == some 1 && (entry t.work.dl.cc 0).rate == 3) = true := by decide
/-- V4.2. -/
theorem test_addCc_active :
    answers (.addCc .dl 0 0x0002) (withArgs { Args.zero with nco := 1 } (withCarrier (inState false .operational)))
      false 0x08 = true := by decide
/-- The example of R170. -/
theorem test_removeCc :
    answers (.removeCc .dl 0) (withCarrier (inState false .operational)) true 0
      (fun t => t.work.dl.seq[4] == none && t.work.dl.notUsed == some 0 && (entry t.work.dl.cc 0).rate == 0) = true := by
  decide
/-- V4.5. -/
theorem test_updateCc :
    answers (.updateCc .dl 0) (withArgs { Args.zero with nco := 5 } (withCarrier (inState false .operational))) true 0
      (fun t => (entry t.work.dl.cc 0).nco == 5 && (entry t.work.dl.cc 0).rate == 3) = true := by decide
/-- V4.7. -/
theorem test_moveCc :
    answers (.moveCc .dl 0)
      (withArgs { Args.zero with nco := 6, phaseB := { Phase.zero with acc := 0x6000 } }
        (withCarrier (inState false .operational))) true 0
      (fun t => (entry t.work.dl.nco 6).freq.phaseOffset == 2 && (entry t.work.dl.cc 0).nco == 6) = true := by decide
/-- V4.10 and V4.11. -/
theorem test_addAux :
    answers (.addAux .dl) (withArgs { Args.zero with auxIdx := 1 } (inState false .operational)) true 0
      (fun t => t.work.dl.aux.map (fun d => d.enable) == [0, 1]) = true := by decide
theorem test_addAux_range :
    raises (.addAux .dl) (withArgs { Args.zero with auxIdx := 2 } (inState false .operational)) .indexOob = true := by decide
/-- V4.12. -/
theorem test_removeAux :
    answers (.removeAux .dl) (withArgs { Args.zero with auxIdx := 1 } (inState false .operational)) true 0
      (fun t => t.work.dl.aux.map (fun d => d.enable) == [0, 0]) = true := by decide
/-- V4.13 and V4.14. -/
theorem test_setAntGain :
    answers .setAntGain (withArgs { Args.zero with antIdx := 1 } (inState true .operational)) true 0 = true := by decide
theorem test_setAntGain_range :
    raises .setAntGain (withArgs { Args.zero with antIdx := 2 } (inState false .operational)) .indexOob = true := by decide
/-- V4.15. -/
theorem test_setAllAntGain :
    answers .setAllAntGain (withArgs { Args.zero with antGains := [0, 0] } (inState false .operational)) true 0 = true := by
  decide
/-- An operand one entry short: the command runs, sets the entry it has and keeps NUM_ANTENNA entries (log 15). -/
theorem test_setAllAntGain_short :
    answers .setAllAntGain (withArgs { Args.zero with antGains := [0] } (inState false .operational)) true 0
      (fun t => t.work.dl.antGain.length == 2 && t.work.dl.antGain[0]? == some 0) = true := by decide
/-- V4.17. -/
theorem test_addCc_unloaded :
    raises (.addCc .dl 0 1) { inState false .operational with wv := ⟨false, false⟩ } .workUnloaded = true := by decide

/-! ### Vectors: commit (2.6) -/

/-- V6.1, with L = 16: unused slots hold the placeholder. -/
theorem test_commit :
    answers .commit (withCarrier (inState false .operational)) true 0
      (fun t => t.nxt.dl.slot[0] == 0 && t.nxt.dl.slot[1] == 1 && t.nxt.dl.slot[15] == 1 && t.trigCcUpdate.armed &&
        t.notUsed.dl == some 1) = true := by decide
/-- V6.3. -/
theorem test_commit_pending :
    answers .commit (withCarrier (pendingState false)) false 0x09
      (fun t => t.nxt.dl.slot[1] == 1 && t.commitFatal && t.notUsed.dl == some 0) = true := by decide
/-- R207: with a fire after the third unit write the commit succeeds, and CUR holds the units written so far. -/
theorem test_commit_torn :
    answers .commit
      { withCarrier (pendingState false) with sched := [.host, .host, .agent .fireCcUpdate] } true 0
      (fun t => t.cur.dl.slot[1] == 1 && t.cur.dl.slot[2] == 0 && t.trigCcUpdate.armed && !t.commitFatal) = true := by
  decide
/-- V6.11, and P4 step 5′. -/
theorem test_commitSw_mode : raises .commitSw (inState false .operational) .bankMode = true := by decide
theorem test_commitSw :
    answers .commitSw (withCarrier (inState true .operational)) true 0
      (fun t => t.nxt.dl.slot[1] == 1 && t.nxt.ul.slot[1] == 0 && t.notUsed == ⟨some 1, some 0⟩ && t.bankSel == .dl) = true := by
  decide
/-- V6.4: one fire copies both banks. -/
theorem test_fireCcUpdate :
    gives (step { pendingState true with
        sched := [.agent .fireCcUpdate]
        nxt := ⟨{ HwBank.blank (build true) (seqLenOf 16) with slot := Vector.replicate 16 3 },
          { HwBank.blank (build true) (seqLenOf 16) with slot := Vector.replicate 16 4 }⟩ })
      (fun t => t.cur.dl.slot[0] == 3 && t.cur.ul.slot[0] == 4 && !t.trigCcUpdate.armed) = true := by decide

/-! ### Vectors: queries and functions (2.1 to 2.3, 2.5) -/

/-- V1.15. -/
theorem test_countOnes :
    answers (.countOnes 0x00FF) (withArgs { Args.zero with length := 4 } (inState false .ready)) true 0
      (fun t => t.resp.payload matches .count 4) = true := by decide
/-- V1.2 and V1.3. -/
theorem test_countOnes_bounds :
    countOnes 0xFFFF 0 = 0 ∧ countOnes 0xFFFF 31 = 16 ∧ countOnes 0x8001 15 = 1 ∧ countOnes 0x8001 16 = 2 := by decide
/-- V1.5 and V1.16. -/
theorem test_findUnusedId :
    answers (.findUnusedId .dl) (withCarrier (inState false .operational)) true 0
      (fun t => t.resp.payload matches .unusedId 1) = true := by decide
theorem test_findUnusedId_none :
    findUnusedId (Vector.ofFn fun i : Fin 16 => some (BitVec.ofFin i)) = none ∧
    findUnusedId (Vector.ofFn fun i : Fin 16 => if i.val < 3 then some (BitVec.ofFin i) else none) = some 3 := by decide
/-- V1.10 and V1.14: an overflow is found before a collision. -/
theorem test_checkSlots :
    answers (.checkSlots .dl 1 0x0001) (withCarrier (inState false .operational)) false 0x02 = true := by decide
theorem test_checkSlots_overflow :
    (match assignSlots { (withCarrier (inState false .operational)).work.dl with seqLen := seqLenOf 8 } 2 0x0101 with
      | .error .bitmapOverflow => true
      | _ => false) = true := by decide
/-- V2.1 and V2.2. -/
theorem test_deriveRate :
    answers (.deriveRate 0x1111) (inState false .operational) true 0 (fun t => t.resp.payload matches .rate 3) = true := by
  decide
/-- V2.3 to V2.9. -/
theorem test_deriveRate_values :
    deriveRate 0x0001 16 1 0 = .error .rateInvalid ∧ deriveRate 0 16 1 0 = .ok 0 ∧
    deriveRate 0x00FF 12 1 1 = .error .rateInvalid ∧ deriveRate 0x1111 16 2 1 = .ok 4 ∧
    deriveRate 0x1111 16 8 1 = .error .rateInvalid ∧ deriveRate 0x0100 8 1 1 = .ok 0 ∧ deriveRate 1 1 1 1 = .ok 1 ∧
    deriveRate 0x0111 16 1 1 = .error .occNotPow2 := by decide
/-- V3.1. -/
theorem test_checkCapacity :
    answers (.checkCapacity .dl .add 1 0x0002) (withArgs { Args.zero with nco := 1 } (withCarrier (inState false .operational)))
      false 0x07 = true := by decide
/-- V3.2 to V3.4, V3.6, V3.7, V3.11: the checks in order, the skipped check and the unconstrained variant. -/
theorem test_checkCapacity_values :
    let w := (withCarrier (inState false .operational)).work.dl
    checkCapacity w hwB .add 1 0 0x0002 = .error .ncoInUse ∧ checkCapacity w hwB .add 1 16 0x0002 = .error .ncoRange ∧
    checkCapacity w hwB .add 1 4 0x000F = .ok () ∧ checkCapacity w hwB .update 0 1 0 = .ok () ∧
    checkCapacity w hwB .update 0 4 0 = .ok () ∧ checkCapacity w { hwA with lanes := 1 } .add 1 1 0xFFFF = .ok () ∧
    checkCapacity w hwA .add 1 1 0x001F = .error .subblockCapacity := by decide
/-- R199. -/
theorem test_derivePhaseOffset :
    answers .derivePhaseOffset
      (withArgs { Args.zero with phaseA := { Phase.zero with acc := 0xFFFFC000 } } (inState false .ready)) true 0
      (fun t => t.resp.payload matches .phaseOffset 1) = true := by decide
theorem test_derivePhaseOffset_values :
    let f := fun a b : BitVec 32 => derivePhaseOffset { Phase.zero with acc := a } { Phase.zero with acc := b }
    f 0 0x6000 = 2 ∧ f 0 0x1FFF = 0 ∧ f 0x4000 0 = 0x3FFFF ∧ f 0 0xFFFFE000 = 0 ∧ f 0 0x80000000 = 0x20000 := by decide

/-! ### Witnesses: for each statement with hypotheses, a state and operands that meet all of them together -/

/-- HOST is about to issue one command. -/
def issuing (w : Word) (s : State) : State := placeCommand ⟨w, s.args, 0⟩ s

/-- An environment turn comes next. -/
def nextTurn (e : AgentEvent) (s : State) : State := { s with sched := [.agent e] }

theorem witness_decodeThenEncode : decode 0x54C200F0 = .ok (.checkCapacity .ul .update 2 0x00F0) := by decide

theorem witness_decodeByMatchAndMask :
    ∃ r ∈ opcodeTable, (0x308500FF : Word) &&& r.maskBits = r.matchBits := by decide

/-- One word for each of the three ways to be illegal. -/
theorem witness_illegalWordHaltsHost :
    (∀ w, (issuing w (inState false .ready)).fault = none ∧
      (issuing w (inState false .ready)).sched = [.host] ∧
      (issuing w (inState false .ready)).program[(issuing w (inState false .ready)).pos]? = some ⟨w, Args.zero, 0⟩ ∧
      hostIsNext (issuing w (inState false .ready)) [] ∧
      hostIsNext { issuing w (inState false .ready) with sched := [] } []) ∧
    (∀ r ∈ opcodeTable, r.opc ≠ fieldOpc 0x00000000) ∧ fieldRsv 0x30101111 ≠ 0 ∧
    (∃ r ∈ opcodeTable, r.opc = fieldOpc 0x31010001 ∧ r.usesMap = false ∧ fieldMap 0x31010001 ≠ 0) ∧
    (∃ r ∈ opcodeTable, r.opc = fieldOpc 0x36800000 ∧ r.usesBank = false ∧ fieldBank 0x36800000 ≠ 0) ∧
    (∃ r ∈ opcodeTable, r.opc = fieldOpc 0x40400000 ∧ r.usesMode = false ∧ fieldMode 0x40400000 ≠ 0) ∧
    (∃ r ∈ opcodeTable, r.opc = fieldOpc 0x51010000 ∧ r.usesCcid = false ∧ fieldCcid 0x51010000 ≠ 0) :=
  ⟨fun _ => ⟨rfl, rfl, rfl, .inl rfl, .inr ⟨rfl, rfl⟩⟩, by decide, by decide, by decide, by decide, by decide, by decide⟩

theorem witness_stepRunsDecodedCommand :
    let s := issuing 0x08000000 (inState false .ready)
    s.fault = none ∧ s.program[s.pos]? = some ⟨0x08000000, Args.zero, 0⟩ ∧ decode 0x08000000 = .ok .getState ∧
      hostIsNext s [] ∧ ({ s with sched := [] } : State).program[s.pos]? = some ⟨0x08000000, Args.zero, 0⟩ ∧
      hostIsNext { s with sched := [] } [] :=
  ⟨rfl, rfl, by decide, .inl rfl, rfl, .inr ⟨rfl, rfl⟩⟩

/-- A BRINGUP of a name the platform does not know, with GET_STATE after it. -/
def failingBringup : State :=
  { inState false .notReady with program := bringup false ⟨1⟩ 16 0 ++ [⟨0x08000000, Args.zero, 0⟩] }

/-- Its first command answers a failure; the clauses of the step on a fault and on a refusal have theirs too. -/
theorem witness_stepAfterTheCommand :
    failingBringup.program[failingBringup.pos]?.map (fun c => (decode c.cmd, c.skipOnFail)) = some (.ok .lookup, 5) ∧
      gives (exec .lookup { failingBringup with args := { Args.zero with name := ⟨1⟩ } })
        (fun t => t.fault.isNone && !t.resp.ok) = true ∧
      raises .close failingBringup .nullHandle = true ∧
      exec (.deriveRate 1) { inState false .operational with len := none } = .fault .lengthNone ∧
      exec .configure { inState false .reset with build := { build false with hwcfg := ⟨1, 17, 1, 1, 1, []⟩ } } =
        .refused .capabilityPremises :=
  ⟨by decide, by decide, by decide, rfl, rfl⟩

/-- R78: BRINGUP stops at its first command that fails: HOST's position passes over the other five, and nothing of them
has run. -/
theorem test_bringup_stops : gives (step failingBringup) (fun t => t.pos == 6 && t.fault.isNone && t.lc == .notReady) = true := by
  decide

/-- R26. -/
theorem test_trigId : TrigId.activate.code = 0 ∧ TrigId.ccUpdate.code = 1 := by decide

theorem witness_haltedOrFinishedHost :
    let s : State := { inState false .ready with sched := [.host] }
    hostIsNext s [] ∧ hostIsNext (inState false .ready) [] ∧ s.program.length ≤ s.pos ∧
      ({ s with fault := some .wrongState } : State).fault ≠ none :=
  ⟨.inl rfl, .inr ⟨rfl, rfl⟩, by decide, by decide⟩

theorem witness_fireCcUpdate :
    let s := nextTurn .fireCcUpdate (pendingState true)
    s.sched = [.agent .fireCcUpdate] ∧ s.trigCcUpdate.armed = true ∧ s.hwInReset = false ∧
      (nextTurn .fireCcUpdate (inState true .reset)).hwInReset = true ∧
      (nextTurn .fireCcUpdate (inState true .operational)).trigCcUpdate.armed = false := by decide

/-- An armed activation trigger, and a running datapath. -/
theorem witness_fireActivateAndOverflow :
    let s : State := { inState false .operational with trigActivate := ⟨true, 0, 0⟩ }
    let d : State := { inState false .operational with datapathActive := true }
    (s.trigActivate.armed = true ∧ s.hwInReset = false) ∧
      ¬((inState false .operational).trigActivate.armed = true) ∧
      (d.datapathActive = true ∧ d.datapathEnabled = true ∧ d.hwInReset = false) ∧
      ¬((inState false .operational).datapathActive = true) ∧
      (∀ m, (nextTurn (.dpOverflow m) d).sched = [.agent (.dpOverflow m)]) ∧
      (nextTurn .fireActivate s).sched = [.agent .fireActivate] :=
  ⟨by decide, by decide, by decide, by decide, fun _ => rfl, rfl⟩

/-- An agent's turn, HOST's and none at all, of a halted machine. -/
theorem witness_faultIsSticky :
    ∀ q ∈ [[Turn.agent .fireCcUpdate], [.host], []],
      let s : State := { pendingState false with sched := q, fault := some .workUnloaded }
      s.fault = some .workUnloaded ∧ ∃ t, step s = .next t := by
  intro q hq
  simp only [List.mem_cons, List.not_mem_nil, or_false] at hq
  rcases hq with rfl | rfl | rfl <;> exact ⟨rfl, _, rfl⟩

theorem witness_lifecycleMoves :
    isLifecycle .commit = false ∧ (∃ t, exec .commit (inState false .operational) = .next t) ∧
      ∃ t, step (nextTurn .fireCcUpdate (pendingState false)) = .next t := by
  refine ⟨rfl, ?_, _, rfl⟩
  exact ⟨_, rfl⟩

theorem witness_triggersAreWritten :
    gives (exec .activate (inState false .initialised)) (fun t => t.trigActivate.armed) = true ∧
      (inState false .initialised).trigActivate.armed = false ∧
      gives (exec .commit (inState false .operational)) (fun t => t.trigCcUpdate.armed) = true ∧
      (inState false .operational).trigCcUpdate.armed = false := by decide

theorem witness_overflowBitsAreSticky :
    (∃ t, exec .close (inState false .operational) = .next t) ∧
      ∃ t, step (nextTurn (.dpOverflow 0) { inState false .operational with datapathActive := true }) = .next t :=
  ⟨⟨_, rfl⟩, _, rfl⟩

/-- A failed commit sets the flag, and CLOSE clears it. -/
theorem witness_commitFatal :
    (pendingState false).commitFatal = false ∧
      gives (exec .commit (pendingState false)) (fun t => t.commitFatal) = true ∧
      gives (exec .close { inState false .operational with commitFatal := true }) (fun t => !t.commitFatal) = true := by
  decide

theorem witness_notReadyRaisesNullHandle :
    (inState false .notReady).lc = .notReady ∧ (inState false .notReady).fault = none ∧ Instr.close ≠ .lookup := by decide

theorem witness_matrixRaisesWrongState :
    (inState false .initialised).lc ≠ .notReady ∧ permits (.addCc .dl 0 0) (inState false .initialised).lc = false ∧
      (inState false .initialised).fault = none := by decide

/-- A UL bank, a single-bank and a dual-bank command in the build that does not have them. -/
theorem witness_bankModeIsRaised :
    permits (.readWork .ul) .initialised = true ∧ bankModeOk (.readWork .ul) (inState false .initialised) = false ∧
      permits .commit .operational = true ∧ bankModeOk .commit (inState true .operational) = false ∧
      bankModeOk .commitSw (inState false .operational) = false ∧ (inState true .operational).fault = none := by decide

theorem witness_unloadedWorkIsRaised :
    let s : State := { inState true .operational with wv := ⟨true, false⟩ }
    permits .setAntGain s.lc = true ∧ bankModeOk .setAntGain s = true ∧ workOk .setAntGain s = false ∧
      workOk (.readWork .ul) s = false ∧ s.lc ≠ .notReady ∧ s.fault = none := by decide

/-- The first index outside each array. -/
theorem witness_indexOutOfBounds :
    let s := withArgs { Args.zero with auxIdx := 2, antIdx := 2 } (inState false .operational)
    (runs (.addAux .dl) s ∧ runs (.removeAux .dl) s ∧ s.build.auxNum ≤ s.args.auxIdx.toNat) ∧
      (runs .setAntGain s ∧ s.cfg = some hwB ∧ hwB.numAntenna ≤ s.args.antIdx.toNat) ∧ s.fault = none := by
  unfold runs; decide

theorem witness_faultChangesNothingElse :
    (inState false .initialised).fault = none ∧ raises .commit (inState false .initialised) .wrongState = true := by decide

theorem witness_failureChangesOnlyTheResponse :
    gives (exec (.addCc .dl 0 2) (withCarrier (inState false .operational)))
      (fun t => t.pos == (inState false .operational).pos + 1 && !t.resp.ok) = true := by decide

/-- One state for each clause of LOOKUP. -/
theorem witness_lookupEffect :
    let s := inState false .notReady
    let u := withArgs { Args.zero with name := ⟨1⟩ } s
    (s.lc = .notReady ∧ s.args.name ∈ s.build.devices ∧ 1 ≤ s.build.registrySize ∧ s.regDraw = false) ∧
      u.args.name ∉ u.build.devices ∧ ({ s with regDraw := true } : State).regDraw = true ∧
      ((inState false .ready).lc ≠ .notReady ∧ (inState false .ready).name = some (inState false .ready).args.name) ∧
      (inState false .ready).name ≠ some u.args.name := by decide

theorem witness_resetEffect : (inState true .ready).lc = .ready := by decide

theorem witness_configureEffect :
    (inState false .reset).lc = .reset ∧
      (let c := (inState false .reset).build.hwcfg
       1 ≤ c.usableCc ∧ c.usableCc ≤ 16 ∧ 1 ≤ c.lanes ∧ 1 ≤ c.numAntenna) ∧
      (let s : State := { inState false .reset with build := { build false with hwcfg := ⟨1, 17, 1, 1, 1, []⟩ } }
       s.lc = .reset ∧ ¬(1 ≤ s.build.hwcfg.usableCc ∧ s.build.hwcfg.usableCc ≤ 16 ∧ 1 ≤ s.build.hwcfg.lanes ∧
         1 ≤ s.build.hwcfg.numAntenna)) := by
  decide

/-- Both boundary lengths, and a pending update on re-initialisation. -/
theorem witness_initialiseEffect :
    let s := inState false .configured
    (s.lc = .configured ∧ s.args.seqLen.toNat ≤ 16 ∧ s.trigCcUpdate.armed = false) ∧
      (withArgs { Args.zero with seqLen := 16 } s).args.seqLen.toNat ≤ 16 ∧
      16 < (withArgs { Args.zero with seqLen := 17 } s).args.seqLen.toNat ∧ s.fault = none ∧
      ({ pendingState false with lc := .initialised } : State).trigCcUpdate.armed = true := by decide

theorem witness_activateAndDeactivate :
    (inState false .initialised).lc = .initialised ∧ (inState false .operational).lc = .operational := by decide

theorem witness_closeEffect : (inState false .ready).lc ≠ .notReady := by decide

theorem witness_getState :
    (inState false .ready).lc = .ready ∧ (inState false .reset).lc = .reset ∧
      (inState false .configured).lc = .configured ∧ (inState false .operational).lc = .operational := by decide

theorem witness_triggerAndStatusImages :
    runs .getTriggersCfg (inState false .configured) ∧ runs .getStatus (inState false .configured) := by
  unfold runs; decide

theorem witness_setTriggers : (inState false .initialised).lc = .initialised := by decide

/-- assignSlots at the boundary L = 8: each outcome of its checks. -/
theorem witness_assignSlots :
    let w : Snapshot := { (withCarrier (inState false .operational)).work.dl with seqLen := seqLenOf 8 }
    (w.seqLen.val ≤ 8 ∧ (0x0100 : SlotMap).getLsbD 8 = true) ∧
      (0 < w.seqLen.val ∧ (0x0001 : SlotMap).getLsbD 0 = true ∧ w.seq[0] ≠ none) ∧
      countOnes 0x000E w.seqLen.val = 3 ∧ countOnes 0x0006 w.seqLen.val = 2 := by decide

theorem witness_deriveRate :
    countOnes 0 16 = 0 ∧ countOnes 0x0007 16 = 3 ∧ countOnes 1 16 = 1 ∧ 1 * (16 / 1) = 2 ^ 4 * 1 ∧
      countOnes 0x00FF 12 = 8 ∧ ¬ 8 ∣ 12 := by decide

/-- Each outcome of checkCapacity, at the boundary of its check. -/
theorem witness_checkCapacity :
    let w := (withCarrier (inState false .operational)).work.dl
    hwB.usableCc ≤ (16 : BitVec 8).toNat ∧ (15 : BitVec 8).toNat < hwB.usableCc ∧
      ((0 : CcId) ≠ 1 ∧ (entry w.cc 0).rate ≠ 0 ∧ (entry w.cc 0).nco.toNat = (0 : BitVec 8).toNat) ∧
      multiplier hwB 4 ∧ slotsInSubBlock w 0 = 4 ∧ slotsInSubBlock w 1 = 0 ∧ countOnes 0x000F 16 = 4 := by
  unfold multiplier; decide

theorem witness_queries :
    let s := inState true .operational
    runs (.countOnes 5) (inState false .ready) ∧ runs (.findUnusedId .ul) s ∧ runs (.checkSlots .ul 1 5) s ∧
      runs (.deriveRate 1) (inState true .initialised) ∧ runs (.checkCapacity .ul .add 1 1) s ∧
      runs .derivePhaseOffset (inState false .ready) ∧ s.cfg = some hwB ∧ s.len = some (seqLenOf 16) ∧
      findUnusedId (s.work.get .ul).seq = some 0 ∧ deriveRate 1 16 1 1 = .ok 5 ∧
      deriveRate 7 16 1 1 = .error .occNotPow2 ∧ checkCapacity (s.work.get .ul) hwB .add 1 0 1 = .ok () ∧
      checkCapacity (s.work.get .ul) hwB .add 1 16 1 = .error .ncoRange := by
  unfold runs; decide

theorem witness_checkSlots :
    (∃ w, assignSlots (inState false .operational).work.dl 1 3 = .ok w) ∧
      assignSlots (inState false .operational).work.dl 1 7 = .error .occNotPow2 := ⟨⟨_, rfl⟩, rfl⟩

theorem witness_emptyConfigurationAndReadWork :
    runs (.getEmptyCfg .ul) (inState true .initialised) ∧ (inState true .initialised).len = some (seqLenOf 16) ∧
      runs (.readWork .ul) (inState true .initialised) := by
  unfold runs; decide

/-- A pending update with no turn of TRIG's, and with a fire after two unit accesses. -/
def pendingWith (sw : Bool) (q : List Turn) : State := { pendingState sw with sched := q }

theorem firing (sw : Bool) (n : Nat) (h : 2 ≤ n) :
    firesAfter (turnsUsed (pendingWith sw [.host, .agent .fireCcUpdate]).sched n) 2
      (pendingWith sw [.host, .agent .fireCcUpdate]) := by
  obtain ⟨m, rfl⟩ : ∃ m, n = m + 2 := ⟨n - 2, by omega⟩
  exact ⟨rfl, rfl, [.host], [], by simp [pendingWith, turnsUsed], by simp, rfl⟩

/-- The quiet schedules: nothing pending, or pending with no fire among the turns used up. -/
theorem witness_readBack :
    let s := inState false .initialised
    let d := inState true .initialised
    runs .getCurrentCfg s ∧ noFireAmong (turnsUsed s.sched (unitCount s.build)) s ∧ s.cur.dl.fits s.build ∧
      runs .getCurrentCfgSw d ∧ noFireAmong (turnsUsed d.sched (2 * unitCount d.build)) d ∧ d.cur.dl.fits d.build ∧
      d.cur.ul.fits d.build ∧
      (∀ sw n, noFireAmong (turnsUsed (pendingState sw).sched n) (pendingState sw)) ∧
      runs .getCurrentCfg (pendingState false) ∧ runs .getCurrentCfgSw (pendingState true) :=
  ⟨by unfold runs; decide, .inl rfl, by unfold HwBank.fits; decide, by unfold runs; decide, .inl rfl,
    by unfold HwBank.fits; decide, by unfold HwBank.fits; decide,
    fun _ _ => .inr (.inr (List.not_mem_nil : Turn.agent .fireCcUpdate ∉ ([] : List Turn))), by unfold runs; decide,
    by unfold runs; decide⟩

/-- A fire among the reads. -/
theorem witness_tornReadBack :
    let s := pendingWith false [.host, .agent .fireCcUpdate]
    let d := pendingWith true [.host, .agent .fireCcUpdate]
    (runs .getCurrentCfg s ∧ s.cur.dl.fits s.build ∧ s.nxt.dl.fits s.build ∧
      firesAfter (turnsUsed s.sched (unitCount s.build)) 2 s) ∧
    (runs .getCurrentCfgSw d ∧ (∀ b, (d.cur.get b).fits d.build ∧ (d.nxt.get b).fits d.build) ∧
      firesAfter (turnsUsed d.sched (2 * unitCount d.build)) 2 d) :=
  ⟨⟨by unfold runs; decide, by unfold HwBank.fits; decide, by unfold HwBank.fits; decide, firing _ _ (by decide)⟩,
    by unfold runs; decide, fun b => by unfold HwBank.fits; cases b <;> decide, firing _ _ (by decide)⟩

theorem witness_addCarrier :
    let s := inState false .operational
    runs (.addCc .dl 0 0x1111) s ∧ s.cfg = some hwB ∧ (entry (s.work.get .dl).cc 0).rate = 0 ∧
      checkCapacity (s.work.get .dl) hwB .add 0 s.args.nco 0x1111 = .ok () ∧
      (∃ w', assignSlots (s.work.get .dl) 0 0x1111 = .ok w') ∧
      deriveRate 0x1111 (s.work.get .dl).seqLen.val hwB.antInterleave hwB.mixerCps = .ok 3 :=
  ⟨by unfold runs; decide, by decide, by decide, by decide, ⟨_, rfl⟩, by decide⟩

/-- One operand for each way ADD_CC can fail: cc0 is active, NCO 0 in use, slot 0 taken, the ratio not exact. -/
theorem witness_addCarrier_fails :
    let c := withCarrier (inState false .operational)
    let hw3 : HwCfg := { hwB with mixerCps := 3 }
    (runs (.addCc .dl 0 2) c ∧ c.cfg = some hwB ∧ (entry (c.work.get .dl).cc 0).rate ≠ 0) ∧
      (runs (.addCc .dl 1 2) c ∧ (entry (c.work.get .dl).cc 1).rate = 0 ∧
        checkCapacity (c.work.get .dl) hwB .add 1 0 2 = .error .ncoInUse) ∧
      (runs (.addCc .dl 1 1) c ∧ checkCapacity (c.work.get .dl) hwB .add 1 4 1 = .ok () ∧
        assignSlots (c.work.get .dl) 1 1 = .error .slotCollision) ∧
      (runs (.addCc .dl 1 2) { c with cfg := some hw3 } ∧
        checkCapacity (c.work.get .dl) hw3 .add 1 4 2 = .ok () ∧ (∃ w', assignSlots (c.work.get .dl) 1 2 = .ok w') ∧
        deriveRate 2 16 1 3 = .error .rateInvalid) := by
  unfold runs
  exact ⟨by decide, by decide, ⟨by decide, by decide, rfl⟩, by decide, by decide, ⟨_, rfl⟩, by decide⟩

theorem witness_removeCarrier : runs (.removeCc .ul 15) (inState true .operational) := by unfold runs; decide

theorem witness_updateAndMoveCarrier :
    let s := withCarrier (inState false .operational)
    runs (.updateCc .dl 0) s ∧ runs (.moveCc .dl 0) s ∧ s.cfg = some hwB ∧
      checkCapacity (s.work.get .dl) hwB .update 0 s.args.nco 0 = .ok () ∧
      checkCapacity (s.work.get .dl) hwB .update 1 s.args.nco 0 = .error .ncoInUse := by
  unfold runs; decide

theorem witness_auxiliary :
    let s := withArgs { Args.zero with auxIdx := 1 } (inState false .operational)
    s.args.auxIdx.toNat < s.build.auxNum ∧ (s.work.get .dl).aux.length = s.build.auxNum ∧
      runs (.addAux .dl) s ∧ runs (.removeAux .dl) s := by
  unfold runs; decide

theorem witness_antennaGain :
    let s := withArgs { Args.zero with antIdx := 1, antGains := [0, 0] } (inState true .operational)
    s.cfg = some hwB ∧ runs .setAntGain s ∧ s.args.antIdx.toNat < hwB.numAntenna ∧
      (∀ b, (s.work.get b).antGain.length = hwB.numAntenna) ∧ runs .setAllAntGain s ∧
      s.args.antGains.length = hwB.numAntenna ∧ s.build.switchable = true ∧
      runs .setAntGain (inState false .operational) ∧
      ∀ gs ∈ [[], [0], [0, 0, 0]],
        let t := withArgs { Args.zero with antGains := gs } (inState true .operational)
        runs .setAllAntGain t ∧ t.args.antGains.length ≠ hwB.numAntenna := by
  refine ⟨by decide, by unfold runs; decide, by decide, fun b => by cases b <;> decide, by unfold runs; decide, by decide,
    by decide, by unfold runs; decide, fun gs hg => ?_⟩
  simp only [List.mem_cons, List.not_mem_nil, or_false] at hg
  rcases hg with rfl | rfl | rfl <;> exact ⟨by unfold runs; decide, by decide⟩

theorem witness_builderWritesOnlyWork :
    isBuilder (.removeCc .dl 0) = true ∧ (∃ t, exec (.removeCc .dl 0) (inState false .operational) = .next t) ∧
      ∃ t, exec (.getEmptyCfg .dl) (inState false .initialised) = .next t := ⟨rfl, ⟨_, rfl⟩, _, rfl⟩

/-- Blank WORK is sound and coherent. -/
theorem blank_sound (bd : Build) (l : SeqLen) : (Snapshot.blank bd l).sound :=
  ⟨show some 0 = findUnusedId (Vector.replicate 16 none) by decide, fun i _ => by simp [Snapshot.blank]⟩

theorem blank_coherent (bd : Build) (l : SeqLen) : (Snapshot.blank bd l).coherent := by
  intro c
  have h : occCount (Snapshot.blank bd l) c = 0 := by simp [occCount, holds, Snapshot.blank]
  have r : ccActive (entry (Snapshot.blank bd l).cc c) = false := by
    simp [entry, Snapshot.blank, ccActive, CcDesc.zero, rateDisabled]
  simp [h, r]; decide

theorem inState_sound (sw : Bool) (l : Lifecycle) (b : Bank) : ((inState sw l).work.get b).sound := by
  cases b <;> exact blank_sound _ _

theorem witness_addThenRemove :
    ((inState false .operational).work.get .dl).sound ∧ ((inState false .operational).work.get .dl).coherent ∧
      (inState false .operational).fault = none ∧
      gives (exec (.addCc .dl 0 0x1111) (inState false .operational)) (fun t => t.pos == 1 && t.resp.ok) = true :=
  ⟨inState_sound _ _ _, blank_coherent _ _, rfl, by decide⟩

theorem witness_builderKeepsOccupancy :
    isBuilder (.addCc .dl 0 0x1111) = true ∧
      gives (exec (.addCc .dl 0 0x1111) (inState false .operational)) (fun t => loaded t .dl) = true ∧
      ∀ b, ((inState false .operational).work.get b).sound ∧ ((inState false .operational).work.get b).coherent :=
  ⟨rfl, by decide, fun b => ⟨inState_sound false .operational b, by cases b <;> exact blank_coherent _ _⟩⟩

theorem witness_commit :
    (∀ s, s = inState false .operational ∨ s = pendingWith false [.host, .agent .fireCcUpdate] →
      runs .commit s ∧ s.work.dl.sound ∧ s.work.dl.fits s.build ∧ s.nxt.dl.fits s.build ∧ s.hwInReset = false) ∧
      (inState false .operational).trigCcUpdate.armed = false ∧
      firesAfter (turnsUsed (pendingWith false [.host, .agent .fireCcUpdate]).sched (unitCount (build false))) 2
        (pendingWith false [.host, .agent .fireCcUpdate]) := by
  refine ⟨?_, rfl, firing _ _ (by decide)⟩
  rintro s (rfl | rfl)
  · exact ⟨by unfold runs; decide, blank_sound _ _, by unfold Snapshot.fits; decide, by unfold HwBank.fits; decide, rfl⟩
  · exact ⟨by unfold runs; decide, blank_sound _ _, by unfold Snapshot.fits; decide, by unfold HwBank.fits; decide, rfl⟩

/-- The activation trigger fires among the writes, the update trigger does not. -/
theorem witness_pendingCommit :
    let s := pendingWith false [.agent .fireActivate, .host]
    runs .commit s ∧ s.work.dl.sound ∧ s.work.dl.fits s.build ∧ s.nxt.dl.fits s.build ∧ s.trigCcUpdate.armed = true ∧
      noFireAmong (turnsUsed s.sched (unitCount s.build)) s :=
  ⟨by unfold runs; decide, blank_sound _ _, by unfold Snapshot.fits; decide, by unfold HwBank.fits; decide, rfl,
    .inr (.inr (by decide))⟩

theorem witness_dualCommit :
    (∀ s, s = inState true .operational ∨ s = pendingState true ∨ s = pendingWith true [.host, .agent .fireCcUpdate] →
      runs .commitSw s ∧ s.hwInReset = false ∧
        (∀ b, (s.work.get b).sound ∧ (s.work.get b).fits s.build ∧ (s.nxt.get b).fits s.build)) ∧
      (inState true .operational).trigCcUpdate.armed = false ∧ (pendingState true).trigCcUpdate.armed = true ∧
      noFireAmong (turnsUsed (pendingState true).sched (2 * unitCount (build true))) (pendingState true) ∧
      firesAfter (turnsUsed (pendingWith true [.host, .agent .fireCcUpdate]).sched (2 * unitCount (build true))) 2
        (pendingWith true [.host, .agent .fireCcUpdate]) := by
  refine ⟨?_, rfl, rfl, .inr (.inr (by decide)), firing _ _ (by decide)⟩
  have main : ∀ s : State, s.work = (inState true .operational).work → s.nxt = (inState true .operational).nxt →
      s.build = build true →
      ∀ b, (s.work.get b).sound ∧ (s.work.get b).fits s.build ∧ (s.nxt.get b).fits s.build := by
    intro s hw hn hb b
    rw [hw, hn, hb]
    exact ⟨inState_sound _ _ b, by unfold Snapshot.fits; cases b <;> decide, by unfold HwBank.fits; cases b <;> decide⟩
  rintro s (rfl | rfl | rfl) <;> exact ⟨by unfold runs; decide, rfl, main _ rfl rfl rfl⟩

/-- The fire of point 4 of R207: after every unit of DL and one of UL, the first k for which UL is torn. -/
theorem witness_fireBetweenBanks :
    let s := pendingWith true (List.replicate 53 .host ++ [.agent .fireCcUpdate])
    unitCount s.build = 53 ∧ firesAfter (turnsUsed s.sched (2 * unitCount s.build)) 54 s :=
  ⟨rfl, rfl, rfl, List.replicate 53 .host, [], by decide, by decide, by decide⟩

theorem witness_powerOnFits :
    (∀ b, ((Launch.zero (build true)).cur.get b).fits (build true)) ∧
      ∀ b, ((Launch.zero (build true)).nxt.get b).fits (build true) := by
  unfold HwBank.fits
  exact ⟨fun b => by cases b <;> decide, fun b => by cases b <;> decide⟩

/-- An operational state, loaded and with an update pending, meets the invariant and has a step. -/
theorem witness_invariant :
    (pendingState true).Inv ∧ (∃ t, step (nextTurn .fireCcUpdate (pendingState true)) = .next t) ∧
      (nextTurn .fireCcUpdate (pendingState true)).Inv := by
  have fits : (∀ b, ((pendingState true).work.get b).fits (build true)) ∧
      (∀ b, ((pendingState true).cur.get b).fits (build true)) ∧
      ∀ b, ((pendingState true).nxt.get b).fits (build true) := by
    unfold HwBank.fits Snapshot.fits
    exact ⟨fun b => by cases b <;> decide, fun b => by cases b <;> decide, fun b => by cases b <;> decide⟩
  have lens : ∀ b, ((pendingState true).cur.get b).seqLen = seqLenOf 16 ∧
      ((pendingState true).nxt.get b).seqLen = seqLenOf 16 ∧
      (loaded (pendingState true) b = true → ((pendingState true).work.get b).seqLen = seqLenOf 16) :=
    fun b => by cases b <;> exact ⟨rfl, rfl, fun _ => rfl⟩
  have main : (pendingState true).Inv :=
    ⟨fits.1, fits.2.1, fits.2.2, by decide, fun _ => by decide, fun _ => ⟨rfl, _, rfl, fun b _ => lens b⟩,
      fun b _ => ⟨rfl, by cases b <;> rfl, inState_sound true .operational b⟩, by decide, by decide, by decide, by decide,
      rfl⟩
  exact ⟨main, ⟨_, rfl⟩, ⟨main.1, main.2, main.3, main.4, main.5, main.6, main.7, main.8, main.9, main.10, main.11,
    main.12⟩⟩

theorem witness_rateCodesStayLegal :
    ∀ b, ratesLegal ((pendingState true).cur.get b).cc ∧ ratesLegal ((pendingState true).nxt.get b).cc ∧
      ratesLegal ((pendingState true).work.get b).cc := by
  have h : ratesLegal (Vector.replicate 16 CcDesc.zero) := fun c => by simp [entry, CcDesc.zero]
  intro b; cases b <;> exact ⟨h, h, h⟩

end Sys2Proof.Tests
end

section
/-! SUPPORT. What one command, and one step, can do to the registers, said once: CommandEffect lists the cases, and
exec_effect and step_keeps are the inversion and the induction that the statements about all commands and all steps
cite. -/

namespace Sys2Proof.Machine

open Sys2Proof Sys2Proof.Claims

/-! ### Fields no invariant speaks of -/

/-- t is s but for HOST's position, the schedule, the command port, the fault record, TUSER_SEL, the placeholder caches
and the model's draws. -/
def BookkeepingOnly (s t : State) : Prop :=
  t = { s with
    pos := t.pos, sched := t.sched, cmd := t.cmd, args := t.args, resp := t.resp, fault := t.fault
    tuserSel := t.tuserSel, notUsed := t.notUsed, draws := t.draws, regDraw := t.regDraw }

theorem BookkeepingOnly.trans {s t u : State} (h : BookkeepingOnly s t) (k : BookkeepingOnly t u) :
    BookkeepingOnly s u := by
  unfold BookkeepingOnly at *
  rw [h] at k
  exact k

theorem BookkeepingOnly.respondOk (p : Payload) (s : State) : BookkeepingOnly s (respondOk p s) := rfl
theorem BookkeepingOnly.respondFail (k : FailCause) (s : State) : BookkeepingOnly s (respondFail k s) := rfl
theorem BookkeepingOnly.raise (c : FaultCause) (s : State) : BookkeepingOnly s (raise c s) := rfl
theorem BookkeepingOnly.withSched (s : State) (q : List Turn) : BookkeepingOnly s { s with sched := q } := rfl
theorem BookkeepingOnly.latchCommand (c : Command) (s : State) : BookkeepingOnly s (latchCommand c s) := rfl
theorem BookkeepingOnly.drawRegistry (s : State) : BookkeepingOnly s (drawRegistry s) := rfl

theorem respondCheck_bookkeeping {α : Type} (r : Except FailCause α) (p : α → Payload) (s : State) :
    BookkeepingOnly s (respondCheck r p s) := by
  cases r <;> rfl

theorem endBringup_bookkeeping (c : Command) (s : State) : BookkeepingOnly s (endBringup c s) := by
  rw [endBringup_frame]; rfl

/-! ### Edits of a WORK snapshot -/

/-- What a builder command may do to a snapshot: the sequence length stays, the files keep their lengths (or the gains get
the length of the capability constants), soundness is kept (R118), and a rate code stays or is a legal one (R18). -/
structure EditOf (s : State) (old new : Snapshot) : Prop where
  seqLen : new.seqLen = old.seqLen
  aux : new.aux.length = old.aux.length
  antGain : new.antGain.length = old.antGain.length ∨
    ∃ cfg, s.cfg = some cfg ∧ new.antGain.length = cfg.numAntenna
  sound : old.sound → new.sound
  rates : ∀ c, (entry new.cc c).rate = (entry old.cc c).rate ∨ (entry new.cc c).rate.toNat ≤ 5

theorem EditOf.refl (s : State) (w : Snapshot) : EditOf s w w := ⟨rfl, rfl, .inl rfl, id, fun _ => .inl rfl⟩

/-- Soundness speaks of the sequence, its length and its placeholder alone. -/
theorem Snapshot.sound.of_seq_kept {old new : Snapshot} (h : old.sound) (hl : new.seqLen = old.seqLen)
    (hs : new.seq = old.seq) (hn : new.notUsed = old.notUsed) : new.sound := by
  unfold Snapshot.sound; rw [hl, hs, hn]; exact h

theorem Snapshot.sound.withCc {w : Snapshot} (h : w.sound) (cc : Vector CcDesc 16) :
    Snapshot.sound { w with cc := cc } := h

/-- An edit that keeps the sequence and its placeholder keeps soundness. -/
theorem EditOf.of_seq_kept {s : State} {old new : Snapshot} (hl : new.seqLen = old.seqLen) (hs : new.seq = old.seq)
    (hn : new.notUsed = old.notUsed) (ha : new.aux.length = old.aux.length)
    (hg : new.antGain.length = old.antGain.length ∨ ∃ cfg, s.cfg = some cfg ∧ new.antGain.length = cfg.numAntenna)
    (hr : ∀ c, (entry new.cc c).rate = (entry old.cc c).rate) : EditOf s old new where
  seqLen := hl
  aux := ha
  antGain := hg
  sound h := h.of_seq_kept hl hs hn
  rates c := .inl (hr c)

@[simp] theorem Snapshot.withSeq_seqLen (w : Snapshot) (seq : Vector (Option CcId) 16) :
    (w.withSeq seq).seqLen = w.seqLen := rfl
@[simp] theorem Snapshot.withSeq_cc (w : Snapshot) (seq : Vector (Option CcId) 16) : (w.withSeq seq).cc = w.cc := rfl
@[simp] theorem Snapshot.withSeq_aux (w : Snapshot) (seq : Vector (Option CcId) 16) : (w.withSeq seq).aux = w.aux := rfl
@[simp] theorem Snapshot.withSeq_antGain (w : Snapshot) (seq : Vector (Option CcId) 16) :
    (w.withSeq seq).antGain = w.antGain := rfl

/-- A sequence whose slots at or above the sequence length are NONE makes a sound snapshot (R117, R118). -/
theorem Snapshot.withSeq_sound {w : Snapshot} {seq : Vector (Option CcId) 16}
    (h : ∀ i : Fin 16, w.seqLen.val ≤ i.val → seq[i] = none) : (w.withSeq seq).sound := ⟨rfl, h⟩

/-- The codes of the five ratios are those of R18, the greatest 5. -/
theorem rateOfRatio_le {n : Nat} {r : RateCode} (h : rateOfRatio n = some r) : r.toNat ≤ 5 := by
  unfold rateOfRatio at h
  split at h <;> simp at h <;> subst h <;> decide

theorem deriveRate_le {map : SlotMap} {len ai cps : Nat} {r : RateCode} (h : deriveRate map len ai cps = .ok r) :
    r.toNat ≤ 5 := by
  simp only [deriveRate] at h
  split at h
  · cases h; decide
  split at h
  · cases h
  split at h
  · cases h
  split at h
  · cases h
  split at h
  · cases h
  split at h
  · next hr => exact Except.ok.inj h ▸ rateOfRatio_le hr
  · cases h

/-- Replacing entry c changes no other carrier's rate code. -/
theorem rate_setEntry (cc : Vector CcDesc 16) (c d : CcId) (x : CcDesc) :
    (entry (setEntry cc c x) d).rate = if d = c then x.rate else (entry cc d).rate := by
  rw [entry_setEntry]; split <;> rfl

theorem assignSlots_ok {w w' : Snapshot} {c : CcId} {map : SlotMap} (h : assignSlots w c map = .ok w') :
    w' = w.withSeq (Vector.ofFn fun i : Fin 16 => if selects w map i then some c else w.seq[i]) := by
  unfold assignSlots at h
  split at h
  · cases h
  · split at h
    · cases h
    · split at h
      · exact (Except.ok.inj h).symm
      · cases h

/-- Assigned slots lie below the sequence length, so soundness is kept. -/
theorem assignSlots_sound {w w' : Snapshot} {c : CcId} {map : SlotMap} (h : assignSlots w c map = .ok w')
    (hw : w.sound) : w'.sound := by
  rw [assignSlots_ok h]
  refine Snapshot.withSeq_sound fun i hi => ?_
  have : selects w map i = false := by simp [selects, hi]
  simpa [this] using hw.2 i hi

theorem releaseSlots_sound {w : Snapshot} (c : CcId) (hw : w.sound) : (releaseSlots w c).sound := by
  refine Snapshot.withSeq_sound fun i hi => ?_
  have := hw.2 i hi
  simp_all

theorem addCarrier_edit {s : State} {w w' : Snapshot} {cfg : HwCfg} {c : CcId} {map : SlotMap} {a : Args}
    (h : addCarrier w cfg c map a = .ok w') : EditOf s w w' := by
  unfold addCarrier at h
  split at h
  · cases h
  split at h
  · cases h
  split at h
  · cases h
  next w1 hw1 =>
  split at h
  · cases h
  next r hr =>
  obtain rfl := Except.ok.inj h
  have e := assignSlots_ok hw1
  refine ⟨by simp [e], by simp [e], .inl (by simp [e]),
    fun hs => (assignSlots_sound hw1 hs).of_seq_kept rfl rfl rfl, fun d => ?_⟩
  simp only [rate_setEntry]
  split
  · exact .inr (deriveRate_le hr)
  · exact .inl (by simp [e])

theorem removeCarrier_edit (s : State) (w : Snapshot) (c : CcId) : EditOf s w (removeCarrier w c) where
  seqLen := by simp [removeCarrier, releaseSlots]
  aux := by simp [removeCarrier, releaseSlots]
  antGain := .inl (by simp [removeCarrier, releaseSlots])
  sound h := (releaseSlots_sound c h).withCc _
  rates d := by
    simp only [removeCarrier, releaseSlots, Snapshot.withSeq_cc, rate_setEntry]
    split
    · exact .inr (show rateDisabled.toNat ≤ 5 by decide)
    · exact .inl rfl

theorem placeCarrier_edit (s : State) (w : Snapshot) (c : CcId) (a : Args) (nco : Vector NcoDesc 16) :
    EditOf s w { placeCarrier w c a with nco := nco } := by
  refine .of_seq_kept rfl rfl rfl rfl (.inl rfl) fun d => ?_
  simp only [placeCarrier, rate_setEntry]
  split
  · next h => rw [h]
  · rfl

theorem updateCarrier_edit {s : State} {w w' : Snapshot} {cfg : HwCfg} {c : CcId} {a : Args}
    (h : updateCarrier w cfg c a = .ok w') : EditOf s w w' := by
  unfold updateCarrier at h
  split at h
  · cases h
  · obtain rfl := Except.ok.inj h
    exact placeCarrier_edit s w c a _

theorem moveCarrier_edit {s : State} {w w' : Snapshot} {cfg : HwCfg} {c : CcId} {a : Args}
    (h : moveCarrier w cfg c a = .ok w') : EditOf s w w' := by
  unfold moveCarrier at h
  split at h
  · cases h
  · obtain rfl := Except.ok.inj h
    exact placeCarrier_edit s w c a _

theorem setAux_edit (s : State) (w : Snapshot) (a : Nat) (d : AuxDesc) : EditOf s w (setAux w a d) :=
  .of_seq_kept rfl rfl rfl (by simp [setAux]) (.inl rfl) fun _ => rfl

/-! ### The effect of a command -/

/-- The writes of a commit into NXT, before it arms (R204, R205). -/
def commitWrites : Instr → State → Option State
  | .commit, s => writeBank .dl s
  | .commitSw, s => writeBothBanks s
  | _, _ => none

/-- The banks that a commit writes. -/
def commitBank : Instr → Bank → Bool
  | .commit, b => b == .dl
  | .commitSw, _ => true
  | _, _ => false

/-- What a command does to the registers when it is in a state that the matrix permits: nothing, or one of the effects of
R233 to R241, R164 to R176 and R202 to R211. Bookkeeping is left out. -/
inductive CommandEffect (s : State) : Instr → State → Prop
  | kept (i : Instr) : CommandEffect s i s
  | bound (hl : s.lc = .notReady) : CommandEffect s .lookup { s with name := some s.args.name, lc := .ready }
  | reset (hl : s.lc = .ready) : CommandEffect s .reset (resetState s)
  | configured (hl : s.lc = .reset) (hc : s.build.hwcfg.wellFormed = true) :
      CommandEffect s .configure { s with
        cfg := some s.build.hwcfg
        hwInReset := false
        wv := s.wv.onBanks s.build.switchable (fun _ _ => false)
        lc := .configured }
  | initialised (l : SeqLen) (hl : s.lc = .configured ∨ s.lc = .initialised) (hu : s.trigCcUpdate.armed = false) :
      CommandEffect s .initialise (initialiseState l s)
  | activated (hl : s.lc = .initialised) :
      CommandEffect s .activate { s with trigActivate := { s.trigActivate with armed := true }, lc := .operational }
  | deactivated (hl : s.lc = .operational) :
      CommandEffect s .deactivate { s with
        trigActivate := { s.trigActivate with armed := false }, datapathActive := false, lc := .initialised }
  | closed : CommandEffect s .close (closeState s)
  | triggersSet (a u : TriggerCfg) :
      CommandEffect s .setTriggersCfg { s with
        trigActivate := configureTrigger a s.trigActivate, trigCcUpdate := configureTrigger u s.trigCcUpdate }
  | readBack (hl : inInitialisedOrOperational s.lc = true) : CommandEffect s .getCurrentCfg (loadCurrent .dl s)
  | bothReadBack (hl : inInitialisedOrOperational s.lc = true) (hb : s.build.switchable = true) :
      CommandEffect s .getCurrentCfgSw (loadBothBanks s)
  | emptied (b : Bank) (l : SeqLen) (hl : inInitialisedOrOperational s.lc = true) (hb : bankExists s b = true)
      (hn : s.len = some l) :
      CommandEffect s (.getEmptyCfg b) { s with
        work := s.work.set b (Snapshot.blank s.build l), wv := s.wv.set b true }
  | edited (i : Instr) (w : PerBank Snapshot) (hl : s.lc = .operational)
      (he : ∀ b, EditOf s (s.work.get b) (w.get b)) : CommandEffect s i { s with work := w }
  | armed {i : Instr} {u : State} (hl : s.lc = .operational)
      (hw : ∀ b, commitBank i b = true → bankExists s b = true ∧ loaded s b = true)
      (hu : commitWrites i s = some u) :
      CommandEffect s i { u with trigCcUpdate := { u.trigCcUpdate with armed := true } }
  | pending {i : Instr} {u : State} (hl : s.lc = .operational)
      (hw : ∀ b, commitBank i b = true → bankExists s b = true ∧ loaded s b = true)
      (hu : commitWrites i s = some u) (hp : u.trigCcUpdate.armed = true) :
      CommandEffect s i { u with commitFatal := true }

/-- t is an effect of the command on s, with any bookkeeping. -/
def Does (i : Instr) (s t : State) : Prop := ∃ u, CommandEffect s i u ∧ BookkeepingOnly u t

/-- Changing one WORK bank by an edit is an edit of all of them. -/
theorem CommandEffect.editedAt (i : Instr) {s : State} {b : Bank} {w : Snapshot} (hl : s.lc = .operational)
    (he : EditOf s (s.work.get b) w) : CommandEffect s i (writeWork b w s) := by
  refine .edited i _ hl fun x => ?_
  by_cases hx : x = b
  · subst hx; simpa using he
  · rw [PerBank.get_set_other _ _ hx]; exact .refl s _

theorem does_kept {i : Instr} {s t : State} (h : BookkeepingOnly s t) : Does i s t := ⟨s, .kept i, h⟩

/-- A command whose outcome is this next state does what leads to it. -/
theorem does_of_next {i : Instr} {s u t : State}
    (h : (Host.Outcome.next u : Host.Outcome State Fault Refusal) = .next t) (d : Does i s u) : Does i s t :=
  Host.Outcome.next.inj h ▸ d

theorem does_respondOk {i : Instr} {s u : State} (e : CommandEffect s i u) (p : Payload) : Does i s (respondOk p u) :=
  ⟨u, e, .respondOk p u⟩

/-- A builder command writes its edit or reports a failure. -/
theorem does_buildWork (i : Instr) {s : State} {b : Bank} {r : Except FailCause Snapshot} (hl : s.lc = .operational)
    (he : ∀ w, r = .ok w → EditOf s (s.work.get b) w) : Does i s (buildWork b r s) := by
  cases r with
  | ok w => exact ⟨_, .editedAt i hl (he w rfl), rfl⟩
  | error k => exact does_kept rfl

/-- A commit whose writes are done arms the trigger, or leaves commitFatal behind. -/
theorem does_finishCommit {i : Instr} {s u : State} {cache : State → State}
    (hc : ∀ v, BookkeepingOnly v (cache v)) (hl : s.lc = .operational)
    (hw : ∀ b, commitBank i b = true → bankExists s b = true ∧ loaded s b = true) (hu : commitWrites i s = some u) :
    Does i s (finishCommit cache u) := by
  rcases finishCommit_cases cache u with ⟨-, e⟩ | ⟨ha, e⟩
  · exact ⟨_, .armed hl hw hu, e ▸ (hc _).trans rfl⟩
  · exact ⟨_, .pending hl hw hu ha, e ▸ rfl⟩

/-- The WORK check of R257, bank by bank. -/
theorem workOk_iff {i : Instr} {s : State} :
    workOk i s = true ↔ ∀ b, readsWork i s b = true → loaded s b = true := by
  simp only [workOk, Bool.and_eq_true, Bool.or_eq_true, Bool.not_eq_true']
  constructor
  · rintro ⟨hd, hu⟩ b hb
    cases b
    · exact hd.resolve_left (by simp [hb])
    · exact hu.resolve_left (by simp [hb])
  · intro h
    exact ⟨or_iff_not_imp_left.mpr fun k => h .dl (by simpa using k),
      or_iff_not_imp_left.mpr fun k => h .ul (by simpa using k)⟩

theorem withCfg_eq_next {s t : State} {f : HwCfg → Host.Outcome State Fault Refusal} :
    withCfg s f = .next t ↔ ∃ cfg, s.cfg = some cfg ∧ f cfg = .next t := by
  unfold withCfg; cases s.cfg <;> simp

theorem withLen_eq_next {s t : State} {f : SeqLen → Host.Outcome State Fault Refusal} :
    withLen s f = .next t ↔ ∃ l, s.len = some l ∧ f l = .next t := by
  unfold withLen; cases s.len <;> simp

/-- All that LOOKUP can do (R233). -/
theorem lookupState_effect (s : State) : Does .lookup s (lookupState s) := by
  unfold lookupState
  split
  · next hl =>
    split
    · exact does_kept (.respondFail _ s)
    · split
      · exact does_kept ((BookkeepingOnly.drawRegistry s).trans (.respondFail _ _))
      · exact ⟨_, .bound hl, rfl⟩
  · split
    · exact does_kept (.respondOk _ s)
    · exact does_kept (.raise _ s)

/-- The body of a builder command makes an edit of each WORK bank, or reports a failure (R161). -/
theorem bodyOf_builder_effect {i : Instr} {s t : State} (hi : isBuilder i = true) (hl : s.lc = .operational)
    (h : bodyOf i s = .next t) : Does i s t := by
  cases i
  case addCc b c m =>
    obtain ⟨cfg, -, h⟩ := withCfg_eq_next.mp h
    exact does_of_next h (does_buildWork _ hl fun w => addCarrier_edit)
  case removeCc b c =>
    exact does_of_next h (does_buildWork _ hl fun w e => Except.ok.inj e ▸ removeCarrier_edit s _ c)
  case updateCc b c =>
    obtain ⟨cfg, -, h⟩ := withCfg_eq_next.mp h
    exact does_of_next h (does_buildWork _ hl fun w => updateCarrier_edit)
  case moveCc b c =>
    obtain ⟨cfg, -, h⟩ := withCfg_eq_next.mp h
    exact does_of_next h (does_buildWork _ hl fun w => moveCarrier_edit)
  case addAux b =>
    exact does_of_next h (does_buildWork _ hl fun w e => Except.ok.inj e ▸ setAux_edit s _ _ _)
  case removeAux b =>
    exact does_of_next h (does_buildWork _ hl fun w e => Except.ok.inj e ▸ setAux_edit s _ _ _)
  case setAntGain =>
    obtain ⟨cfg, -, h⟩ := withCfg_eq_next.mp h
    refine does_of_next h (does_respondOk (.edited _ _ hl fun b => ?_) _)
    rw [PerBank.get_onBanks]
    split
    · exact .of_seq_kept rfl rfl rfl rfl (.inl (by simp)) fun _ => rfl
    · exact .refl s _
  case setAllAntGain =>
    obtain ⟨cfg, hc, h⟩ := withCfg_eq_next.mp h
    refine does_of_next h ⟨_, .edited _ _ hl fun b => ?_, rfl⟩
    rw [PerBank.get_onBanks]
    split
    · exact .of_seq_kept rfl rfl rfl rfl (.inr ⟨cfg, hc, by simp⟩) fun _ => rfl
    · exact .refl s _
  all_goals cases hi

/-- All that the body of a command can do where its checks have passed. -/
theorem bodyOf_effect {i : Instr} {s t : State} (hp : permits i s.lc = true) (hb : bankModeOk i s = true)
    (hw : ∀ b, readsWork i s b = true → loaded s b = true) (h : bodyOf i s = .next t) : Does i s t := by
  cases i
  case lookup => exact does_of_next h (lookupState_effect s)
  case reset => exact does_of_next h (does_respondOk (.reset (by simpa [permits] using hp)) _)
  case configure =>
    simp only [bodyOf] at h
    split at h
    · next hc => exact does_of_next h (does_respondOk (.configured (by simpa [permits] using hp) hc) _)
    · cases h
  case initialise =>
    refine does_of_next h ?_
    split
    · exact does_kept (.respondFail _ s)
    · next hu => exact does_respondOk (.initialised _ (by simpa [permits] using hp) (by simpa using hu)) _
  case activate =>
    refine does_of_next h ?_
    split
    · exact does_kept (.respondOk _ s)
    · next hn => exact does_respondOk (.activated (by simpa [permits, hn] using hp)) _
  case deactivate =>
    refine does_of_next h ?_
    split
    · exact does_kept (.respondOk _ s)
    · next hn => exact does_respondOk (.deactivated (by simpa [permits, hn] using hp)) _
  case close => exact does_of_next h (does_respondOk .closed _)
  case setTriggersCfg => exact does_of_next h (does_respondOk (.triggersSet _ _) _)
  case getCurrentCfg => exact does_of_next h (does_respondOk (.readBack hp) _)
  case getCurrentCfgSw => exact does_of_next h (does_respondOk (.bothReadBack hp hb) _)
  case getEmptyCfg b =>
    obtain ⟨l, hn, h⟩ := withLen_eq_next.mp h
    have hx : bankExists s b = true := by cases b <;> simp_all [bankModeOk, Instr.bankOperand, bankExists]
    exact does_of_next h (does_respondOk (.emptied b l hp hx hn) _)
  case addCc | removeCc | updateCc | moveCc | addAux | removeAux | setAntGain | setAllAntGain =>
    exact bodyOf_builder_effect rfl (by simpa [permits] using hp) h
  case commit =>
    simp only [bodyOf] at h
    split at h
    · cases h
    · next u hu =>
      refine does_of_next h (does_finishCommit (fun _ => rfl) (by simpa [permits] using hp) (fun b hd => ?_) hu)
      obtain rfl : b = .dl := eq_of_beq hd
      exact ⟨rfl, hw .dl rfl⟩
  case commitSw =>
    simp only [bodyOf] at h
    split at h
    · cases h
    · next u hu =>
      refine does_of_next h (does_finishCommit (fun _ => rfl) (by simpa [permits] using hp) (fun b _ => ?_) hu)
      have hsw : s.build.switchable = true := hb
      exact ⟨by cases b <;> simp [bankExists, hsw], hw b (by simp [readsWork, hsw])⟩
  case checkSlots => exact does_of_next h (does_kept (respondCheck_bookkeeping _ _ s))
  case deriveRate =>
    obtain ⟨l, -, h⟩ := withLen_eq_next.mp h
    obtain ⟨cfg, -, h⟩ := withCfg_eq_next.mp h
    exact does_of_next h (does_kept (respondCheck_bookkeeping _ _ s))
  case checkCapacity =>
    obtain ⟨cfg, -, h⟩ := withCfg_eq_next.mp h
    exact does_of_next h (does_kept (respondCheck_bookkeeping _ _ s))
  case getState | getTriggersCfg | getStatus | readWork | countOnes | findUnusedId | derivePhaseOffset =>
    exact does_of_next h (does_kept (.respondOk _ s))

/-- All that a command can do: its effect on the registers is one of CommandEffect's (R252 to R257). -/
theorem exec_effect {i : Instr} {s t : State} (h : exec i s = .next t) : Does i s t := by
  by_cases hi : i = .lookup
  · subst hi
    exact does_of_next h (lookupState_effect s)
  · rw [exec_eq_guarded i s hi] at h
    rcases guarded_cases s (permits i) (bankModeOk i s) (workOk i s) (indexOk i s) (bodyOf i s) with
      ⟨c, e⟩ | ⟨-, hp, hb, hw, -, e⟩
    · exact does_of_next (e.symm.trans h) (does_kept (.raise c s))
    · exact bodyOf_effect hp hb (workOk_iff.mp hw) (e.symm.trans h)

/-! ### The effect of a step -/

/-- HOST's turn changes bookkeeping, and the registers at most by one command. -/
theorem hostTurn_effect {s t : State} (h : hostTurn s = .next t) :
    ∃ i u v, BookkeepingOnly s u ∧ CommandEffect u i v ∧ BookkeepingOnly v t := by
  unfold hostTurn at h
  split at h
  · exact Host.Outcome.next.inj h ▸ ⟨.getState, s, s, rfl, .kept _, rfl⟩
  split at h
  · exact Host.Outcome.next.inj h ▸ ⟨.getState, s, s, rfl, .kept _, rfl⟩
  next c _ =>
  obtain ⟨r, hr, rfl⟩ := mapNext_eq_next.mp h
  unfold runCommand at hr
  split at hr
  · next i _ =>
    obtain ⟨v, hv, hb⟩ := exec_effect hr
    exact ⟨i, _, v, .latchCommand c s, hv, hb.trans (endBringup_bookkeeping c r)⟩
  · obtain rfl := Host.Outcome.next.inj hr
    exact ⟨.getState, s, s, rfl, .kept _,
      ((BookkeepingOnly.latchCommand c s).trans (.raise _ _)).trans (endBringup_bookkeeping c _)⟩

/-- What bookkeeping, TRIG and DP, and every command keep, every step keeps. -/
theorem step_keeps {I : State → Prop} (bookkeeping : ∀ {s t}, BookkeepingOnly s t → I s → I t)
    (agents : ∀ {s t}, AgentEffect s t → I s → I t) (command : ∀ {s i t}, CommandEffect s i t → I s → I t)
    {s t : State} (h : step s = .next t) (hs : I s) : I t := by
  have host : ∀ q, hostTurn { s with sched := q } = .next t → I t := fun q k => by
    obtain ⟨i, u, v, hu, hv, ht⟩ := hostTurn_effect k
    exact bookkeeping ht (command hv (bookkeeping ((BookkeepingOnly.withSched s q).trans hu) hs))
  unfold step at h
  split at h
  · next hq => exact host [] (hq ▸ h)
  · exact host _ h
  · exact Host.Outcome.next.inj h ▸ agents (agentStep_effect _ _) (bookkeeping (.withSched s _) hs)

end Sys2Proof.Machine
end

section
/-! SUPPORT. What the unit accesses of a commit and of a read-back keep, whatever TRIG and DP do among them: the frame of
both, and a property of banks that copying a unit keeps (R164, R202, R207). -/

namespace Sys2Proof.Machine

open Sys2Proof

/-! ### The frame of unit accesses -/

/-- What the unit accesses of a command change: NXT, WORK and its valid bits, the bank selection and the draws, and what
TRIG and DP own, as they may change it: no trigger is armed and no overflow bit falls (R17, R44, R208). -/
structure AccessFrame (s t : State) : Prop where
  frame : AgentsOnly { s with nxt := t.nxt, work := t.work, wv := t.wv, bankSel := t.bankSel, draws := t.draws } t
  update : t.trigCcUpdate.armed = true → s.trigCcUpdate.armed = true
  activate : t.trigActivate.armed = true → s.trigActivate.armed = true
  active : t.datapathActive = s.datapathActive ∨ s.trigActivate.armed = true
  sticky : s.ovf ||| t.ovf = t.ovf

theorem AgentEffect.access {s t : State} (h : AgentEffect s t) : AccessFrame s t := by
  refine ⟨?_, h.update, h.activate, h.active.imp_right And.left, h.sticky⟩
  have f := h.frame
  unfold AgentsOnly at f ⊢
  rw [f]

theorem AccessFrame.refl (s : State) : AccessFrame s s := (AgentEffect.refl s).access

theorem AccessFrame.trans {s t u : State} (h : AccessFrame s t) (k : AccessFrame t u) : AccessFrame s u := by
  refine ⟨?_, fun x => h.update (k.update x), fun x => h.activate (k.activate x), ?_, ?_⟩
  · have f := h.frame
    have g := k.frame
    unfold AgentsOnly at f g ⊢
    rw [f] at g
    exact g
  · exact k.active.elim (fun e => e ▸ h.active) fun x => .inr (h.activate x)
  · rw [← k.sticky, ← h.sticky, ← BitVec.or_assoc, ← BitVec.or_assoc, BitVec.or_self]

/-- The command's own writes of those registers. -/
theorem AccessFrame.of_writes (s : State) (n : PerBank HwBank) (w : PerBank Snapshot) (v : PerBank Bool) (b : Bank)
    (d : Nat) : AccessFrame s { s with nxt := n, work := w, wv := v, bankSel := b, draws := d } :=
  ⟨rfl, id, id, .inl rfl, by simp⟩

theorem AccessFrame.of_bankSel (s : State) (b : Bank) : AccessFrame s { s with bankSel := b } :=
  .of_writes s _ _ _ b _

section
variable {s t : State}

theorem AccessFrame.build_eq (h : AccessFrame s t) : t.build = s.build := h.frame.build_eq
theorem AccessFrame.lc_eq (h : AccessFrame s t) : t.lc = s.lc := h.frame.lc_eq
theorem AccessFrame.name_eq (h : AccessFrame s t) : t.name = s.name := h.frame.name_eq
theorem AccessFrame.cfg_eq (h : AccessFrame s t) : t.cfg = s.cfg := h.frame.cfg_eq
theorem AccessFrame.len_eq (h : AccessFrame s t) : t.len = s.len := h.frame.len_eq
theorem AccessFrame.hwInReset_eq (h : AccessFrame s t) : t.hwInReset = s.hwInReset := h.frame.hwInReset_eq
theorem AccessFrame.datapathEnabled_eq (h : AccessFrame s t) : t.datapathEnabled = s.datapathEnabled :=
  h.frame.datapathEnabled_eq
theorem AccessFrame.commitFatal_eq (h : AccessFrame s t) : t.commitFatal = s.commitFatal := h.frame.commitFatal_eq

/-- Unit accesses leave both trigger configurations alone (R40). -/
theorem AccessFrame.triggers_eq (h : AccessFrame s t) :
    t.trigActivate.edgeLevel = s.trigActivate.edgeLevel ∧ t.trigActivate.tuserBit = s.trigActivate.tuserBit ∧
      t.trigCcUpdate.edgeLevel = s.trigCcUpdate.edgeLevel ∧ t.trigCcUpdate.tuserBit = s.trigCcUpdate.tuserBit := by
  have f := h.frame
  unfold AgentsOnly at f
  rw [f]
  exact ⟨rfl, rfl, rfl, rfl⟩

end

/-! ### A property of banks -/

/-- Both register banks of one bank of the mixer have a property. -/
def bothBanks (P : HwBank → Prop) (b : Bank) (s : State) : Prop := P (s.cur.get b) ∧ P (s.nxt.get b)

theorem bothBanks_withBankSel {P : HwBank → Prop} {b x : Bank} {s : State} :
    bothBanks P b { s with bankSel := x } ↔ bothBanks P b s := Iff.rfl

/-- TRIG and DP copy whole banks, so what both banks have they keep (R214). -/
theorem AgentEffect.bothBanks {P : HwBank → Prop} {b : Bank} {s t : State} (h : AgentEffect s t)
    (k : bothBanks P b s) : bothBanks P b t := by
  refine ⟨?_, h.frame.nxt_eq ▸ k.2⟩
  rcases h.cur with e | ⟨-, -, -, e⟩
  · exact e ▸ k.1
  · rw [e, PerBank.get_onBanks]
    split
    · exact k.2
    · exact k.1

section
variable {P : HwBank → Prop} (copy : ∀ u src dst, P src → P dst → P (copyUnit u src dst))
include copy

theorem writeUnits_bothBanks {b x : Bank} {image : HwBank} (hi : P image) (us : List RegUnit) {s : State}
    (h : bothBanks P x s) : bothBanks P x (writeUnits b image us s) := by
  induction us generalizing s with
  | nil => exact h
  | cons u us ih =>
    refine ih ((betweenAccesses_effect _).bothBanks ⟨h.1, ?_⟩)
    by_cases hx : x = b
    · subst hx; simpa using copy u image _ hi h.2
    · simpa [PerBank.get_set_other _ _ hx] using h.2

theorem readUnits_bothBanks {b : Bank} (us : List RegUnit) {acc : HwBank} {s : State} (ha : P acc)
    (h : bothBanks P b s) : P (readUnits b us acc s).1 := by
  induction us generalizing acc s with
  | nil => exact ha
  | cons u us ih => exact ih (copy u _ _ h.1 ha) ((betweenAccesses_effect s).bothBanks h)

end

/-! ### The writes of a commit -/

theorem writeUnits_access (b : Bank) (image : HwBank) (us : List RegUnit) (s : State) :
    AccessFrame s (writeUnits b image us s) := by
  induction us generalizing s with
  | nil => exact .refl s
  | cons u us ih =>
    exact ((AccessFrame.of_writes s _ s.work s.wv s.bankSel s.draws).trans (betweenAccesses_effect _).access).trans (ih _)

theorem bankImage_eq_some {w : Snapshot} {h : HwBank} (k : bankImage w = some h) : h = imageOf w := by
  unfold bankImage at k
  split at k
  · exact (Option.some.inj k).symm
  · cases k

/-- Where writeBank runs, it writes the units of the snapshot's image (R202). -/
theorem writeBank_eq_some {b : Bank} {s u : State} (h : writeBank b s = some u) :
    u = writeUnits b (imageOf (s.work.get b)) (units s.build) s := by
  obtain ⟨image, hi, rfl⟩ := Option.map_eq_some_iff.mp h
  rw [bankImage_eq_some hi]

/-- Where writeBothBanks runs, it writes both banks, with the bank selection moved and restored (R205). -/
theorem writeBothBanks_eq_some {s u : State} (h : writeBothBanks s = some u) :
    ∃ v w, writeBank .dl { s with bankSel := .dl } = some v ∧ writeBank .ul { v with bankSel := .ul } = some w ∧
      u = { w with bankSel := s.bankSel } := by
  obtain ⟨v, hv, h⟩ := Option.bind_eq_some_iff.mp h
  obtain ⟨w, hw, rfl⟩ := Option.map_eq_some_iff.mp h
  exact ⟨v, w, hv, hw, rfl⟩

theorem writeBank_access {b : Bank} {s u : State} (h : writeBank b s = some u) :
    AccessFrame s u ∧ u.work = s.work ∧ u.wv = s.wv ∧ u.bankSel = s.bankSel := by
  rw [writeBank_eq_some h]
  have f := (writeUnits_effect b (imageOf (s.work.get b)) (units s.build) s).frame
  exact ⟨writeUnits_access _ _ _ _, f.work_eq, f.wv_eq, f.bankSel_eq⟩

/-- Only the two commits write. -/
theorem commitWrites_cases {i : Instr} {s u : State} (h : commitWrites i s = some u) :
    (i = .commit ∧ writeBank .dl s = some u) ∨ (i = .commitSw ∧ writeBothBanks s = some u) := by
  unfold commitWrites at h
  split at h
  · exact .inl ⟨rfl, h⟩
  · exact .inr ⟨rfl, h⟩
  · cases h

theorem commitWrites_access {i : Instr} {s u : State} (h : commitWrites i s = some u) :
    AccessFrame s u ∧ u.work = s.work ∧ u.wv = s.wv ∧ u.bankSel = s.bankSel := by
  rcases commitWrites_cases h with ⟨rfl, h⟩ | ⟨rfl, h⟩
  · exact writeBank_access h
  · obtain ⟨v, w, hv, hw, rfl⟩ := writeBothBanks_eq_some h
    obtain ⟨fv, wv, vv, -⟩ := writeBank_access hv
    obtain ⟨fw, ww, vw, -⟩ := writeBank_access hw
    have f := (((AccessFrame.of_bankSel s .dl).trans fv).trans (.of_bankSel v .ul)).trans fw
    exact ⟨f.trans (.of_bankSel w _), ww.trans wv, vw.trans vv, rfl⟩

/-- What both banks and the images of the snapshots that are written have, both banks keep through a commit, torn or not. -/
theorem commitWrites_bothBanks {P : HwBank → Prop} (copy : ∀ u src dst, P src → P dst → P (copyUnit u src dst))
    {i : Instr} {s u : State} (hu : commitWrites i s = some u)
    (hi : ∀ b, commitBank i b = true → P (imageOf (s.work.get b))) {x : Bank} (h : bothBanks P x s) :
    bothBanks P x u := by
  have bank : ∀ {b : Bank} {v w : State}, writeBank b v = some w → P (imageOf (v.work.get b)) → bothBanks P x v →
      bothBanks P x w := fun hw hp hv => by
    rw [writeBank_eq_some hw]; exact writeUnits_bothBanks copy hp _ hv
  rcases commitWrites_cases hu with ⟨rfl, hu⟩ | ⟨rfl, hu⟩
  · exact bank hu (hi .dl rfl) h
  · obtain ⟨v, w, hv, hw, rfl⟩ := writeBothBanks_eq_some hu
    have hd : v.work = s.work := (writeBank_access hv).2.1
    have dl : bothBanks P x v := bank hv (hi .dl rfl) (bothBanks_withBankSel.mpr h)
    have ul : P (imageOf (v.work.get .ul)) := by rw [hd]; exact hi .ul rfl
    exact bothBanks_withBankSel.mpr (bank hw ul (bothBanks_withBankSel.mpr dl))

/-! ### The reads of a read-back -/

/-- The sequence length is the first unit (R164). -/
theorem units_seqLen_first (bd : Build) : ∃ us, units bd = .seqLen :: us := ⟨_, rfl⟩

/-- Everything a read-back of one bank does to the registers: TRIG and DP step, and W[b] is loaded with what was read,
which has every property of both banks that copying units keeps and that holds once the first unit is read (R164). -/
theorem loadCurrent_effect (b : Bank) (s : State) :
    ∃ r h, AgentEffect s r ∧
      loadCurrent b s = { r with
        work := s.work.set b (translateBank (s.notUsed.get b) s.draws h), wv := s.wv.set b true, draws := r.draws + 1 } ∧
      ∀ P : HwBank → Prop, (∀ u src dst, P src → P dst → P (copyUnit u src dst)) →
        P { HwBank.blank s.build SeqLen.one with seqLen := (s.cur.get b).seqLen } → bothBanks P b s → P h := by
  have e := readUnits_effect b (units s.build) (HwBank.blank s.build SeqLen.one) s
  refine ⟨_, (readUnits b (units s.build) (HwBank.blank s.build SeqLen.one) s).1, e, ?_, fun P copy first k => ?_⟩
  · simp only [loadCurrent, e.frame.work_eq, e.frame.wv_eq]
  · obtain ⟨us, hu⟩ := units_seqLen_first s.build
    rw [hu]
    exact readUnits_bothBanks copy us first ((betweenAccesses_effect s).bothBanks k)

theorem loadCurrent_access (b : Bank) (s : State) : AccessFrame s (loadCurrent b s) := by
  obtain ⟨r, h, e, k, -⟩ := loadCurrent_effect b s
  rw [k]
  exact e.access.trans (.of_writes r r.nxt _ _ r.bankSel _)

theorem loadBothBanks_access (s : State) : AccessFrame s (loadBothBanks s) :=
  ((((AccessFrame.of_bankSel s .dl).trans (loadCurrent_access .dl _)).trans (.of_bankSel _ .ul)).trans
    (loadCurrent_access .ul _)).trans (.of_bankSel _ s.bankSel)

/-- What a read-back of one bank of the build and a bank selection keep, a read-back of both banks keeps (R166). -/
theorem loadBothBanks_keeps {I : State → Prop} {s : State} (hb : s.build.switchable = true)
    (select : ∀ {v} b, I v → I { v with bankSel := b })
    (load : ∀ {v} b, v.lc = s.lc → bankExists v b = true → I v → I (loadCurrent b v)) (h : I s) :
    I (loadBothBanks s) := by
  have f := loadCurrent_access .dl { s with bankSel := .dl }
  have ul : bankExists { loadCurrent .dl { s with bankSel := .dl } with bankSel := .ul } .ul = true :=
    (congrArg Build.switchable f.build_eq).trans hb
  exact select _ (load .ul f.lc_eq ul (select .ul (load .dl rfl rfl (select .dl h))))

end Sys2Proof.Machine
end

section
/-! SUPPORT. The invariant of Safety.lean and the legal rate codes (R18): the invariant in four parts, each kept by TRIG and
DP and by every effect of a command. The part about the banks is stated for any rate codes Q, so that O58 uses it with
all codes and O60 with the legal ones. -/

namespace Sys2Proof.Machine

open Sys2Proof

/-! ### The parts of the invariant -/

/-- The register files have the build's lengths (R24, R25). -/
def State.Fits (s : State) : Prop := ∀ b, (s.work.get b).fits s.build ∧ bothBanks (HwBank.fits s.build) b s

/-- The part about the lifecycle and the flags that go with it (R30, R236 to R241, R243 (e), R253). -/
structure State.Control (s : State) : Prop where
  bound : s.name = none ↔ s.lc = .notReady
  configured : fromConfigured s.lc = true →
    s.cfg = some s.build.hwcfg ∧ s.build.hwcfg.wellFormed = true ∧ s.hwInReset = false
  enabled : inInitialisedOrOperational s.lc = true → s.datapathEnabled = true
  held : s.lc = .reset → s.hwInReset = true
  updateDisarmed : s.lc = .reset ∨ s.lc = .configured → s.trigCcUpdate.armed = false
  stopped : s.lc = .reset ∨ s.lc = .configured ∨ s.lc = .initialised →
    s.trigActivate.armed = false ∧ s.datapathActive = false
  fatal : s.commitFatal = true → inInitialisedOrOperational s.lc = true

/-- A WORK is loaded only from Initialised on, only in a bank of the build, and then it is sound (R36, R118). -/
def State.LoadedSound (s : State) : Prop :=
  ∀ b, loaded s b = true → inInitialisedOrOperational s.lc = true ∧ bankExists s b = true ∧ (s.work.get b).sound

/-- A bank has the cached sequence length, and every rate code of it is one of Q. -/
def HwBank.meets (Q : RateCode → Prop) (len : Option SeqLen) (h : HwBank) : Prop :=
  len = some h.seqLen ∧ ∀ c, Q (entry h.cc c).rate

/-- From Initialised on, the banks of the build and the loaded WORK have the cached length and rate codes of Q. -/
def State.BanksMeet (Q : RateCode → Prop) (s : State) : Prop :=
  inInitialisedOrOperational s.lc = true → ∀ b, bankExists s b = true →
    bothBanks (HwBank.meets Q s.len) b s ∧ (loaded s b = true → (imageOf (s.work.get b)).meets Q s.len)

/-- With no rate code excluded, BanksMeet is the part of the invariant about the lengths (R243 (e)). -/
theorem banksMeet_true_iff {s : State} : s.BanksMeet (fun _ => True) ↔
    (inInitialisedOrOperational s.lc = true → ∃ l, s.len = some l ∧ ∀ b, bankExists s b = true →
      (s.cur.get b).seqLen = l ∧ (s.nxt.get b).seqLen = l ∧ (loaded s b = true → (s.work.get b).seqLen = l)) := by
  refine forall_congr' fun _ => ⟨fun h => ?_, ?_⟩
  · obtain ⟨⟨⟨hl, -⟩, -⟩, -⟩ := h .dl rfl
    refine ⟨_, hl, fun b hb => ?_⟩
    obtain ⟨⟨hc, hn⟩, hw⟩ := h b hb
    have eq : ∀ {x : HwBank}, x.meets (fun _ => True) s.len → x.seqLen = (s.cur.get .dl).seqLen := fun k =>
      (Option.some.inj (hl.symm.trans k.1)).symm
    exact ⟨eq hc, eq hn, fun k => eq (hw k)⟩
  · rintro ⟨l, hl, h⟩ b hb
    obtain ⟨hc, hn, hw⟩ := h b hb
    have meets : ∀ {x : HwBank}, x.seqLen = l → x.meets (fun _ => True) s.len := fun e => ⟨e ▸ hl, fun _ => trivial⟩
    exact ⟨⟨meets hc, meets hn⟩, fun k => meets (hw k)⟩

theorem inv_iff {s : State} :
    s.Inv ↔ s.Fits ∧ s.Control ∧ s.LoadedSound ∧ s.BanksMeet (fun _ => True) ∧ s.bankSel = .dl := by
  rw [banksMeet_true_iff]
  constructor
  · intro h
    exact ⟨fun b => ⟨h.workFits b, h.curFits b, h.nxtFits b⟩,
      ⟨h.bound, h.configured, fun k => (h.lengths k).1, h.held, h.updateDisarmed, h.stopped, h.fatal⟩,
      h.loadedSound, fun k => (h.lengths k).2, h.selection⟩
  · rintro ⟨fits, ctl, sound, lens, sel⟩
    exact ⟨fun b => (fits b).1, fun b => (fits b).2.1, fun b => (fits b).2.2, ctl.bound, ctl.configured,
      fun k => ⟨ctl.enabled k, lens k⟩, sound, ctl.held, ctl.updateDisarmed, ctl.stopped, ctl.fatal, sel⟩

/-! ### The lengths of the register files -/

theorem copyUnit_fits (bd : Build) (u : RegUnit) (src dst : HwBank) (_ : src.fits bd) (h : dst.fits bd) :
    (copyUnit u src dst).fits bd := by
  obtain ⟨ha, hg⟩ := copyUnit_lengths u src dst
  exact ⟨ha.trans h.1, hg.trans h.2⟩

theorem freeBank_fits (bd : Build) (t : Nat) : (freeBank bd t).fits bd := by simp [HwBank.fits, freeBank]

theorem Snapshot.blank_fits (bd : Build) (l : SeqLen) : (Snapshot.blank bd l).fits bd := by
  simp [Snapshot.fits, Snapshot.blank]

theorem translateBank_fits {bd : Build} (nu : Option CcId) (t : Nat) {h : HwBank} (k : h.fits bd) :
    (translateBank nu t h).fits bd := by
  simpa [Snapshot.fits, HwBank.fits, translateBank] using k

/-- What holds of entry b of a register per bank before and of its new value holds after an update of one bank. -/
theorem PerBank.set_induction {α : Type} {P : α → Prop} {p : PerBank α} {x : Bank} {v : α} (b : Bank) (new : P v)
    (old : P (p.get b)) : P ((p.set x v).get b) := by
  by_cases h : b = x
  · subst h; simpa using new
  · rwa [PerBank.get_set_other _ _ h]

/-- What holds of entry b before and of its new value holds after an update of every bank of the build. -/
theorem PerBank.onBanks_induction {α : Type} {P : α → Prop} {s : State} {f : Bank → α → α} {p : PerBank α} (b : Bank)
    (new : bankExists s b = true → P (f b (p.get b))) (old : P (p.get b)) :
    P ((p.onBanks s.build.switchable f).get b) := by
  rw [PerBank.get_onBanks]
  split
  · next h => exact new h
  · exact old

theorem State.Fits.agents {s t : State} (h : AgentEffect s t) (k : s.Fits) : t.Fits := fun b => by
  rw [State.Fits] at k
  rw [h.frame.work_eq, h.frame.build_eq]
  exact ⟨(k b).1, h.bothBanks (k b).2⟩

theorem State.Fits.loadCurrent {s : State} (x : Bank) (k : s.Fits) : (loadCurrent x s).Fits := by
  obtain ⟨r, h, e, eq, prop⟩ := loadCurrent_effect x s
  have fits : h.fits s.build := prop _ (copyUnit_fits s.build) (HwBank.blank_fits s.build SeqLen.one) (k x).2
  rw [eq]
  intro b
  refine ⟨?_, (k.agents e b).2⟩
  rw [e.frame.build_eq]
  exact PerBank.set_induction (P := Snapshot.fits s.build) b (translateBank_fits _ _ fits) (k b).1

theorem EditOf.fits {s : State} {old new : Snapshot} (e : EditOf s old new) (hc : s.cfg = some s.build.hwcfg)
    (h : old.fits s.build) : new.fits s.build := by
  refine ⟨e.aux.trans h.1, ?_⟩
  rcases e.antGain with k | ⟨cfg, hcfg, k⟩
  · exact k.trans h.2
  · rw [k, Option.some.inj (hcfg.symm.trans hc)]

theorem CommandEffect.fits {s t : State} {i : Instr} (e : CommandEffect s i t) (hc : s.Control) (k : s.Fits) :
    t.Fits := by
  have commit : ∀ {u}, commitWrites i s = some u → u.Fits := fun {u} hu b => by
    obtain ⟨f, hw, -, -⟩ := commitWrites_access hu
    rw [hw, f.build_eq]
    exact ⟨(k b).1, commitWrites_bothBanks (copyUnit_fits s.build) hu (fun x _ => (k x).1) (k b).2⟩
  cases e with
  | kept | bound | configured | activated | deactivated | closed | triggersSet => exact k
  | reset =>
    exact fun b => ⟨(k b).1, PerBank.onBanks_induction b (fun _ => freeBank_fits _ _) (k b).2.1,
      PerBank.onBanks_induction b (fun _ => freeBank_fits _ _) (k b).2.2⟩
  | initialised =>
    exact fun b => ⟨(k b).1, PerBank.onBanks_induction b (fun _ => HwBank.blank_fits _ _) (k b).2.1,
      PerBank.onBanks_induction b (fun _ => HwBank.blank_fits _ _) (k b).2.2⟩
  | readBack => exact k.loadCurrent _
  | bothReadBack _ hb => exact loadBothBanks_keeps hb (fun _ h => h) (fun x _ _ h => h.loadCurrent x) k
  | emptied x =>
    exact fun b => ⟨PerBank.set_induction (P := Snapshot.fits s.build) b (Snapshot.blank_fits _ _) (k b).1, (k b).2⟩
  | edited i w hl he =>
    have cfg := (hc.configured (by simp [hl, fromConfigured])).1
    exact fun b => ⟨(he b).fits cfg (k b).1, (k b).2⟩
  | armed _ _ hu | pending _ _ hu =>
    have := commit hu
    exact this

/-! ### The lifecycle and its flags -/

theorem State.Control.access {s t : State} (h : AccessFrame s t) (k : s.Control) : t.Control where
  bound := by rw [h.name_eq, h.lc_eq]; exact k.bound
  configured := by rw [h.lc_eq, h.cfg_eq, h.build_eq, h.hwInReset_eq]; exact k.configured
  enabled := by rw [h.lc_eq, h.datapathEnabled_eq]; exact k.enabled
  held := by rw [h.lc_eq, h.hwInReset_eq]; exact k.held
  updateDisarmed hl := by
    have := k.updateDisarmed (h.lc_eq ▸ hl)
    exact Bool.eq_false_iff.mpr fun x => by simp [h.update x] at this
  stopped hl := by
    obtain ⟨ha, hd⟩ := k.stopped (h.lc_eq ▸ hl)
    refine ⟨Bool.eq_false_iff.mpr fun x => by simp [h.activate x] at ha, ?_⟩
    exact (h.active.resolve_right (by simp [ha])).trans hd
  fatal := by rw [h.commitFatal_eq, h.lc_eq]; exact k.fatal

/-- In Operational the armed bits and commitFatal are free. -/
theorem State.Control.ofOperational {s : State} (hl : s.lc = .operational) (k : s.Control) (a u : Trigger) (d f : Bool) :
    State.Control { s with trigActivate := a, trigCcUpdate := u, datapathActive := d, commitFatal := f } where
  bound := k.bound
  configured := k.configured
  enabled := k.enabled
  held := k.held
  updateDisarmed h := by simp [hl] at h
  stopped h := by simp [hl] at h
  fatal _ := by simp [hl, inInitialisedOrOperational]

theorem CommandEffect.control {s t : State} {i : Instr} (e : CommandEffect s i t) (k : s.Control) : t.Control := by
  obtain ⟨bound, configured, enabled, held, updateDisarmed, stopped, fatal⟩ := id k
  cases e with
  | kept => exact k
  | edited | emptied | triggersSet => exact ⟨bound, configured, enabled, held, updateDisarmed, stopped, fatal⟩
  | bound hl => constructor <;> simp_all [fromConfigured, inInitialisedOrOperational]
  | reset hl => constructor <;> simp_all [resetState, fromConfigured, inInitialisedOrOperational, Trigger.zero]
  | configured hl hc => constructor <;> simp_all [fromConfigured, inInitialisedOrOperational]
  | initialised l hl hu =>
    rcases hl with hl | hl <;> constructor <;> simp_all [initialiseState, fromConfigured, inInitialisedOrOperational]
  | activated hl => constructor <;> simp_all [fromConfigured, inInitialisedOrOperational]
  | deactivated hl => constructor <;> simp_all [fromConfigured, inInitialisedOrOperational]
  | closed => constructor <;> simp_all [closeState, fromConfigured, inInitialisedOrOperational]
  | readBack => exact k.access (loadCurrent_access _ _)
  | bothReadBack => exact k.access (loadBothBanks_access _)
  | armed hl _ hu | pending hl _ hu =>
    have f := (commitWrites_access hu).1
    exact (k.access f).ofOperational (f.lc_eq.trans hl) _ _ _ _

/-! ### The soundness of a loaded WORK -/

theorem bankExists_of_build {s t : State} (h : t.build = s.build) (b : Bank) : bankExists t b = bankExists s b := by
  cases b
  · rfl
  · exact congrArg Build.switchable h

/-- LoadedSound speaks of WORK, its valid bits and the banks of the build, and is kept while WORK may be loaded. -/
theorem State.LoadedSound.congr {s t : State} (k : s.LoadedSound) (hw : t.work = s.work) (hv : t.wv = s.wv)
    (hb : t.build = s.build)
    (hl : inInitialisedOrOperational s.lc = true → inInitialisedOrOperational t.lc = true) :
    t.LoadedSound := fun b h => by
  obtain ⟨hi, hx, hs⟩ := k b (by simpa [loaded, hv] using h)
  refine ⟨hl hi, ?_, hw ▸ hs⟩
  rwa [bankExists_of_build hb]

theorem translateBank_sound (nu : Option CcId) (t : Nat) (h : HwBank) : (translateBank nu t h).sound := by
  simp only [Snapshot.sound, translateBank, true_and]
  intro i hi
  simp [slotRead, Nat.not_lt.mpr hi]

theorem Snapshot.blank_sound (bd : Build) (l : SeqLen) : (Snapshot.blank bd l).sound :=
  ⟨show some 0 = findUnusedId (Vector.replicate 16 none) by decide, fun i _ => by simp [Snapshot.blank]⟩

/-- With the valid bits of every bank of the build cleared nothing is loaded. -/
theorem State.LoadedSound.cleared {s t : State} (hv : t.wv = s.wv.onBanks s.build.switchable (fun _ _ => false))
    (k : s.LoadedSound) : t.LoadedSound := fun b h => by
  rw [loaded, hv, PerBank.get_onBanks] at h
  split at h
  · cases h
  · next hb => exact absurd (k b h).2.1 hb

/-- Loading a bank of the build with a sound WORK. -/
theorem State.LoadedSound.load {s t : State} {b : Bank} {w : Snapshot} (hl : inInitialisedOrOperational s.lc = true)
    (hb : bankExists s b = true) (hs : w.sound) (ht : t.build = s.build) (hc : t.lc = s.lc)
    (hw : t.work = s.work.set b w) (hv : t.wv = s.wv.set b true) (k : s.LoadedSound) : t.LoadedSound := fun x h => by
  rw [loaded, hv] at h
  rw [hw, hc, bankExists_of_build ht]
  by_cases hx : x = b
  · subst hx; exact ⟨hl, hb, by simpa using hs⟩
  · rw [PerBank.get_set_other _ _ hx] at h ⊢
    exact k x h

theorem State.LoadedSound.loadCurrent {s : State} {b : Bank} (hl : inInitialisedOrOperational s.lc = true)
    (hb : bankExists s b = true) (k : s.LoadedSound) : (loadCurrent b s).LoadedSound := by
  obtain ⟨r, h, e, eq, -⟩ := loadCurrent_effect b s
  rw [eq]
  exact k.load hl hb (translateBank_sound _ _ h) e.frame.build_eq e.frame.lc_eq rfl rfl

theorem CommandEffect.loadedSound {s t : State} {i : Instr} (e : CommandEffect s i t) (k : s.LoadedSound) :
    t.LoadedSound := by
  cases e with
  | kept | triggersSet => exact k
  | reset | configured | initialised | closed => exact k.cleared rfl
  | bound hl => exact k.congr rfl rfl rfl fun h => by simp [hl, inInitialisedOrOperational] at h
  | activated => exact k.congr rfl rfl rfl fun _ => rfl
  | deactivated => exact k.congr rfl rfl rfl fun _ => rfl
  | readBack hl => exact k.loadCurrent hl rfl
  | bothReadBack hl hb =>
    exact loadBothBanks_keeps hb (fun _ h => h) (fun b hv hx h => h.loadCurrent (hv ▸ hl) hx) k
  | emptied b l hl hb => exact k.load hl hb (Snapshot.blank_sound _ _) rfl rfl rfl rfl
  | edited i w hl he => exact fun b h => ⟨(k b h).1, (k b h).2.1, (he b).sound (k b h).2.2⟩
  | armed _ _ hu | pending _ _ hu =>
    obtain ⟨f, hw, hv, -⟩ := commitWrites_access hu
    exact k.congr hw hv f.build_eq fun h => f.lc_eq ▸ h

/-! ### The sequence lengths and rate codes -/

section
variable {Q : RateCode → Prop}

theorem copyUnit_meets (len : Option SeqLen) (u : RegUnit) (src dst : HwBank) (hs : src.meets Q len)
    (hd : dst.meets Q len) : (copyUnit u src dst).meets Q len := by
  refine ⟨?_, fun c => ?_⟩
  · rw [copyUnit_seqLen]
    split
    · exact hs.1
    · exact hd.1
  · have e : entry (copyUnit u src dst).cc c = _ := copyUnit_cc u src dst ⟨c.toNat, c.isLt⟩
    rw [e]
    split
    · exact hs.2 c
    · exact hd.2 c

/-- The image of a snapshot has its sequence length and its file of carriers. -/
theorem imageOf_meets {w : Snapshot} {len : Option SeqLen} :
    (imageOf w).meets Q len ↔ len = some w.seqLen ∧ ∀ c, Q (entry w.cc c).rate := Iff.rfl

theorem blank_meets (hQ : Q rateDisabled) {len : Option SeqLen} {h : HwBank} (hl : len = some h.seqLen)
    (hc : h.cc = Vector.replicate 16 CcDesc.zero) : h.meets Q len :=
  ⟨hl, fun c => by rw [hc, entry, Vector.getElem_replicate]; exact hQ⟩

theorem EditOf.meets (hQ : ∀ r : RateCode, r.toNat ≤ 5 → Q r) {s : State} {old new : Snapshot} (e : EditOf s old new)
    {len : Option SeqLen} (k : (imageOf old).meets Q len) : (imageOf new).meets Q len := by
  refine ⟨k.1.trans (congrArg some e.seqLen.symm), fun c => ?_⟩
  rcases e.rates c with h | h
  · exact (congrArg Q h).mpr (k.2 c)
  · exact hQ _ h

theorem State.BanksMeet.agents {s t : State} (h : AgentEffect s t) (k : s.BanksMeet Q) : t.BanksMeet Q := by
  intro hl b hb
  have f := h.frame
  simp only [f.len_eq, f.work_eq, loaded, f.wv_eq]
  obtain ⟨both, work⟩ := k (f.lc_eq ▸ hl) b (bankExists_of_build f.build_eq b ▸ hb)
  exact ⟨h.bothBanks both, work⟩

/-- Loading a bank with a WORK that has the cached length and legal codes. -/
theorem State.BanksMeet.load {s t : State} {x : Bank} {w : Snapshot} (k : s.BanksMeet Q)
    (hi : (imageOf w).meets Q s.len) (hw : t.work = s.work.set x w) (hv : t.wv = s.wv.set x true)
    (hs : t = { s with work := t.work, wv := t.wv, draws := t.draws }) : t.BanksMeet Q := by
  intro hl b hb
  rw [hs] at hl hb
  obtain ⟨both, work⟩ := k hl b hb
  refine ⟨by rw [hs]; exact both, fun hload => ?_⟩
  have len : t.len = s.len := by rw [hs]
  rw [loaded, hv] at hload
  rw [hw, len]
  by_cases hx : b = x
  · subst hx; simpa using hi
  · rw [PerBank.get_set_other _ _ hx] at hload ⊢
    exact work hload

theorem State.BanksMeet.loadCurrent (hQ : Q rateDisabled) {s : State} {x : Bank}
    (hl : inInitialisedOrOperational s.lc = true) (hb : bankExists s x = true) (k : s.BanksMeet Q) :
    (loadCurrent x s).BanksMeet Q := by
  obtain ⟨r, h, e, eq, prop⟩ := loadCurrent_effect x s
  obtain ⟨both, -⟩ := k hl x hb
  have read : h.meets Q s.len := prop _ (copyUnit_meets s.len) (blank_meets hQ both.1.1 rfl) both
  rw [eq]
  refine (k.agents e).load (x := x) (w := translateBank (s.notUsed.get x) s.draws h) ?_ ?_ ?_ rfl
  · rw [e.frame.len_eq]; exact imageOf_meets.mpr ⟨read.1, read.2⟩
  · rw [e.frame.work_eq]
  · rw [e.frame.wv_eq]

theorem State.BanksMeet.initialise (hQ : Q rateDisabled) (l : SeqLen) (s : State) :
    (initialiseState l s).BanksMeet Q := by
  intro _ b hb
  have hx : bankExists s b = true := hb
  have blank : ∀ p : PerBank HwBank,
      (p.onBanks s.build.switchable fun _ _ => HwBank.blank s.build l).get b = HwBank.blank s.build l := fun p => by
    rw [PerBank.get_onBanks, if_pos hx]
  have meets : (HwBank.blank s.build l).meets Q (some l) := blank_meets hQ rfl rfl
  refine ⟨⟨?_, ?_⟩, fun hload => ?_⟩
  · exact (blank s.cur).symm ▸ meets
  · exact (blank s.nxt).symm ▸ meets
  · simp [loaded, initialiseState, PerBank.get_onBanks, hx] at hload

/-- A commit writes loaded WORK, whose lengths and codes are in order, so the banks stay in order, torn or not. -/
theorem State.BanksMeet.commitWrites {s u : State} {i : Instr} (k : s.BanksMeet Q) (hl : s.lc = .operational)
    (hw : ∀ b, commitBank i b = true → bankExists s b = true ∧ loaded s b = true) (hu : commitWrites i s = some u) :
    u.BanksMeet Q := by
  obtain ⟨f, work, wv, -⟩ := commitWrites_access hu
  have hi : inInitialisedOrOperational s.lc = true := by simp [hl, inInitialisedOrOperational]
  intro _ b hb
  rw [bankExists_of_build f.build_eq] at hb
  rw [f.len_eq, work, loaded, wv]
  refine ⟨commitWrites_bothBanks (copyUnit_meets s.len) hu (fun x hx => ?_) (k hi b hb).1, (k hi b hb).2⟩
  obtain ⟨hxe, hxl⟩ := hw x hx
  exact (k hi x hxe).2 hxl

theorem CommandEffect.banksMeet (hQ : ∀ r : RateCode, r.toNat ≤ 5 → Q r) {s t : State} {i : Instr}
    (e : CommandEffect s i t) (k : s.BanksMeet Q) : t.BanksMeet Q := by
  have zero : Q rateDisabled := hQ _ (by decide)
  cases e with
  | kept | triggersSet => exact k
  | bound | reset | configured | closed => exact fun h => nomatch h
  | initialised l => exact .initialise zero l s
  | activated hl | deactivated hl => exact fun _ => k (by simp [hl, inInitialisedOrOperational])
  | readBack hl => exact k.loadCurrent zero hl rfl
  | bothReadBack hl hb =>
    exact loadBothBanks_keeps hb (fun _ h => h) (fun b hv hx h => h.loadCurrent zero (hv ▸ hl) hx) k
  | emptied b l hl hb hn => exact k.load (blank_meets (h := imageOf (Snapshot.blank s.build l)) zero hn rfl) rfl rfl rfl
  | edited i w hl he =>
    exact fun h b hb => ⟨(k h b hb).1, fun hload => (he b).meets hQ ((k h b hb).2 hload)⟩
  | armed hl hw hu | pending hl hw hu =>
    have := k.commitWrites hl hw hu
    exact this

end

/-! ### Every step keeps the invariant -/

theorem BookkeepingOnly.inv {s t : State} (h : BookkeepingOnly s t) (k : s.Inv) : t.Inv := by
  rw [h]; exact ⟨k.1, k.2, k.3, k.4, k.5, k.6, k.7, k.8, k.9, k.10, k.11, k.12⟩

theorem AgentEffect.inv {s t : State} (h : AgentEffect s t) (k : s.Inv) : t.Inv := by
  obtain ⟨fits, ctl, sound, lens, sel⟩ := inv_iff.mp k
  have f := h.frame
  exact inv_iff.mpr ⟨fits.agents h, ctl.access h.access,
    sound.congr f.work_eq f.wv_eq f.build_eq fun hl => f.lc_eq ▸ hl, lens.agents h, f.bankSel_eq.trans sel⟩

/-- No command leaves the bank selection elsewhere (R35, D39). -/
theorem CommandEffect.selection {s t : State} {i : Instr} (e : CommandEffect s i t) (k : s.bankSel = .dl) :
    t.bankSel = .dl := by
  cases e with
  | reset | closed => rfl
  | readBack =>
    obtain ⟨r, h, f, eq, -⟩ := loadCurrent_effect .dl s
    rw [eq]; exact f.frame.bankSel_eq.trans k
  | armed _ _ hu | pending _ _ hu => exact (commitWrites_access hu).2.2.2.trans k
  | bothReadBack => simpa only [loadBothBanks] using k
  | kept | bound | configured | initialised | activated | deactivated | triggersSet | emptied | edited => exact k

theorem CommandEffect.inv {s t : State} {i : Instr} (e : CommandEffect s i t) (k : s.Inv) : t.Inv := by
  obtain ⟨fits, ctl, sound, lens, sel⟩ := inv_iff.mp k
  exact inv_iff.mpr ⟨e.fits ctl fits, e.control ctl, e.loadedSound sound, e.banksMeet (fun _ _ => trivial) lens,
    e.selection sel⟩

/-- Settles O58: the invariant is kept by bookkeeping, by TRIG and DP, and by each effect a command can have. -/
theorem stepKeepsTheInvariant : Obligations.StepKeepsTheInvariant := fun _ _ hs h =>
  step_keeps BookkeepingOnly.inv AgentEffect.inv CommandEffect.inv h hs

/-- The premise of O60 in the terms of BanksMeet, for a state that meets the invariant. -/
theorem banksMeet_legal_iff {s : State} (k : s.Inv) : s.BanksMeet (fun r => r.toNat ≤ 5) ↔
    (inInitialisedOrOperational s.lc = true → ∀ b, bankExists s b = true →
      ratesLegal (s.cur.get b).cc ∧ ratesLegal (s.nxt.get b).cc ∧
      (loaded s b = true → ratesLegal (s.work.get b).cc)) := by
  obtain ⟨-, -, -, lens, -⟩ := inv_iff.mp k
  refine ⟨fun h hl b hb => ?_, fun h hl b hb => ?_⟩
  · obtain ⟨⟨hc, hn⟩, hw⟩ := h hl b hb
    exact ⟨hc.2, hn.2, fun x => (hw x).2⟩
  · obtain ⟨hc, hn, hw⟩ := h hl b hb
    obtain ⟨⟨lc, ln⟩, lw⟩ := lens hl b hb
    exact ⟨⟨⟨lc.1, hc⟩, ln.1, hn⟩, fun x => ⟨(lw x).1, hw x⟩⟩

theorem BookkeepingOnly.banksMeet {Q : RateCode → Prop} {s t : State} (h : BookkeepingOnly s t) (k : s.BanksMeet Q) :
    t.BanksMeet Q := by
  rw [h]; exact k

/-- Settles O60: a rate code that a step writes comes from a bank, from a loaded WORK, or from DERIVE_RATE, or is 0. -/
theorem rateCodesStayLegal : Obligations.RateCodesStayLegal := fun _ _ hs h hr =>
  (banksMeet_legal_iff (stepKeepsTheInvariant _ _ hs h)).mp
    (step_keeps BookkeepingOnly.banksMeet (fun e k => k.agents e) (fun e k => e.banksMeet (fun _ => id) k) h
      ((banksMeet_legal_iff hs).mpr hr))

end Sys2Proof.Machine
end

section
/-! SUPPORT. The statements about HOST's turn (R28, R256) and about what commands and agents leave alone (R29, R38, R40,
R44), read off CommandEffect. -/

namespace Sys2Proof.Machine

open Sys2Proof Sys2Proof.Claims

/-! ### Steps -/

/-- A turn of TRIG or DP is that agent's step (R17). -/
theorem step_agent {s : State} {e : AgentEvent} {rest : List Turn} (h : s.sched = .agent e :: rest) :
    step s = .next (agentStep e { s with sched := rest }) := by
  simp only [step, h]

/-- An agent's turn has the effect of its event. -/
theorem step_agent_effect {s t : State} {e : AgentEvent} {rest : List Turn} (hs : s.sched = .agent e :: rest)
    (h : step s = .next t) : AgentEffect s t := by
  obtain rfl := Host.Outcome.next.inj ((step_agent hs).symm.trans h)
  exact (AgentEffect.of_sched s rest).trans (agentStep_effect e _)

/-- Without an agent's turn at its head the schedule gives HOST the turn, with its tail to follow. -/
theorem hostIsNext_tail {s : State} (h : ∀ e rest, s.sched ≠ .agent e :: rest) : hostIsNext s s.sched.tail := by
  unfold hostIsNext
  cases hq : s.sched with
  | nil => exact .inr ⟨rfl, rfl⟩
  | cons x q =>
    cases x with
    | host => exact .inl rfl
    | agent e => exact absurd hq (h e q)

/-- Settles O7: HOST's turn passes, halted or at its program's end. -/
theorem haltedOrFinishedHostChangesNothing : Obligations.HaltedOrFinishedHostChangesNothing := by
  intro s rest hn h
  rw [step_host hn]
  rcases h with hf | hp
  · exact hostTurn_halted hf
  · have none : ({ s with sched := rest } : State).program[({ s with sched := rest } : State).pos]? = none :=
      List.getElem?_eq_none hp
    unfold hostTurn
    rw [none]
    split <;> rfl

/-- Settles O10: HOST's turn is the one of a halted HOST, and no agent writes the fault record. -/
theorem faultIsSticky : Obligations.FaultIsSticky := by
  intro s t c hf h
  by_cases ha : ∃ e rest, s.sched = .agent e :: rest
  · obtain ⟨e, rest, hs⟩ := ha
    have ht := Host.Outcome.next.inj (h.symm.trans (step_agent hs))
    exact ⟨(step_agent_effect hs h).frame.fault_eq.trans hf, .inl ⟨e, rest, hs, ht⟩⟩
  · have hs : ∀ e rest, s.sched ≠ .agent e :: rest := fun e rest k => ha ⟨e, rest, k⟩
    have halted := haltedOrFinishedHostChangesNothing s s.sched.tail (hostIsNext_tail hs) (.inl (by simp [hf]))
    obtain rfl := Host.Outcome.next.inj (halted.symm.trans h)
    exact ⟨hf, .inr ⟨hs, rfl⟩⟩

/-- Each command of an expansion passes over exactly what is left of it (R78). -/
theorem stopAtFailure_skips (l : List (Word × Args)) {k : Nat} {c : Command} (h : (stopAtFailure l)[k]? = some c) :
    k + 1 + c.skipOnFail = (stopAtFailure l).length := by
  have length : ∀ l, (stopAtFailure l).length = l.length := fun l => by
    induction l with
    | nil => rfl
    | cons x l ih => simp [stopAtFailure, ih]
  induction l generalizing k with
  | nil => simp [stopAtFailure] at h
  | cons x l ih =>
    cases k with
    | zero =>
      obtain rfl : _ = c := by simpa [stopAtFailure] using h
      simp [stopAtFailure, length]; omega
    | succ k =>
      have := ih (by simpa [stopAtFailure] using h)
      simp only [stopAtFailure, List.length_cons]
      omega

/-- On HOST's turn a command that decodes runs, and HOST reacts to its response (R28, R60, R78). -/
theorem step_runs {s : State} {c : Command} {i : Instr} {rest : List Turn} (hf : s.fault = none)
    (hp : s.program[s.pos]? = some c) (hd : decode c.cmd = .ok i) (hn : hostIsNext s rest) :
    step s = mapNext (endBringup c) (exec i { s with sched := rest, cmd := c.cmd, args := c.args }) := by
  rw [step_host hn, hostTurn_issues (s := { s with sched := rest }) hf hp, runCommand, latchCommand_cmd, hd]
  rfl

/-- Settles O6 by what HOST makes of each outcome of the command, and by the lengths of an expansion's tails. -/
theorem stepRunsDecodedCommand : Obligations.StepRunsDecodedCommand := by
  refine ⟨fun s c i rest hf hp hd hn => ?_, fun switchable name seqLen tuserSel k c h => stopAtFailure_skips _ h⟩
  rw [step_runs hf hp hd hn]
  refine ⟨fun hk => ?_, fun t ht => ⟨fun htf hr => ?_, fun h => ?_⟩, fun f h => ?_, fun r h => ?_⟩
  · cases exec i { s with sched := rest, cmd := c.cmd, args := c.args } with
    | next t => rw [mapNext_next, endBringup_alone hk]
    | fault f => rfl
    | refused r => rfl
  · rw [ht, mapNext_next, endBringup_failed htf hr]
  · rw [ht, mapNext_next]
    rcases h with h | h
    · rw [endBringup_fault h]
    · rw [endBringup_succeeded h]
  · rw [h, mapNext_fault]
  · rw [h, mapNext_refused]

/-! ### Commands -/

/-- Settles O18 by the order of the checks of R257; LOOKUP reads no WORK. -/
theorem unloadedWorkIsRaised : Obligations.UnloadedWorkIsRaised := by
  intro i s hl hp hb hw hf
  have hi : i ≠ .lookup := by
    rintro rfl
    simp [workOk, readsWork] at hw
  rw [exec_eq_guarded i s hi, guarded_workUnloaded hl hp hb hw, raise_of_none _ hf]

/-- No effect of another command moves the lifecycle (R29, R244). -/
theorem CommandEffect.lc_eq {s t : State} {i : Instr} (e : CommandEffect s i t) (hi : isLifecycle i = false) :
    t.lc = s.lc := by
  cases e with
  | kept | triggersSet | emptied | edited => rfl
  | bound | reset | configured | initialised | activated | deactivated | closed => cases hi
  | readBack => exact (loadCurrent_access _ s).lc_eq
  | bothReadBack => exact (loadBothBanks_access s).lc_eq
  | armed _ _ hu | pending _ _ hu => exact (commitWrites_access hu).1.lc_eq

/-- Settles O11 by the effects of the commands and the frame of the agents. -/
theorem lifecycleMovesOnlyByItsCommands : Obligations.LifecycleMovesOnlyByItsCommands := by
  refine ⟨fun i s t hi h => ?_, fun s t e rest hs h => (step_agent_effect hs h).frame.lc_eq⟩
  obtain ⟨u, e, b⟩ := exec_effect h
  rw [b]
  exact e.lc_eq hi

/-- Only RESET clears an overflow bit (R44). -/
theorem CommandEffect.ovf_sticky {s t : State} {i : Instr} (e : CommandEffect s i t) (hi : i ≠ .reset) :
    s.ovf ||| t.ovf = t.ovf := by
  cases e with
  | reset => exact absurd rfl hi
  | readBack => exact (loadCurrent_access _ s).sticky
  | bothReadBack => exact (loadBothBanks_access s).sticky
  | armed _ _ hu | pending _ _ hu => exact (commitWrites_access hu).1.sticky
  | kept | bound | configured | initialised | activated | deactivated | closed | triggersSet | emptied | edited =>
    exact BitVec.or_self

/-- Settles O13 by the effects of the commands and of the agents. -/
theorem overflowBitsAreSticky : Obligations.OverflowBitsAreSticky := by
  refine ⟨fun i s t hi h => ?_, fun s t e rest hs h => (step_agent_effect hs h).sticky⟩
  obtain ⟨u, e, b⟩ := exec_effect h
  rw [b]
  exact e.ovf_sticky hi

/-- The trigger configurations are written by SET_TRIGGERS_CFG and RESET alone (R40). -/
theorem CommandEffect.triggers_eq {s t : State} {i : Instr} (e : CommandEffect s i t) (hs : i ≠ .setTriggersCfg)
    (hr : i ≠ .reset) :
    t.trigActivate.edgeLevel = s.trigActivate.edgeLevel ∧ t.trigActivate.tuserBit = s.trigActivate.tuserBit ∧
      t.trigCcUpdate.edgeLevel = s.trigCcUpdate.edgeLevel ∧ t.trigCcUpdate.tuserBit = s.trigCcUpdate.tuserBit := by
  cases e with
  | reset => exact absurd rfl hr
  | triggersSet => exact absurd rfl hs
  | readBack => exact (loadCurrent_access _ s).triggers_eq
  | bothReadBack => exact (loadBothBanks_access s).triggers_eq
  | armed _ _ hu | pending _ _ hu => exact (commitWrites_access hu).1.triggers_eq
  | kept | bound | configured | initialised | activated | deactivated | closed | emptied | edited =>
    exact ⟨rfl, rfl, rfl, rfl⟩

/-- Only ACTIVATE arms the activation trigger (R40). -/
theorem CommandEffect.activate_armed {s t : State} {i : Instr} (e : CommandEffect s i t)
    (ht : t.trigActivate.armed = true) : s.trigActivate.armed = true ∨ i = .activate := by
  cases e with
  | activated => exact .inr rfl
  | reset | deactivated => cases ht
  | readBack => exact .inl ((loadCurrent_access _ s).activate ht)
  | bothReadBack => exact .inl ((loadBothBanks_access s).activate ht)
  | armed _ _ hu | pending _ _ hu => exact .inl ((commitWrites_access hu).1.activate ht)
  | kept | bound | configured | initialised | closed | triggersSet | emptied | edited => exact .inl ht

/-- Only the two commits write NXT. -/
theorem isCommit_of_commitWrites {i : Instr} {s u : State} (h : commitWrites i s = some u) :
    i = .commit ∨ i = .commitSw :=
  (commitWrites_cases h).imp And.left And.left

/-- Only a commit arms the update trigger (R40). -/
theorem CommandEffect.update_armed {s t : State} {i : Instr} (e : CommandEffect s i t)
    (ht : t.trigCcUpdate.armed = true) : s.trigCcUpdate.armed = true ∨ i = .commit ∨ i = .commitSw := by
  cases e with
  | armed _ _ hu | pending _ _ hu => exact .inr (isCommit_of_commitWrites hu)
  | reset => cases ht
  | readBack => exact .inl ((loadCurrent_access _ s).update ht)
  | bothReadBack => exact .inl ((loadBothBanks_access s).update ht)
  | kept | bound | configured | initialised | activated | deactivated | closed | triggersSet | emptied | edited =>
    exact .inl ht

/-- Settles O12: what each effect does to the triggers, field by field. -/
theorem triggersAreWrittenOnlyByTheirCommands : Obligations.TriggersAreWrittenOnlyByTheirCommands := by
  intro i s t h
  obtain ⟨u, e, b⟩ := exec_effect h
  rw [b]
  exact ⟨e.triggers_eq, fun hs ht => (e.activate_armed ht).resolve_left (by simp [hs]),
    fun hs ht => (e.update_armed ht).resolve_left (by simp [hs])⟩

/-- All that a command does to commitFatal: CLOSE clears it, and a commit whose trigger is still armed after its writes,
and so was before them, sets it (R38). -/
theorem CommandEffect.commitFatal_cases {s t : State} {i : Instr} (e : CommandEffect s i t) :
    t.commitFatal = s.commitFatal ∨ (i = .close ∧ t.commitFatal = false) ∨
      ((i = .commit ∨ i = .commitSw) ∧ s.trigCcUpdate.armed = true ∧ t.commitFatal = true) := by
  cases e with
  | closed => exact .inr (.inl ⟨rfl, rfl⟩)
  | pending _ _ hu hp =>
    exact .inr (.inr ⟨isCommit_of_commitWrites hu, (commitWrites_access hu).1.update hp, rfl⟩)
  | armed _ _ hu => exact .inl (commitWrites_access hu).1.commitFatal_eq
  | readBack => exact .inl (loadCurrent_access _ s).commitFatal_eq
  | bothReadBack => exact .inl (loadBothBanks_access s).commitFatal_eq
  | kept | bound | reset | configured | initialised | activated | deactivated | triggersSet | emptied | edited =>
    exact .inl rfl

/-- Settles O14: of the three cases for commitFatal only one sets it and only one clears it. -/
theorem commitFatalOnlyByPendingCommit : Obligations.CommitFatalOnlyByPendingCommit := by
  intro i s t h
  obtain ⟨u, e, b⟩ := exec_effect h
  rw [b]
  rcases e.commitFatal_cases with k | ⟨hi, k⟩ | ⟨hi, ha, k⟩
  · exact ⟨fun hs ht => by simp [k, hs] at ht, fun hs ht => by simp [k, hs] at ht⟩
  · exact ⟨fun _ ht => by simp [k] at ht, fun _ _ => hi⟩
  · exact ⟨fun _ _ => ⟨hi, ha⟩, fun _ ht => by simp [k] at ht⟩

end Sys2Proof.Machine
end

section
/-! SUPPORT. The statement about read-backs under any schedule (R164 to R166), read off what loadCurrent and
loadBothBanks do. -/

namespace Sys2Proof.Machine

open Sys2Proof Sys2Proof.Claims

/-- A command whose preconditions hold and that has no index out of range runs its body. -/
theorem exec_of_runs {i : Instr} {s : State} (hi : i ≠ .lookup) (h : runs i s) (hx : indexOk i s = true) :
    exec i s = bodyOf i s := by
  obtain ⟨hl, hp, hb, hw⟩ := h
  rw [exec_eq_guarded i s hi, guarded_runs hl hp hb hw hx]

/-- GET_CURRENT_CFG_SW passes the bank rules in a switchable build only. -/
theorem switchable_of_runs_getCurrentCfgSw {s : State} (h : runs .getCurrentCfgSw s) : s.build.switchable = true := by
  obtain ⟨-, -, hb, -⟩ := h
  exact hb

/-- A bank's translation is what the bank reads back as (R164). -/
theorem translateBank_readsBackAs (nu : Option CcId) (t : Nat) (h : HwBank) :
    readsBackAs nu h (translateBank nu t h) := by
  have seq : ∀ i : Fin 16, (translateBank nu t h).seq[i] = slotRead nu h i := fun i => by simp [translateBank]
  obtain ⟨unused, -⟩ := translateBank_sound nu t h
  refine ⟨rfl, fun i hi => ?_, fun i hi hn => ?_, fun i hi hn => ?_, unused, rfl, rfl, fun n => ?_, ?_⟩
  · rw [seq, slotRead, if_neg (by omega)]
  · rw [seq, slotRead, if_pos hi, if_pos hn]
  · rw [seq, slotRead, if_pos hi, if_neg hn]
  · simp [entry, translateBank, ncoRead]
  · exact List.ext_getElem? fun a => by simp [translateBank, auxRead, Function.comp_def]

/-- A response to a command after the agents' events counts from HOST's position before them, which they leave alone. -/
theorem respondOk_agentMoves (q z : List Turn) (s : State) (w : PerBank Snapshot) (v : PerBank Bool) (d : Nat) :
    respondOk .empty { agentMoves q s with sched := z, work := w, wv := v, draws := d } =
      { agentMoves q s with
        sched := z, work := w, wv := v, resp := okResp .empty, pos := s.pos + 1, draws := d } := by
  rw [← (agentMoves_effect q s).frame.pos_eq]
  rfl

/-- Settles O42: the translation of the bank that was read, which is a mixture when a fire falls among the reads. -/
theorem readBackCompletesUnderAnySchedule : Obligations.ReadBackCompletesUnderAnySchedule := by
  refine fun s => ⟨fun hr => ?_, fun hr => ?_⟩
  · obtain ⟨h, load, -, torn⟩ := loadCurrent_eq .dl s
    refine ⟨translateBank (s.notUsed.get .dl) s.draws h, s.draws + 1, ?_, fun hc hn k hk => ?_⟩
    · rw [exec_of_runs (by simp) hr rfl, bodyOf, load, respondOk_agentMoves]
    · exact ⟨h, torn k hk hc hn rfl, translateBank_readsBackAs _ _ h⟩
  · obtain ⟨h, g, load, -, torn⟩ := loadBothBanks_eq (switchable_of_runs_getCurrentCfgSw hr)
    refine ⟨translateBank s.notUsed.dl s.draws h, translateBank s.notUsed.ul (s.draws + 1) g, s.draws + 2, ?_,
      fun hf k hk => ?_⟩
    · rw [exec_of_runs (by simp) hr rfl, bodyOf, load, respondOk_agentMoves]
    · obtain ⟨dl, ul⟩ := torn k hk hf
      exact ⟨h, g, dl, translateBank_readsBackAs _ _ h, ul, translateBank_readsBackAs _ _ g⟩

end Sys2Proof.Machine
end

section
/-! SUPPORT. The statements about the command word (R67, R74 to R76, R79): a word is its six fields, each row of the opcode
table makes commands whose words are the row's, and the decoder answers a row's command exactly when the row's fields fit. -/

namespace Sys2Proof

/-! ### Words and their fields -/

/-- A word is the six fields it is read as (R67). -/
theorem fields_ext {w v : Word} (opc : fieldOpc w = fieldOpc v) (bank : fieldBank w = fieldBank v)
    (mode : fieldMode w = fieldMode v) (rsv : fieldRsv w = fieldRsv v) (ccid : fieldCcid w = fieldCcid v)
    (map : fieldMap w = fieldMap v) : w = v := by
  simp only [fieldOpc, fieldBank, fieldMode, fieldRsv, fieldCcid, fieldMap, BitVec.toNat_eq, BitVec.extractLsb'_toNat,
    Nat.shiftRight_eq_div_pow] at *
  omega

/-- A word with RSV = 0 is the command word of its other fields. -/
theorem cmdWord_fields {w : Word} (h : fieldRsv w = 0) :
    cmdWord (fieldOpc w) (fieldBank w) (fieldMode w) (fieldCcid w) (fieldMap w) = w := by
  apply fields_ext <;> simp [h]

@[simp] theorem Bank.bit_ofBit (b : BitVec 1) : (Bank.ofBit b).bit = b := by revert b; decide

@[simp] theorem CapMode.bit_ofBit (m : BitVec 1) : (CapMode.ofBit m).bit = m := by revert m; decide

/-! ### The rows of the table (R74) -/

/-- No two rows have one opcode. -/
theorem opcodeTable_unique {r q : OpcodeRow} (hr : r ∈ opcodeTable) (hq : q ∈ opcodeTable) (h : r.opc = q.opc) : r = q :=
  List.inj_on_of_nodup_map (f := OpcodeRow.opc) (by decide) hr hq h

theorem findRow_eq_some_iff {o : BitVec 8} {r : OpcodeRow} : findRow o = some r ↔ r ∈ opcodeTable ∧ r.opc = o := by
  have found : ∀ {q}, findRow o = some q → q ∈ opcodeTable ∧ q.opc = o := fun h =>
    ⟨List.mem_of_find?_eq_some h, by simpa using List.find?_some h⟩
  refine ⟨found, fun ⟨hr, ho⟩ => ?_⟩
  cases h : findRow o with
  | none => exact absurd ho (by simpa using List.find?_eq_none.mp h r hr)
  | some q =>
    obtain ⟨hq, hqo⟩ := found h
    rw [opcodeTable_unique hq hr (hqo.trans ho.symm)]

/-- What the check of R75, step 3, says of each field. -/
theorem OpcodeRow.unusedZero_iff {r : OpcodeRow} {w : Word} : r.unusedZero w = true ↔
    (r.usesBank = false → fieldBank w = 0) ∧ (r.usesMode = false → fieldMode w = 0) ∧
      (r.usesCcid = false → fieldCcid w = 0) ∧ (r.usesMap = false → fieldMap w = 0) := by
  simp [OpcodeRow.unusedZero, and_assoc, or_iff_not_imp_left]

@[simp] theorem OpcodeRow.unusedZero_cmdWord {r : OpcodeRow} {o : BitVec 8} {b m : BitVec 1} {c : CcId} {p : SlotMap} :
    r.unusedZero (cmdWord o b m c p) = true ↔
      (r.usesBank = false → b = 0) ∧ (r.usesMode = false → m = 0) ∧ (r.usesCcid = false → c = 0) ∧
        (r.usesMap = false → p = 0) := by
  simp [OpcodeRow.unusedZero_iff]

/-- The word of the command a row makes is the row's opcode with the fields the command is made of, where the fields the
row does not read are zero. -/
theorem encode_make : ∀ r ∈ opcodeTable, ∀ (b m : BitVec 1) (c : CcId) (p : SlotMap),
    r.unusedZero (cmdWord r.opc b m c p) = true →
    encode (r.make (Bank.ofBit b) (CapMode.ofBit m) c p) = cmdWord r.opc b m c p := by
  simp only [opcodeTable, lifecycleRows, snapshotRows, builderRows, commitRows, queryRows, List.forall_mem_append,
    List.forall_mem_cons]
  simp +contextual [plainRow, bankRow, carrierRow, slotsRow, mapRow, encode]

/-! ### A row's match and mask (R75) -/

/-- The mask holds all bits of the opcode, of RSV and of each field the row does not read, and no other bit. -/
theorem maskBits_fields (r : OpcodeRow) :
    fieldOpc r.maskBits = BitVec.allOnes 8 ∧
      fieldBank r.maskBits = (if r.usesBank then 0 else BitVec.allOnes 1) ∧
      fieldMode r.maskBits = (if r.usesMode then 0 else BitVec.allOnes 1) ∧ fieldRsv r.maskBits = BitVec.allOnes 2 ∧
      fieldCcid r.maskBits = (if r.usesCcid then 0 else BitVec.allOnes 4) ∧
      fieldMap r.maskBits = (if r.usesMap then 0 else BitVec.allOnes 16) := by
  unfold OpcodeRow.maskBits
  generalize r.usesBank = bank, r.usesMode = mode, r.usesCcid = ccid, r.usesMap = map
  revert bank mode ccid map
  decide

theorem matchBits_eq_cmdWord (r : OpcodeRow) : r.matchBits = cmdWord r.opc 0 0 0 0 := by
  simp [OpcodeRow.matchBits, cmdWord]

/-- Two words agree under a mask when each of their fields does. -/
theorem and_eq_iff_fields {w v u : Word} : w &&& v = u ↔
    fieldOpc w &&& fieldOpc v = fieldOpc u ∧ fieldBank w &&& fieldBank v = fieldBank u ∧
      fieldMode w &&& fieldMode v = fieldMode u ∧ fieldRsv w &&& fieldRsv v = fieldRsv u ∧
      fieldCcid w &&& fieldCcid v = fieldCcid u ∧ fieldMap w &&& fieldMap v = fieldMap u := by
  simp only [fieldOpc, fieldBank, fieldMode, fieldRsv, fieldCcid, fieldMap, ← BitVec.extractLsb'_and]
  constructor
  · rintro rfl
    simp
  · rintro ⟨opc, bank, mode, rsv, ccid, map⟩
    exact fields_ext opc bank mode rsv ccid map

/-- A masked field is zero exactly when the field is, if the row does not read it. -/
theorem and_ite_allOnes_eq_zero_iff {n : Nat} {x : BitVec n} {used : Bool} :
    x &&& (if used then 0 else BitVec.allOnes n) = 0 ↔ (used = false → x = 0) := by
  cases used <;> simp

/-- The mask and match of a row compare the opcode, RSV and the fields the row does not read. -/
theorem and_maskBits_eq_matchBits_iff (r : OpcodeRow) (w : Word) :
    w &&& r.maskBits = r.matchBits ↔ fieldOpc w = r.opc ∧ fieldRsv w = 0 ∧ r.unusedZero w = true := by
  obtain ⟨opc, bank, mode, rsv, ccid, map⟩ := maskBits_fields r
  rw [and_eq_iff_fields, matchBits_eq_cmdWord, opc, bank, mode, rsv, ccid, map, OpcodeRow.unusedZero_iff]
  simp only [fieldOpc_cmdWord, fieldBank_cmdWord, fieldMode_cmdWord, fieldRsv_cmdWord, fieldCcid_cmdWord,
    fieldMap_cmdWord, and_ite_allOnes_eq_zero_iff, BitVec.and_allOnes]
  tauto

/-! ### The decoder (R75) -/

/-- What the decoder accepts: the words with a row's opcode, RSV = 0 and zeros in the fields the row does not read. -/
theorem decode_eq_ok_iff {w : Word} {i : Instr} : decode w = .ok i ↔
    ∃ r ∈ opcodeTable, fieldOpc w = r.opc ∧ fieldRsv w = 0 ∧ r.unusedZero w = true ∧
      i = r.make (Bank.ofBit (fieldBank w)) (CapMode.ofBit (fieldMode w)) (fieldCcid w) (fieldMap w) := by
  constructor
  · intro h
    obtain ⟨r, hr, fits⟩ := decode_eq_ok h
    obtain ⟨hmem, hopc⟩ := findRow_eq_some_iff.mp hr
    exact ⟨r, hmem, hopc.symm, fits⟩
  · rintro ⟨r, hmem, hopc, hv, hu, rfl⟩
    simp [decode, findRow_eq_some_iff.mpr ⟨hmem, hopc.symm⟩, hv, hu]

/-- A command word whose opcode has a row, and whose fields the row reads or are zero, is the row's command. -/
theorem decode_cmdWord {o : BitVec 8} {r : OpcodeRow} (h : findRow o = some r) {b m : BitVec 1} {c : CcId} {p : SlotMap}
    (hu : r.unusedZero (cmdWord o b m c p) = true) :
    decode (cmdWord o b m c p) = .ok (r.make (Bank.ofBit b) (CapMode.ofBit m) c p) := by
  obtain ⟨hmem, hopc⟩ := findRow_eq_some_iff.mp h
  exact decode_eq_ok_iff.mpr ⟨r, hmem, by simp [hopc], by simp, hu, by simp⟩

theorem decode_plainRow {o : BitVec 8} {i : Instr} (h : findRow o = some (plainRow o i)) :
    decode (cmdWord o 0 0 0 0) = .ok i :=
  decode_cmdWord h (by simp)

theorem decode_bankRow {o : BitVec 8} {f : Bank → Instr} (h : findRow o = some (bankRow o f)) (b : Bank) :
    decode (cmdWord o b.bit 0 0 0) = .ok (f b) := by
  simpa [bankRow] using decode_cmdWord h (b := b.bit) (by simp [bankRow])

theorem decode_carrierRow {o : BitVec 8} {f : Bank → CcId → Instr} (h : findRow o = some (carrierRow o f)) (b : Bank)
    (c : CcId) : decode (cmdWord o b.bit 0 c 0) = .ok (f b c) := by
  simpa [carrierRow] using decode_cmdWord h (b := b.bit) (c := c) (by simp [carrierRow])

theorem decode_slotsRow {o : BitVec 8} {f : Bank → CcId → SlotMap → Instr} (h : findRow o = some (slotsRow o f))
    (b : Bank) (c : CcId) (p : SlotMap) : decode (cmdWord o b.bit 0 c p) = .ok (f b c p) := by
  simpa [slotsRow] using decode_cmdWord h (b := b.bit) (c := c) (p := p) (by simp [slotsRow])

theorem decode_mapRow {o : BitVec 8} {f : SlotMap → Instr} (h : findRow o = some (mapRow o f)) (p : SlotMap) :
    decode (cmdWord o 0 0 0 p) = .ok (f p) :=
  decode_cmdWord h (by simp [mapRow])

theorem decode_fullRow {o : BitVec 8} {f : Bank → CapMode → CcId → SlotMap → Instr}
    (h : findRow o = some ⟨o, true, true, true, true, f⟩) (b : Bank) (m : CapMode) (c : CcId) (p : SlotMap) :
    decode (cmdWord o b.bit m.bit c p) = .ok (f b m c p) := by
  simpa using decode_cmdWord h (b := b.bit) (m := m.bit) (c := c) (p := p) (by simp)

/-! ### The statements -/

/-- Settles O1: each command has a row, and the kind of the row says which fields its word carries. -/
theorem encodeThenDecode : Obligations.EncodeThenDecode := by
  intro i
  cases i with
  | lookup | reset | configure | initialise | activate | deactivate | close | getState | getTriggersCfg | setTriggersCfg
  | getStatus | getCurrentCfg | getCurrentCfgSw | setAntGain | setAllAntGain | commit | commitSw
  | derivePhaseOffset => exact decode_plainRow rfl
  | getEmptyCfg b | readWork b | addAux b | removeAux b | findUnusedId b => exact decode_bankRow rfl b
  | removeCc b c | updateCc b c | moveCc b c => exact decode_carrierRow rfl b c
  | addCc b c p | checkSlots b c p => exact decode_slotsRow rfl b c p
  | countOnes p | deriveRate p => exact decode_mapRow rfl p
  | checkCapacity b m c p => exact decode_fullRow rfl b m c p

/-- Settles O2: the fields of an accepted word are those its row's command is made of, and RSV is zero. -/
theorem decodeThenEncode : Obligations.DecodeThenEncode := by
  intro w i h
  obtain ⟨r, hmem, hopc, hv, hu, rfl⟩ := decode_eq_ok_iff.mp h
  have hw : cmdWord r.opc (fieldBank w) (fieldMode w) (fieldCcid w) (fieldMap w) = w := hopc ▸ cmdWord_fields hv
  rw [encode_make r hmem _ _ _ _ (hw.symm ▸ hu), hw]

/-- Settles O3: the decoder's steps 1 to 3 are the row's mask and match; two rows that match have the word's opcode. -/
theorem decodeByMatchAndMask : Obligations.DecodeByMatchAndMask := by
  refine ⟨fun w i => ?_, fun w r q _ _ hr hq => ?_⟩
  · simp only [decode_eq_ok_iff, and_maskBits_eq_matchBits_iff, and_assoc]
  · obtain ⟨ho, -⟩ := (and_maskBits_eq_matchBits_iff r w).mp hr
    obtain ⟨ho', -⟩ := (and_maskBits_eq_matchBits_iff q w).mp hq
    exact ho.symm.trans ho'

/-- Settles O4: closed words, by running the decoder on each word. -/
theorem publishedWordsDecode : Obligations.PublishedWordsDecode := by
  unfold Obligations.PublishedWordsDecode
  decide

end Sys2Proof
end

section
/-! SUPPORT. The statements about an illegal word on HOST's turn (R76) and about the bank rules (R257, step 4). -/

namespace Sys2Proof.Machine

open Sys2Proof

/-- A word that is no command raises ILLEGAL_COMMAND (R75, R256). -/
theorem runCommand_illegal {s : State} {e : DecodeError} (hd : decode s.cmd = .error e) (hf : s.fault = none) :
    runCommand s = .next { s with fault := some .illegalCommand } := by
  rw [runCommand, hd, raise_of_none _ hf]

/-- On HOST's turn a word that is no command halts HOST where it is, with CMD and ARGS written (R27, R76). -/
theorem step_illegal {s : State} {c : Command} {e : DecodeError} {rest : List Turn} (hf : s.fault = none)
    (hp : s.program[s.pos]? = some c) (hd : decode c.cmd = .error e) (hn : hostIsNext s rest) :
    step s = .next { s with sched := rest, cmd := c.cmd, args := c.args, fault := some .illegalCommand } := by
  rw [step_host hn, hostTurn_issues (s := { s with sched := rest }) hf hp,
    runCommand_illegal (s := latchCommand c { s with sched := rest }) hd hf, mapNext_next, endBringup_fault (by simp)]
  rfl

/-- Settles O5: an accepted word has a row, RSV = 0 and zeros in the fields the row does not read; each way contradicts one
of these. -/
theorem illegalWordHaltsHost : Obligations.IllegalWordHaltsHost := by
  intro s rest c hf hn hp illegal
  cases hd : decode c.cmd with
  | error e => exact step_illegal hf hp hd hn
  | ok i =>
    exfalso
    obtain ⟨r, hmem, hopc, hv, hu, -⟩ := decode_eq_ok_iff.mp hd
    rcases illegal with unassigned | rsv | ⟨q, hq, hqo, unused⟩
    · exact unassigned r hmem hopc.symm
    · exact rsv hv
    · obtain rfl := opcodeTable_unique hq hmem (hqo.trans hopc)
      obtain ⟨bank, mode, ccid, map⟩ := OpcodeRow.unusedZero_iff.mp hu
      rcases unused with ⟨no, ne⟩ | ⟨no, ne⟩ | ⟨no, ne⟩ | ⟨no, ne⟩
      exacts [ne (bank no), ne (mode no), ne (ccid no), ne (map no)]

/-- Settles O17 by the order of the checks of R257; LOOKUP names no bank. -/
theorem bankModeIsRaised : Obligations.BankModeIsRaised := by
  intro i s hl hp hb hf
  have hi : i ≠ .lookup := by
    rintro rfl
    simp [bankModeOk, Instr.bankOperand] at hb
  rw [exec_eq_guarded i s hi, guarded_bankMode hl hp hb, raise_of_none _ hf]

end Sys2Proof.Machine
end

section
/-! SUPPORT. The statements about the pure functions of 41_bitmap_algebra.md: countOnes as a count over the 16 bits (R116),
the placeholder (R117), and what assignSlots and releaseSlots answer (R119, R120). -/

namespace Sys2Proof.Machine

open Sys2Proof Sys2Proof.Claims

/-! ### countOnes (R116) -/

/-- Counting the bits below both bounds is counting, below the second, the bits that lie below the first. -/
theorem onesBelow_min (map : SlotMap) (length n : Nat) :
    onesBelow map (min length n) = (List.range n).countP fun i => decide (i < length) && map.getLsbD i := by
  induction n with
  | zero => simp [onesBelow]
  | succ n ih =>
    rw [List.range_succ, List.countP_append, ← ih]
    by_cases h : n < length
    · rw [min_eq_right (by omega : n + 1 ≤ length), min_eq_right h.le]
      cases hb : map.getLsbD n <;> simp [onesBelow, h, hb]
    · rw [min_eq_left (by omega : length ≤ n + 1), min_eq_left (by omega : length ≤ n)]
      simp [h]

theorem countOnes_eq_countP (map : SlotMap) (length : Nat) :
    countOnes map length = (List.range 16).countP fun i => decide (i < length) && map.getLsbD i :=
  onesBelow_min map length 16

/-- Settles O31: both sides count the bits below the length among the 16. -/
theorem countOnesIsPopcountOfTheLowBits : Obligations.CountOnesIsPopcountOfTheLowBits := fun map length =>
  (countOnes_eq_countP map length).trans List.countP_eq_length_filter

theorem countOnes_le (map : SlotMap) (length : Nat) : countOnes map length ≤ 16 := by
  rw [countOnes_eq_countP]
  exact List.countP_le_length.trans_eq List.length_range

/-- The bits counted below the sequence length are the slots that the bitmap selects. -/
theorem countP_selects (w : Snapshot) (map : SlotMap) :
    (List.finRange 16).countP (selects w map) = countOnes map w.seqLen.val := by
  rw [countOnes_eq_countP, ← List.map_coe_finRange_eq_range, List.countP_map]
  rfl

theorem selects_iff {w : Snapshot} {map : SlotMap} {i : Fin 16} :
    selects w map i = true ↔ i.val < w.seqLen.val ∧ map.getLsbD i.val = true := by
  simp [selects]

/-! ### findUnusedId (R117) -/

/-- The search for the placeholder is a search among the numbers below 16. -/
theorem findUnusedId_eq_find_range (seq : Vector (Option CcId) 16) :
    findUnusedId seq =
      ((List.range 16).find? fun n => !seq.toList.contains (some (BitVec.ofNat 4 n))).map (BitVec.ofNat 4) :=
  List.find?_map

theorem not_contains_seq (seq : Vector (Option CcId) 16) (c : CcId) :
    (!seq.toList.contains (some c)) = true ↔ ∀ i : Fin 16, seq[i] ≠ some c := by
  rw [Bool.not_eq_true', ← Bool.not_eq_true, contains_seq]
  exact not_exists

/-- There is no placeholder exactly when every carrier holds a slot. -/
theorem findUnusedId_eq_none_iff {seq : Vector (Option CcId) 16} :
    findUnusedId seq = none ↔ ∀ c : CcId, ∃ i : Fin 16, seq[i] = some c := by
  simp only [findUnusedId, List.find?_eq_none, not_contains_seq, not_forall, not_not]
  exact ⟨fun h c => h c (mem_allIds c), fun h c _ => h c⟩

/-- The placeholder is below every other carrier that holds no slot. -/
theorem findUnusedId_least {seq : Vector (Option CcId) 16} {c : CcId} (h : findUnusedId seq = some c) {d : CcId}
    (hd : d < c) : ∃ i : Fin 16, seq[i] = some d := by
  rw [findUnusedId_eq_find_range, Option.map_eq_some_iff] at h
  obtain ⟨n, hn, rfl⟩ := h
  obtain ⟨-, hmem, least⟩ := List.find?_range_eq_some.mp hn
  have hlt : d.toNat < n := by
    have := List.mem_range.mp hmem
    simpa [BitVec.lt_def, Nat.mod_eq_of_lt this] using hd
  simpa using (contains_seq seq d).mp (by simpa using least d.toNat hlt)

/-- The placeholder is the only carrier that holds no slot while every smaller one does. -/
theorem findUnusedId_eq_some_iff {seq : Vector (Option CcId) 16} {c : CcId} : findUnusedId seq = some c ↔
    (∀ i : Fin 16, seq[i] ≠ some c) ∧ ∀ d : CcId, d < c → ∃ i : Fin 16, seq[i] = some d := by
  refine ⟨fun h => ⟨findUnusedId_absent h, fun d => findUnusedId_least h⟩, fun ⟨absent, below⟩ => ?_⟩
  cases hu : findUnusedId seq with
  | none =>
    obtain ⟨i, hi⟩ := findUnusedId_eq_none_iff.mp hu c
    exact absurd hi (absent i)
  | some u =>
    rcases Nat.lt_trichotomy u.toNat c.toNat with hlt | heq | hlt
    · obtain ⟨i, hi⟩ := below u hlt
      exact absurd hi (findUnusedId_absent hu i)
    · exact congrArg some (BitVec.eq_of_toNat_eq heq)
    · obtain ⟨i, hi⟩ := findUnusedId_least hu hlt
      exact absurd hi (absent i)

/-- Settles O32: the placeholder is the first absent ID of a search in order. -/
theorem findUnusedIdIsTheSmallestAbsentId : Obligations.FindUnusedIdIsTheSmallestAbsentId := fun _ =>
  ⟨fun _ => findUnusedId_eq_some_iff, findUnusedId_eq_none_iff⟩

/-! ### assignSlots (R119) -/

/-- The first check of R119 finds a bit at or above the sequence length. -/
theorem shiftRight_ne_zero_iff (map : SlotMap) (n : Nat) :
    map >>> n ≠ 0 ↔ ∃ i : Fin 16, n ≤ i.val ∧ map.getLsbD i.val = true := by
  constructor
  · intro h
    by_contra noBit
    refine h (BitVec.eq_of_getLsbD_eq fun j _ => ?_)
    have zero : (0 : SlotMap).getLsbD j = false := BitVec.getLsbD_zero
    rw [BitVec.getLsbD_ushiftRight, zero, ← Bool.not_eq_true]
    exact fun hb => noBit ⟨⟨n + j, BitVec.lt_of_getLsbD hb⟩, Nat.le_add_right n j, hb⟩
  · rintro ⟨i, hi, hb⟩ h
    have bit : (map >>> n).getLsbD (i.val - n) = true := by
      rwa [BitVec.getLsbD_ushiftRight, Nat.add_sub_cancel' hi]
    simp [h] at bit

/-- The second check of R119 finds a selected slot that is in use. -/
theorem collision_iff (w : Snapshot) (map : SlotMap) :
    ((List.finRange 16).any fun i => selects w map i && w.seq[i].isSome) = true ↔
      ∃ i : Fin 16, i.val < w.seqLen.val ∧ map.getLsbD i.val = true ∧ w.seq[i] ≠ none := by
  simp [List.any_eq_true, selects_iff, Option.isSome_iff_ne_none, and_assoc]

theorem legalOccupancy_iff {n : Nat} :
    legalOccupancy n = true ↔ n = 0 ∨ n = 1 ∨ n = 2 ∨ n = 4 ∨ n = 8 ∨ n = 16 := by
  simp [legalOccupancy]

/-- Settles O33: each check of assignSlots in the statement's words. -/
theorem assignSlotsChecksAndAssigns : Obligations.AssignSlotsChecksAndAssigns := by
  intro w c map beyond hit n legal
  have hbeyond : map >>> w.seqLen.val ≠ 0 ↔ beyond := shiftRight_ne_zero_iff map _
  have hhit : _ ↔ hit := collision_iff w map
  have hlegal : legalOccupancy (countOnes map w.seqLen.val) = true ↔ legal := legalOccupancy_iff
  refine ⟨fun hb => ?_, fun hb hh => ?_, fun hb hh hl => ?_, fun hb hh hl =>
    ⟨w.withSeq (Vector.ofFn fun i : Fin 16 => if selects w map i then some c else w.seq[i]), ?_, rfl, fun i => ?_⟩⟩
  · rw [assignSlots, if_pos (hbeyond.mpr hb)]
  · rw [assignSlots, if_neg (mt hbeyond.mp hb), if_pos (hhit.mpr hh)]
  · rw [assignSlots, if_neg (mt hbeyond.mp hb), if_neg (mt hhit.mp hh), if_neg (mt hlegal.mp hl)]
  · rw [assignSlots, if_neg (mt hbeyond.mp hb), if_neg (mt hhit.mp hh), if_pos (hlegal.mpr hl)]
  · simp [Snapshot.withSeq, selects_iff]

/-- An assignment that succeeds has passed the last two checks (R119). -/
theorem assignSlots_ok_checks {w w' : Snapshot} {c : CcId} {map : SlotMap} (h : assignSlots w c map = .ok w') :
    (∀ i : Fin 16, selects w map i = true → w.seq[i] = none) ∧
      legalOccupancy (countOnes map w.seqLen.val) = true := by
  obtain ⟨overflow, collision, illegal, -⟩ := assignSlotsChecksAndAssigns w c map
  have within := mt overflow (by simp [h])
  have free := mt (collision within) (by simp [h])
  refine ⟨fun i hi => ?_, legalOccupancy_iff.mpr (not_not.mp (mt (illegal within free) (by simp [h])))⟩
  obtain ⟨hlt, hbit⟩ := selects_iff.mp hi
  exact not_not.mp fun hne => free ⟨i, hlt, hbit, hne⟩

/-! ### releaseSlots (R120) -/

/-- Settles O34: releaseSlots replaces the sequence slot by slot. -/
theorem releaseSlotsClearsTheCarrier : Obligations.ReleaseSlotsClearsTheCarrier := fun w c =>
  ⟨rfl, fun i => by simp [releaseSlots, Snapshot.withSeq]⟩

end Sys2Proof.Machine
end

section
/-! SUPPORT. The statement about the query commands (R122, R123, R124, R137, R151, R197): each passes its checks and then is
its body, which answers the function of the statement. -/

namespace Sys2Proof.Machine

open Sys2Proof Sys2Proof.Claims

theorem withCfg_of_some {s : State} {cfg : HwCfg} (h : s.cfg = some cfg)
    (f : HwCfg → Host.Outcome State Fault Refusal) : withCfg s f = f cfg := by
  rw [withCfg, h]

theorem withLen_of_some {s : State} {l : SeqLen} (h : s.len = some l)
    (f : SeqLen → Host.Outcome State Fault Refusal) : withLen s f = f l := by
  rw [withLen, h]

/-- A command that is a dry run responds with the value, or with the cause of the failure, and writes nothing else. -/
theorem exec_of_dryRun {α : Type} {i : Instr} {s : State} {r : Except FailCause α} {p : α → Payload}
    (h : exec i s = .next (respondCheck r p s)) :
    (∀ v, r = .ok v → exec i s = .next { s with resp := okResp (p v), pos := s.pos + 1 }) ∧
      (∀ k, r = .error k → exec i s = .next { s with resp := failResp k, pos := s.pos + 1 }) := by
  constructor <;> rintro _ rfl <;> exact h

/-- Settles O38: a query that passes its checks is its body, which responds. -/
theorem queriesAnswerAndWriteNothing : Obligations.QueriesAnswerAndWriteNothing := by
  refine fun s => ⟨fun m hr => ?_, fun b hr => ?_, fun b c m hr => ?_, fun m l cfg hr hl hc => ?_,
    fun b md c m cfg hr hc => ?_, fun hr => exec_of_runs (by simp) hr rfl⟩
  · refine ⟨BitVec.ofNat 5 (countOnes m s.args.length.toNat), ?_, exec_of_runs (by simp) hr rfl⟩
    rw [BitVec.toNat_ofNat, Nat.mod_eq_of_lt ((countOnes_le m _).trans_lt (by decide))]
  · refine ⟨_, exec_of_runs (by simp) hr rfl, fun c hc => ?_, fun hn => ?_⟩
    · rw [hc, idCode, BitVec.toNat_setWidth_of_le (by decide)]
    · rw [hn]; rfl
  · exact exec_of_dryRun (exec_of_runs (by simp) hr rfl)
  · exact exec_of_dryRun (by rw [exec_of_runs (by simp) hr rfl, bodyOf, withLen_of_some hl, withCfg_of_some hc])
  · obtain ⟨ok, fail⟩ := exec_of_dryRun (i := .checkCapacity b md c m) (s := s)
      (by rw [exec_of_runs (by simp) hr rfl, bodyOf, withCfg_of_some hc])
    exact ⟨ok (), fail⟩

end Sys2Proof.Machine
end

section
/-! SUPPORT. The statement about slot counts and activity (R125): what the edits of the builder commands do to the slots
that each carrier holds. -/

namespace Sys2Proof.Machine

open Sys2Proof Sys2Proof.Claims

/-! ### The slots a carrier holds (R121) -/

theorem holds_iff {w : Snapshot} {c : CcId} {i : Fin 16} :
    holds w c i = true ↔ i.val < w.seqLen.val ∧ w.seq[i] = some c := by
  simp [holds]

theorem occCount_congr {v w : Snapshot} {c d : CcId} (h : ∀ i, holds v c i = holds w d i) :
    occCount v c = occCount w d :=
  congrArg (fun p => (List.finRange 16).countP p) (funext h)

theorem occCount_eq_zero_iff {w : Snapshot} {c : CcId} : occCount w c = 0 ↔ ∀ i, holds w c i = false := by
  simp [occCount, List.countP_eq_zero]

/-- The slots that carriers hold are a matter of the sequence and its length alone. -/
theorem occCount_of_seq_kept {old new : Snapshot} (hl : new.seqLen = old.seqLen) (hs : new.seq = old.seq) (c : CcId) :
    occCount new c = occCount old c :=
  occCount_congr fun i => by rw [holds, holds, hl, hs]

theorem ccActive_iff {d : CcDesc} : ccActive d = true ↔ d.rate ≠ rateDisabled := by
  simp [ccActive]

/-- Coherence speaks of the slot counts and the rate codes alone. -/
theorem Snapshot.coherent.of_kept {old new : Snapshot} (h : old.coherent)
    (occ : ∀ c, occCount new c = occCount old c) (rate : ∀ c, (entry new.cc c).rate = (entry old.cc c).rate) :
    new.coherent := by
  intro c
  rw [occ, ccActive_iff, rate, ← ccActive_iff]
  exact h c

/-- An edit that gives one carrier a legal slot count, and a rate exactly when the count is not 0, keeps coherence. -/
theorem Snapshot.coherent.of_carrier_changed {old new : Snapshot} (h : old.coherent) {c : CcId} {n : Nat} {r : RateCode}
    (legal : legalOccupancy n = true) (active : r = rateDisabled ↔ n = 0)
    (occ : ∀ d, occCount new d = if d = c then n else occCount old d)
    (rate : ∀ d, (entry new.cc d).rate = if d = c then r else (entry old.cc d).rate) : new.coherent := by
  intro d
  rw [occ, ccActive_iff, rate]
  split
  · exact ⟨legal, Nat.pos_iff_ne_zero.trans (not_congr active.symm)⟩
  · rw [← ccActive_iff]
    exact h d

/-! ### The edits -/

/-- An assignment gives the carrier the selected slots on top of its own, and no other carrier loses one (R119). -/
theorem holds_assignSlots {w w' : Snapshot} {c : CcId} {map : SlotMap} (h : assignSlots w c map = .ok w') (d : CcId)
    (i : Fin 16) : holds w' d i = (holds w d i || (decide (d = c) && selects w map i)) := by
  obtain ⟨free, -⟩ := assignSlots_ok_checks h
  have seq : w'.seq[i] = if selects w map i then some c else w.seq[i] := by
    rw [assignSlots_ok h]; exact Vector.getElem_ofFn _
  rw [holds, holds, seq, assignSlots_ok h, Snapshot.withSeq_seqLen]
  cases hi : selects w map i with
  | false => simp
  | true =>
    have hlt := (selects_iff.mp hi).1
    rw [free i hi, Bool.eq_iff_iff]
    simp [hlt, eq_comm (a := c)]

/-- A release takes from the carrier all its slots, and from no other carrier any (R120). -/
theorem holds_releaseSlots (w : Snapshot) (c d : CcId) (i : Fin 16) :
    holds (releaseSlots w c) d i = (holds w d i && decide (d ≠ c)) := by
  obtain ⟨-, seq⟩ := releaseSlotsClearsTheCarrier w c
  rw [Bool.eq_iff_iff, Bool.and_eq_true, decide_eq_true_iff, holds_iff, holds_iff, seq i]
  by_cases hi : w.seq[i] = some c
  · rw [if_pos hi, hi]
    simp [eq_comm]
  · rw [if_neg hi]
    refine ⟨fun h => ⟨h, ?_⟩, And.left⟩
    rintro rfl
    exact hi h.2

/-- A carrier without slots has, after an assignment, as many as the bitmap selects. -/
theorem occCount_assignSlots {w w' : Snapshot} {c : CcId} {map : SlotMap} (h : assignSlots w c map = .ok w')
    (hc : occCount w c = 0) (d : CcId) :
    occCount w' d = if d = c then countOnes map w.seqLen.val else occCount w d := by
  split
  · next hd =>
    have slots : holds w' d = selects w map := funext fun i => by
      simp [holds_assignSlots h, hd, occCount_eq_zero_iff.mp hc i]
    rw [occCount, slots, countP_selects]
  · next hd => exact occCount_congr fun i => by simp [holds_assignSlots h, hd]

theorem occCount_releaseSlots (w : Snapshot) (c d : CcId) :
    occCount (releaseSlots w c) d = if d = c then 0 else occCount w d := by
  split
  · next hd => exact occCount_eq_zero_iff.mpr fun i => by simp [holds_releaseSlots, hd]
  · next hd => exact occCount_congr fun i => by simp [holds_releaseSlots, hd]

/-- A ratio's code is not DISABLED (R18). -/
theorem rateOfRatio_ne_disabled {n : Nat} {r : RateCode} (h : rateOfRatio n = some r) : r ≠ rateDisabled := by
  unfold rateOfRatio at h
  split at h <;> simp at h <;> subst h <;> decide

/-- A derived rate is DISABLED for no slots and otherwise the code of a ratio (R136). -/
theorem deriveRate_ok {map : SlotMap} {len ai cps : Nat} {r : RateCode} (h : deriveRate map len ai cps = .ok r) :
    (countOnes map len = 0 ∧ r = rateDisabled) ∨ (countOnes map len ≠ 0 ∧ ∃ ratio, rateOfRatio ratio = some r) := by
  simp only [deriveRate] at h
  split at h
  · next hz => exact .inl ⟨hz, (Except.ok.inj h).symm⟩
  next hz =>
  split at h
  · cases h
  split at h
  · cases h
  split at h
  · cases h
  split at h
  · cases h
  split at h
  · next hr => exact .inr ⟨hz, _, Except.ok.inj h ▸ hr⟩
  · cases h

/-- A derived rate is DISABLED exactly when the bitmap has no slot (R136). -/
theorem deriveRate_eq_disabled_iff {map : SlotMap} {len ai cps : Nat} {r : RateCode}
    (h : deriveRate map len ai cps = .ok r) : r = rateDisabled ↔ countOnes map len = 0 := by
  rcases deriveRate_ok h with ⟨hz, hr⟩ | ⟨hz, ratio, hr⟩
  · exact iff_of_true hr hz
  · exact iff_of_false (rateOfRatio_ne_disabled hr) hz

/-- An addition that succeeds has found the carrier inactive, assigned its slots and derived its rate (R169). -/
theorem addCarrier_ok {w w' : Snapshot} {cfg : HwCfg} {c : CcId} {map : SlotMap} {a : Args}
    (h : addCarrier w cfg c map a = .ok w') :
    ccActive (entry w.cc c) = false ∧ checkCapacity w cfg .add c a.nco map = .ok () ∧
      ∃ w1 r, assignSlots w c map = .ok w1 ∧ deriveRate map w.seqLen.val cfg.antInterleave cfg.mixerCps = .ok r ∧
        w' = { w1 with
          cc := setEntry w1.cc c ⟨ncoField a.nco, r, a.ccGain⟩
          nco := setEntry w1.nco (ncoField a.nco) a.ncoDesc } := by
  unfold addCarrier at h
  split at h
  · cases h
  next inactive =>
  split at h
  · cases h
  next capacity =>
  split at h
  · cases h
  next w1 hw1 =>
  split at h
  · cases h
  next r hr => exact ⟨Bool.eq_false_iff.mpr inactive, capacity, w1, r, hw1, hr, (Except.ok.inj h).symm⟩

/-- ADD_CC gives an inactive carrier its slots together with the rate of their count (R169). -/
theorem addCarrier_coherent {w w' : Snapshot} {cfg : HwCfg} {c : CcId} {map : SlotMap} {a : Args}
    (h : addCarrier w cfg c map a = .ok w') (hw : w.coherent) : w'.coherent := by
  obtain ⟨inactive, -, w1, r, hw1, hr, rfl⟩ := addCarrier_ok h
  obtain ⟨-, legal⟩ := assignSlots_ok_checks hw1
  obtain ⟨-, occupied⟩ := hw c
  have empty : occCount w c = 0 := Nat.eq_zero_of_not_pos (mt occupied.mp (Bool.eq_false_iff.mp inactive))
  refine hw.of_carrier_changed (c := c) legal (deriveRate_eq_disabled_iff hr) (fun d => ?_) (fun d => ?_)
  · exact Eq.trans (occCount_of_seq_kept (old := w1) rfl rfl d) (occCount_assignSlots hw1 empty d)
  · simp only [rate_setEntry, assignSlots_ok hw1, Snapshot.withSeq_cc]

/-- REMOVE_CC takes a carrier's slots together with its rate (R170). -/
theorem removeCarrier_coherent {w : Snapshot} (c : CcId) (hw : w.coherent) : (removeCarrier w c).coherent := by
  refine hw.of_carrier_changed (c := c) (n := 0) rfl (iff_of_true rfl rfl) (fun d => ?_) (fun d => ?_)
  · have seqLen : (removeCarrier w c).seqLen = (releaseSlots w c).seqLen := by simp only [removeCarrier]
    have seq : (removeCarrier w c).seq = (releaseSlots w c).seq := by simp only [removeCarrier]
    rw [occCount_of_seq_kept seqLen seq, occCount_releaseSlots]
  · simp only [removeCarrier, rate_setEntry, releaseSlots, Snapshot.withSeq_cc]

/-- In a blank snapshot no carrier holds a slot and none is active (R163). -/
theorem Snapshot.blank_coherent (bd : Build) (l : SeqLen) : (Snapshot.blank bd l).coherent := by
  intro c
  have occ : occCount (Snapshot.blank bd l) c = 0 := occCount_eq_zero_iff.mpr fun i => by simp [holds, Snapshot.blank]
  have rate : (entry (Snapshot.blank bd l).cc c).rate = rateDisabled := by
    simp [entry, Snapshot.blank, CcDesc.zero, rateDisabled]
  rw [occ, ccActive_iff, rate]
  exact ⟨rfl, by simp⟩

/-- UPDATE_CC and MOVE_CC move no slot and keep the rate (R171, R172). -/
theorem placeCarrier_coherent {w : Snapshot} (c : CcId) (a : Args) (nco : Vector NcoDesc 16) (hw : w.coherent) :
    Snapshot.coherent { placeCarrier w c a with nco := nco } := by
  refine hw.of_kept (occCount_of_seq_kept rfl rfl) fun d => ?_
  simp only [placeCarrier, rate_setEntry]
  split
  · next h => rw [h]
  · rfl

theorem updateCarrier_coherent {w w' : Snapshot} {cfg : HwCfg} {c : CcId} {a : Args}
    (h : updateCarrier w cfg c a = .ok w') (hw : w.coherent) : w'.coherent := by
  unfold updateCarrier at h
  split at h
  · cases h
  · exact Except.ok.inj h ▸ placeCarrier_coherent c a w.nco hw

theorem moveCarrier_coherent {w w' : Snapshot} {cfg : HwCfg} {c : CcId} {a : Args}
    (h : moveCarrier w cfg c a = .ok w') (hw : w.coherent) : w'.coherent := by
  unfold moveCarrier at h
  split at h
  · cases h
  · exact Except.ok.inj h ▸ placeCarrier_coherent c a _ hw

/-! ### The loaded WORK banks -/

/-- A snapshot is sound (R118) and coherent (R125). -/
def Snapshot.consistent (w : Snapshot) : Prop := w.sound ∧ w.coherent

/-- Every loaded WORK is sound and coherent. -/
def State.LoadedConsistent (s : State) : Prop := ∀ b, loaded s b = true → (s.work.get b).consistent

/-- An edit keeps soundness, so it need keep only coherence. -/
theorem EditOf.consistent {s : State} {old new : Snapshot} (e : EditOf s old new)
    (coherent : old.coherent → new.coherent) (h : old.consistent) : new.consistent := by
  obtain ⟨hs, hc⟩ := h
  exact ⟨e.sound hs, coherent hc⟩

/-- Gains and auxiliary descriptors are no matter of consistency (R173 to R176). -/
theorem Snapshot.consistent.withFiles {w : Snapshot} (h : w.consistent) (aux : List AuxDesc) (gains : List AntGain) :
    Snapshot.consistent { w with aux := aux, antGain := gains } := h

/-- An edit of the WORK banks that keeps each consistent keeps every loaded one so. -/
theorem State.LoadedConsistent.edited {s t : State} (hs : s.LoadedConsistent) (hv : t.wv = s.wv)
    (he : ∀ b, (s.work.get b).consistent → (t.work.get b).consistent) : t.LoadedConsistent := fun b hb =>
  he b (hs b (by rwa [loaded, ← hv]))

/-- A builder command with one WORK bank makes an edit of it or reports a failure (R161). -/
theorem State.LoadedConsistent.buildWork {s : State} {b : Bank} {r : Except FailCause Snapshot}
    (hs : s.LoadedConsistent) (he : ∀ w, r = .ok w → (s.work.get b).consistent → w.consistent) :
    (buildWork b r s).LoadedConsistent := by
  cases r with
  | error k => exact hs
  | ok w =>
    refine State.LoadedConsistent.edited (s := s) hs rfl fun x old => ?_
    by_cases hx : x = b
    · subst hx
      simpa [Machine.buildWork] using he w rfl old
    · simpa [Machine.buildWork, PerBank.get_set_other _ _ hx] using old

/-- The body of a builder command keeps every loaded WORK consistent. -/
theorem bodyOf_builder_loadedConsistent {i : Instr} {s t : State} (hi : isBuilder i = true)
    (h : bodyOf i s = .next t) (hs : s.LoadedConsistent) : t.LoadedConsistent := by
  cases i
  case addCc b c m =>
    obtain ⟨cfg, -, h⟩ := withCfg_eq_next.mp h
    exact Host.Outcome.next.inj h ▸ hs.buildWork fun _ e =>
      (addCarrier_edit (s := s) e).consistent (addCarrier_coherent e)
  case removeCc b c =>
    refine Host.Outcome.next.inj h ▸ hs.buildWork fun _ e => ?_
    exact Except.ok.inj e ▸ (removeCarrier_edit s _ c).consistent (removeCarrier_coherent c)
  case updateCc b c =>
    obtain ⟨cfg, -, h⟩ := withCfg_eq_next.mp h
    exact Host.Outcome.next.inj h ▸ hs.buildWork fun _ e =>
      (updateCarrier_edit (s := s) e).consistent (updateCarrier_coherent e)
  case moveCc b c =>
    obtain ⟨cfg, -, h⟩ := withCfg_eq_next.mp h
    exact Host.Outcome.next.inj h ▸ hs.buildWork fun _ e =>
      (moveCarrier_edit (s := s) e).consistent (moveCarrier_coherent e)
  case addAux b | removeAux b =>
    exact Host.Outcome.next.inj h ▸ hs.buildWork fun _ e old => Except.ok.inj e ▸ old.withFiles _ _
  case setAntGain | setAllAntGain =>
    obtain ⟨cfg, -, h⟩ := withCfg_eq_next.mp h
    obtain rfl := Host.Outcome.next.inj h
    refine State.LoadedConsistent.edited (s := s) hs rfl fun b old => ?_
    exact PerBank.onBanks_induction b (fun _ => old.withFiles _ _) old
  all_goals cases hi

/-- GET_EMPTY_CFG loads a bank that is blank and leaves the other as it was (R167). -/
theorem bodyOf_getEmptyCfg_loadedConsistent {b : Bank} {s t : State} (h : bodyOf (.getEmptyCfg b) s = .next t)
    (hs : s.LoadedConsistent) : t.LoadedConsistent := by
  obtain ⟨l, -, h⟩ := withLen_eq_next.mp h
  obtain rfl := Host.Outcome.next.inj h
  intro x hx
  by_cases hb : x = b
  · subst hb
    simpa using ⟨Snapshot.blank_sound s.build l, Snapshot.blank_coherent s.build l⟩
  · rw [loaded, respondOk_wv, PerBank.get_set_other _ _ hb] at hx
    simpa [PerBank.get_set_other _ _ hb] using hs x hx

/-- Settles O51: a command that raises a fault leaves WORK alone, and otherwise does what its body does. -/
theorem builderKeepsPowerOfTwoOccupancy : Obligations.BuilderKeepsPowerOfTwoOccupancy := by
  intro i s t hi h
  show s.LoadedConsistent → t.LoadedConsistent
  intro hs
  have hl : i ≠ .lookup := by
    rintro rfl
    rcases hi with hb | ⟨b, hb⟩ <;> cases hb
  rw [exec_eq_guarded i s hl] at h
  rcases guarded_cases s (permits i) (bankModeOk i s) (workOk i s) (indexOk i s) (bodyOf i s) with
    ⟨c, e⟩ | ⟨-, -, -, -, -, e⟩
  · exact Host.Outcome.next.inj (e.symm.trans h) ▸ hs
  · rw [e] at h
    rcases hi with hb | ⟨b, rfl⟩
    · exact bodyOf_builder_loadedConsistent hb h hs
    · exact bodyOf_getEmptyCfg_loadedConsistent h hs

end Sys2Proof.Machine
end

section
/-! SUPPORT. The rate of an occupancy (42_rate_detector.md): deriveRate as one equation for an occupancy that is a power
of two, and the ratios that have a code (R18, R136). -/

namespace Sys2Proof.Machine

open Sys2Proof

/-- The code of the ratio 2^k is k + 1 (R18). -/
theorem rateOfRatio_two_pow {k : Nat} (hk : k ≤ 4) : rateOfRatio (2 ^ k) = some (BitVec.ofNat 3 (k + 1)) := by
  interval_cases k <;> rfl

/-- Only a power of two up to 16 has a code (R18). -/
theorem exists_two_pow_of_rateOfRatio {n : Nat} {r : RateCode} (h : rateOfRatio n = some r) : ∃ k ≤ 4, n = 2 ^ k := by
  unfold rateOfRatio at h
  split at h
  · exact ⟨0, by decide, rfl⟩
  · exact ⟨1, by decide, rfl⟩
  · exact ⟨2, by decide, rfl⟩
  · exact ⟨3, by decide, rfl⟩
  · exact ⟨4, by decide, rfl⟩
  · cases h

theorem deriveRate_empty {map : SlotMap} {len : Nat} (ai cps : Nat) (h : countOnes map len = 0) :
    deriveRate map len ai cps = .ok 0 := if_pos h

theorem deriveRate_illegal {map : SlotMap} {len : Nat} (ai cps : Nat) (h : ¬legalOccupancy (countOnes map len) = true) :
    deriveRate map len ai cps = .error .occNotPow2 := by
  have occupied : countOnes map len ≠ 0 := fun h0 => h (h0 ▸ rfl)
  rw [deriveRate, if_neg occupied, if_pos (Bool.eq_false_iff.mpr h)]

/-- For a legal occupancy other than 0 the three arithmetic checks of R136 are one condition, that both divisions are
exact; the quotient then decides. -/
theorem deriveRate_occupied {map : SlotMap} {len : Nat} (ai cps : Nat) (occupied : countOnes map len ≠ 0)
    (legal : legalOccupancy (countOnes map len) = true) :
    deriveRate map len ai cps =
      if 0 < cps ∧ countOnes map len ∣ len ∧ cps ∣ ai * (len / countOnes map len) then
        (rateOfRatio (ai * (len / countOnes map len) / cps)).elim (.error .rateInvalid) .ok
      else .error .rateInvalid := by
  rw [deriveRate, if_neg occupied, if_neg (by simp [legal])]
  simp only [Nat.dvd_iff_mod_eq_zero, Nat.pos_iff_ne_zero]
  split
  · next h => rw [if_neg fun c => c.1 h]
  split
  · next h => rw [if_neg fun c => h c.2.1]
  split
  · next h => rw [if_neg fun c => h c.2.2]
  next hcps hlen hai =>
  rw [if_pos ⟨hcps, not_not.mp hlen, not_not.mp hai⟩]
  cases rateOfRatio (ai * (len / countOnes map len) / cps) <;> rfl

/-- Settles O35: an exact quotient is 2^k exactly when the dividend is 2^k times the divisor. -/
theorem deriveRateIsTheExactRatio : Obligations.DeriveRateIsTheExactRatio := by
  intro map len ai cps n pow2 ratio
  have legal : legalOccupancy n = true ↔ n = 0 ∨ pow2 := legalOccupancy_iff
  have occupied : pow2 → n ≠ 0 := fun h h0 => by simp [pow2, h0] at h
  refine ⟨deriveRate_empty ai cps, fun h0 hp => ?_, fun hp k hk => ?_, fun hp noRatio => ?_⟩
  · exact deriveRate_illegal ai cps (mt legal.mp (not_or.mpr ⟨h0, hp⟩))
  · obtain ⟨hk, hcps, hlen, quotient⟩ := hk
    have divides : cps ∣ ai * (len / n) := quotient ▸ Nat.dvd_mul_left cps _
    rw [deriveRate_occupied ai cps (occupied hp) (legal.mpr (.inr hp)), if_pos ⟨hcps, hlen, divides⟩, quotient,
      Nat.mul_div_cancel _ hcps, rateOfRatio_two_pow hk, Option.elim_some]
  · rw [deriveRate_occupied ai cps (occupied hp) (legal.mpr (.inr hp))]
    split
    · next h =>
      obtain ⟨hcps, hlen, divides⟩ := h
      cases code : rateOfRatio (ai * (len / n) / cps) with
      | none => rfl
      | some r =>
        obtain ⟨k, hk, quotient⟩ := exists_two_pow_of_rateOfRatio code
        exact absurd ⟨k, hk, hcps, hlen, (Nat.div_eq_iff_eq_mul_left hcps divides).mp quotient⟩ noRatio
    · rfl

end Sys2Proof.Machine
end

section
/-! SUPPORT. The capacity checker (43_capacity_checker.md): the counts of the statements are the model's own, and the
sub-block check is one equation for both modes (R148, R150). -/

namespace Sys2Proof.Machine

open Sys2Proof Sys2Proof.Claims

theorem ncoInUse_iff {w : Snapshot} {c : CcId} {n : BitVec 8} : ncoInUse w c n = true ↔ takenByAnother w c n := by
  simp [ncoInUse, takenByAnother, mem_allIds, ccActive_iff, rateDisabled, and_assoc]

theorem limitMultiplier_eq_some_iff {cfg : HwCfg} {mul : Nat} :
    limitMultiplier cfg = some mul ↔ multiplier cfg mul := by
  unfold limitMultiplier multiplier
  split
  · rw [Option.some.injEq]; omega
  split
  · rw [Option.some.injEq]; omega
  · rw [iff_false_left (by simp)]; omega

theorem slotsInSubBlock_eq_usage (w : Snapshot) (k : Nat) : slotsInSubBlock w k = usage w k := by
  rw [usage, List.countP_eq_length_filter, slotsInSubBlock]
  congr 2
  funext i
  unfold consumes
  cases w.seq[i] <;> rfl

theorem slotsOf_eq_occCount (w : Snapshot) (c : CcId) : slotsOf w c = occCount w c := by
  rw [occCount, List.countP_eq_length_filter, slotsOf]
  congr 2
  funext i
  rw [Bool.eq_iff_iff, decide_eq_true_iff, holds_iff]

/-- The variant without a limit makes only the first two checks (R146). -/
theorem checkCapacity_unlimited {w : Snapshot} {cfg : HwCfg} (mode : CapMode) {c : CcId} {n : BitVec 8} (map : SlotMap)
    (inRange : n.toNat < cfg.usableCc) (free : ¬takenByAnother w c n) (unlimited : limitMultiplier cfg = none) :
    checkCapacity w cfg mode c n map = .ok () := by
  rw [checkCapacity, if_neg inRange.not_ge, if_neg (mt ncoInUse_iff.mp free), unlimited]

/-- In the other variants the third check is one bound for both modes, on the candidate's slots (R150). -/
theorem checkCapacity_limited {w : Snapshot} {cfg : HwCfg} (mode : CapMode) {c : CcId} {n : BitVec 8} (map : SlotMap)
    {mul : Nat} (inRange : n.toNat < cfg.usableCc) (free : ¬takenByAnother w c n)
    (limited : limitMultiplier cfg = some mul) :
    checkCapacity w cfg mode c n map =
      if (mode = .update ∧ subBlock (entry w.cc c).nco.toNat = subBlock n.toNat) ∨
          (usage w (subBlock n.toNat) + if mode = .add then countOnes map w.seqLen.val else occCount w c) * mul
            ≤ w.seqLen.val then .ok ()
      else .error .subblockCapacity := by
  rw [checkCapacity, if_neg inRange.not_ge, if_neg (mt ncoInUse_iff.mp free), limited]
  cases mode with
  | add => simp only [reduceCtorEq, false_and, false_or, if_true, gt_iff_lt, ← not_le, ite_not]
  | update =>
    simp only [reduceCtorEq, true_and, if_false, gt_iff_lt, ← not_le, ite_not]
    split
    · next same => rw [if_pos (.inl same)]
    · next other => simp only [other, false_or]

/-- Settles O36: past the first two checks, the bound is exceeded for the one multiplier of the variant, holds for it,
or there is none. -/
theorem checkCapacityMakesItsThreeChecks : Obligations.CheckCapacityMakesItsThreeChecks := by
  unfold Obligations.CheckCapacityMakesItsThreeChecks
  simp only [slotsInSubBlock_eq_usage, slotsOf_eq_occCount, ← limitMultiplier_eq_some_iff]
  intro w cfg mode c n map
  refine ⟨fun outside => ?_, fun inRange taken => ?_, fun inRange free unfair => ?_, fun inRange free fair => ?_⟩
  · rw [checkCapacity, if_pos outside]
  · rw [checkCapacity, if_neg inRange.not_ge, if_pos (ncoInUse_iff.mpr taken)]
  · simp only [not_forall] at unfair
    obtain ⟨mul, limited, exceeds⟩ := unfair
    exact (checkCapacity_limited mode map inRange free limited).trans (if_neg exceeds)
  · cases limit : limitMultiplier cfg with
    | none => exact checkCapacity_unlimited mode map inRange free limit
    | some mul => exact (checkCapacity_limited mode map inRange free limit).trans (if_pos (fair mul limit))

end Sys2Proof.Machine
end

section
/-! SUPPORT. The statements about the snapshot sources and the builder commands (44_builder.md, R162 to R178): what the
edits of a WORK snapshot write, and a builder command as the edit of the WORK bank it names. -/

namespace Sys2Proof.Machine

open Sys2Proof Sys2Proof.Claims

/-! ### Read-backs with no fire among them (R164 to R166) -/

/-- Without a fire the agents' events leave CUR and the update trigger as they were before the reads. -/
theorem respondOk_agentMoves_noFire {q : List Turn} {s : State} (quiet : noFireAmong q s) (z : List Turn)
    (w : PerBank Snapshot) (v : PerBank Bool) (d : Nat) :
    respondOk .empty { agentMoves q s with sched := z, work := w, wv := v, draws := d } =
      { agentMoves q s with
        sched := z, cur := s.cur, trigCcUpdate := s.trigCcUpdate, work := w, wv := v, resp := okResp .empty
        pos := s.pos + 1, draws := d } := by
  obtain ⟨cur, trig⟩ := agentMoves_noFire quiet
  rw [respondOk_agentMoves, ← cur, ← trig]

/-- Settles O40: with no fire the bank that was read is CUR[DL], and its translation is loaded. -/
theorem readBackOfSettledHardware : Obligations.ReadBackOfSettledHardware := by
  intro s hr hf used quiet
  obtain ⟨h, load, settled, -⟩ := loadCurrent_eq .dl s
  obtain rfl := settled quiet hf
  refine ⟨translateBank s.notUsed.dl s.draws s.cur.dl, s.draws + 1, translateBank_readsBackAs _ _ _, ?_⟩
  rw [exec_of_runs (by simp) hr rfl, bodyOf, load, respondOk_agentMoves_noFire quiet]
  rfl

/-- Settles O41: the banks that were read are those of CUR, each translated with its own cache. -/
theorem dualReadBackOfSettledHardware : Obligations.DualReadBackOfSettledHardware := by
  intro s hr hdl hul used quiet
  obtain ⟨h, g, load, settled, -⟩ := loadBothBanks_eq (switchable_of_runs_getCurrentCfgSw hr)
  obtain ⟨rfl, rfl⟩ := settled quiet hdl hul
  refine ⟨_, _, s.draws + 2, translateBank_readsBackAs _ s.draws _, translateBank_readsBackAs _ (s.draws + 1) _, ?_⟩
  rw [exec_of_runs (by simp) hr rfl, bodyOf, load, respondOk_agentMoves_noFire quiet]

/-! ### The other snapshot sources (R163, R167, R168) -/

theorem Snapshot.blank_blankWork (bd : Build) (l : SeqLen) : blankWork bd l (Snapshot.blank bd l) :=
  ⟨rfl, fun _ => Vector.getElem_replicate _, rfl, fun _ => Vector.getElem_replicate _,
    fun _ => Vector.getElem_replicate _, rfl, rfl⟩

/-- Settles O39: both commands are their bodies, which respond. -/
theorem emptyConfigurationAndReadWork : Obligations.EmptyConfigurationAndReadWork := by
  refine fun s b => ⟨fun l hr hl => ⟨Snapshot.blank s.build l, Snapshot.blank_blankWork s.build l, ?_⟩, fun hr => ?_⟩
  · rw [exec_of_runs (by simp) hr rfl, bodyOf, withLen_of_some hl]
    rfl
  · exact exec_of_runs (by simp) hr rfl

/-! ### The last check of R257 -/

/-- A command that passes the other checks raises INDEX_OOB for an index outside its array. -/
theorem exec_indexOob {i : Instr} {s : State} (hi : i ≠ .lookup) (hr : runs i s) (hx : indexOk i s = false)
    (hf : s.fault = none) : exec i s = .next { s with fault := some .indexOob } := by
  obtain ⟨hl, hp, hb, hw⟩ := hr
  rw [exec_eq_guarded i s hi, guarded_indexOob hl hp hb hw hx, raise_of_none _ hf]

theorem auxInRange_iff {s : State} : auxInRange s = true ↔ s.args.auxIdx.toNat < s.build.auxNum := decide_eq_true_iff

theorem antInRange_iff {s : State} {cfg : HwCfg} (hc : s.cfg = some cfg) :
    antInRange s = true ↔ s.args.antIdx.toNat < cfg.numAntenna := by
  rw [antInRange, hc]
  exact decide_eq_true_iff

/-- Settles O19: the two index checks of the builder commands. -/
theorem indexOutOfBoundsIsRaised : Obligations.IndexOutOfBoundsIsRaised := by
  refine fun s hf => ⟨fun b hr outside => ?_, fun b hr outside => ?_, fun c hr hc outside => ?_⟩
  · exact exec_indexOob (by simp) hr (Bool.eq_false_iff.mpr (mt auxInRange_iff.mp outside.not_gt)) hf
  · exact exec_indexOob (by simp) hr (Bool.eq_false_iff.mpr (mt auxInRange_iff.mp outside.not_gt)) hf
  · exact exec_indexOob (by simp) hr (Bool.eq_false_iff.mpr (mt (antInRange_iff hc).mp outside.not_gt)) hf

/-! ### A command past its checks, and one that builds a WORK bank (R161, R257) -/

/-- A command's next state is a fault that it raises, or comes from its body where its preconditions hold (R257). -/
theorem exec_next_cases {i : Instr} {s t : State} (hi : i ≠ .lookup) (h : exec i s = .next t) :
    (∃ c, t = raise c s) ∨ (runs i s ∧ bodyOf i s = .next t) := by
  rw [exec_eq_guarded i s hi] at h
  rcases guarded_cases s (permits i) (bankModeOk i s) (workOk i s) (indexOk i s) (bodyOf i s) with
    ⟨c, e⟩ | ⟨hl, hp, hb, hw, -, e⟩
  · exact .inl ⟨c, Host.Outcome.next.inj (h.symm.trans e)⟩
  · exact .inr ⟨⟨hl, hp, hb, hw⟩, e.symm.trans h⟩

/-- A command that builds one WORK bank writes the snapshot that was built, or answers why it was not. -/
theorem exec_of_buildWork {i : Instr} {s : State} {b : Bank} {r : Except FailCause Snapshot}
    (h : exec i s = .next (buildWork b r s)) :
    (∀ w, r = .ok w →
      exec i s = .next { s with work := s.work.set b w, resp := okResp .empty, pos := s.pos + 1 }) ∧
      (∀ k, r = .error k → exec i s = .next { s with resp := failResp k, pos := s.pos + 1 }) := by
  constructor <;> rintro _ rfl <;> exact h

/-- A command that reads the capability constants runs what its body makes of them. -/
theorem exec_of_withCfg {i : Instr} {s : State} {cfg : HwCfg} {f : HwCfg → Host.Outcome State Fault Refusal}
    (hi : i ≠ .lookup) (hr : runs i s) (hx : indexOk i s = true) (hb : bodyOf i s = withCfg s f)
    (hc : s.cfg = some cfg) : exec i s = f cfg := by
  rw [exec_of_runs hi hr hx, hb, withCfg_of_some hc]

/-! ### ADD_CC (R169) -/

/-- The descriptors that ADD_CC writes in the snapshot whose slots are assigned: the carrier's and its NCO's. -/
def describeCarrier (w : Snapshot) (c : CcId) (r : RateCode) (a : Args) : Snapshot :=
  { w with
    cc := setEntry w.cc c ⟨ncoField a.nco, r, a.ccGain⟩
    nco := setEntry w.nco (ncoField a.nco) a.ncoDesc }

section
variable {w : Snapshot} {cfg : HwCfg} {c : CcId} {map : SlotMap} {a : Args}

theorem addCarrier_active (active : (entry w.cc c).rate ≠ 0) : addCarrier w cfg c map a = .error .ccAlreadyActive := by
  rw [addCarrier, if_pos (ccActive_iff.mpr active)]

/-- The checks on an inactive carrier come in the order capacity, slots, rate; the first that fails answers. -/
theorem addCarrier_inactive (inactive : (entry w.cc c).rate = 0) :
    addCarrier w cfg c map a =
      (checkCapacity w cfg .add c a.nco map).bind fun _ =>
        (assignSlots w c map).bind fun w' =>
          (deriveRate map w.seqLen.val cfg.antInterleave cfg.mixerCps).map fun r => describeCarrier w' c r a := by
  rw [addCarrier, if_neg (fun active => ccActive_iff.mp active inactive)]
  cases checkCapacity w cfg .add c a.nco map with
  | error k => rfl
  | ok u =>
    cases assignSlots w c map with
    | error k => rfl
    | ok w' => cases deriveRate map w.seqLen.val cfg.antInterleave cfg.mixerCps <;> rfl

end

/-- Settles O43: addCarrier makes the checks in the statement's order, and an assignment changes only the sequence and
its placeholder. -/
theorem addCarrierEffect : Obligations.AddCarrierEffect := by
  intro s b c m cfg hr hc
  obtain ⟨written, failed⟩ := exec_of_buildWork (exec_of_withCfg (i := .addCc b c m) (by simp) hr rfl rfl hc)
  refine ⟨fun w' r inactive capacity slots rate => ?_, fun active => ?_, fun inactive k capacity => ?_,
    fun inactive capacity k slots => ?_, fun w' inactive capacity slots k rate => ?_⟩
  · refine ⟨describeCarrier w' c r s.args, written _ ?_, ?_, fun d => ?_, fun n => ?_⟩
    · rw [addCarrier_inactive inactive, capacity, slots, rate]
      rfl
    · rw [assignSlots_ok slots]
      rfl
    · rw [describeCarrier, entry_setEntry, assignSlots_ok slots]
      rfl
    · rw [describeCarrier, entry_setEntry, assignSlots_ok slots]
      rfl
  · exact failed _ (addCarrier_active active)
  · exact failed k (by rw [addCarrier_inactive inactive, capacity]; rfl)
  · exact failed k (by rw [addCarrier_inactive inactive, capacity, slots]; rfl)
  · exact failed k (by rw [addCarrier_inactive inactive, capacity, slots, rate]; rfl)

/-! ### REMOVE_CC (R170) -/

theorem removeCarrier_seq (w : Snapshot) (c : CcId) (i : Fin 16) :
    (removeCarrier w c).seq[i] = if w.seq[i] = some c then none else w.seq[i] := by
  obtain ⟨-, seq⟩ := releaseSlotsClearsTheCarrier w c
  exact seq i

/-- A removal writes the sequence, its placeholder and the carriers' file. -/
theorem removeCarrier_frame (w : Snapshot) (c : CcId) :
    removeCarrier w c = { w with
      seq := (removeCarrier w c).seq
      notUsed := findUnusedId (removeCarrier w c).seq
      cc := (removeCarrier w c).cc } := by
  simp only [removeCarrier, releaseSlots, Snapshot.withSeq]

theorem removeCarrier_cc (w : Snapshot) (c d : CcId) :
    entry (removeCarrier w c).cc d = if d = c then { entry w.cc c with rate := 0 } else entry w.cc d :=
  entry_setEntry _ _ _ _

theorem exec_removeCc {s : State} {b : Bank} {c : CcId} (hr : runs (.removeCc b c) s) :
    exec (.removeCc b c) s = .next { s with
      work := s.work.set b (removeCarrier (s.work.get b) c), resp := okResp .empty, pos := s.pos + 1 } :=
  exec_of_runs (by simp) hr rfl

/-- Settles O44: removeCarrier, field by field. -/
theorem removeCarrierEffect : Obligations.RemoveCarrierEffect := fun s b c hr =>
  ⟨removeCarrier (s.work.get b) c, exec_removeCc hr, removeCarrier_frame _ c, removeCarrier_seq _ c,
    removeCarrier_cc _ c⟩

/-! ### UPDATE_CC and MOVE_CC (R171, R172) -/

theorem placeCarrier_cc (w : Snapshot) (c : CcId) (a : Args) (d : CcId) :
    entry (placeCarrier w c a).cc d =
      if d = c then ⟨a.nco.setWidth 4, (entry w.cc c).rate, a.ccGain⟩ else entry w.cc d :=
  entry_setEntry _ _ _ _

/-- The capacity check alone decides about an update. -/
theorem updateCarrier_eq (w : Snapshot) (cfg : HwCfg) (c : CcId) (a : Args) :
    updateCarrier w cfg c a = (checkCapacity w cfg .update c a.nco 0).map fun _ => placeCarrier w c a := by
  rw [updateCarrier]
  cases checkCapacity w cfg .update c a.nco 0 <;> rfl

/-- Settles O45: where the check passes, placeCarrier replaces the carrier's entry. -/
theorem updateCarrierEffect : Obligations.UpdateCarrierEffect := by
  intro s b c cfg hr hc
  obtain ⟨written, failed⟩ := exec_of_buildWork (exec_of_withCfg (i := .updateCc b c) (by simp) hr rfl rfl hc)
  rw [updateCarrier_eq] at written failed
  exact ⟨fun capacity => ⟨_, written _ (congrArg (Except.map _) capacity), rfl, placeCarrier_cc _ c _⟩,
    fun k capacity => failed k (congrArg (Except.map _) capacity)⟩

/-- The capacity check alone decides about a move. -/
theorem moveCarrier_eq (w : Snapshot) (cfg : HwCfg) (c : CcId) (a : Args) :
    moveCarrier w cfg c a = (checkCapacity w cfg .update c a.nco 0).map fun _ =>
      { placeCarrier w c a with nco := setEntry w.nco (ncoField a.nco) (movedDesc a) } := by
  rw [moveCarrier]
  cases checkCapacity w cfg .update c a.nco 0 <;> rfl

/-- Settles O46: where the check passes, placeCarrier replaces the carrier's entry and the NCO's is written too. -/
theorem moveCarrierEffect : Obligations.MoveCarrierEffect := by
  intro s b c cfg hr hc
  obtain ⟨written, failed⟩ := exec_of_buildWork (exec_of_withCfg (i := .moveCc b c) (by simp) hr rfl rfl hc)
  rw [moveCarrier_eq] at written failed
  exact ⟨fun capacity => ⟨_, written _ (congrArg (Except.map _) capacity), rfl, placeCarrier_cc _ c _,
      fun n => entry_setEntry _ _ _ _⟩,
    fun k capacity => failed k (congrArg (Except.map _) capacity)⟩

/-! ### ADD_AUX and REMOVE_AUX (R173, R174) -/

/-- Entry k of a file after an entry it has is replaced. -/
theorem getElem?_set_of_lt {α : Type} {l : List α} {i : Nat} (hi : i < l.length) (x : α) (k : Nat) :
    (l.set i x)[k]? = if k = i then some x else l[k]? := by
  rw [List.getElem?_set, if_pos hi]
  simp only [eq_comm]

/-- Settles O47: setAux replaces the one entry. -/
theorem auxiliaryEffect : Obligations.AuxiliaryEffect := by
  intro s b inRange len
  have hx : auxInRange s = true := auxInRange_iff.mpr inRange
  rw [← len] at inRange
  exact ⟨fun hr => ⟨_, exec_of_runs (by simp) hr hx, getElem?_set_of_lt inRange _⟩,
    fun hr => ⟨_, exec_of_runs (by simp) hr hx, getElem?_set_of_lt inRange _⟩⟩

/-! ### SET_ANT_GAIN and SET_ALL_ANT_GAIN (R175, R176) -/

/-- An edit of the gains of every bank of the build, as the two banks it leaves (log 18). -/
theorem onBanks_antGain (sw : Bool) (f : Bank → Snapshot → List AntGain) (p : PerBank Snapshot) :
    p.onBanks sw (fun b w => { w with antGain := f b w }) =
      ⟨{ p.dl with antGain := f .dl p.dl }, { p.ul with antGain := if sw then f .ul p.ul else p.ul.antGain }⟩ := by
  cases sw <;> rfl

theorem exec_setAntGain {s : State} {cfg : HwCfg} (hr : runs .setAntGain s) (hc : s.cfg = some cfg)
    (inRange : s.args.antIdx.toNat < cfg.numAntenna) :
    exec .setAntGain s = .next { s with
      work := ⟨{ s.work.dl with antGain := s.work.dl.antGain.set s.args.antIdx.toNat s.args.antGain },
        { s.work.ul with antGain :=
            if s.build.switchable then s.work.ul.antGain.set s.args.antIdx.toNat s.args.antGain
            else s.work.ul.antGain }⟩
      resp := okResp .empty, pos := s.pos + 1 } := by
  rw [exec_of_withCfg (by simp) hr ((antInRange_iff hc).mpr inRange) rfl hc, onBanks_antGain]
  rfl

theorem exec_setAllAntGain {s : State} {cfg : HwCfg} (hr : runs .setAllAntGain s) (hc : s.cfg = some cfg) :
    exec .setAllAntGain s = .next { s with
      work := ⟨{ s.work.dl with antGain := gainVector cfg s.draws s.args.antGains },
        { s.work.ul with antGain :=
            if s.build.switchable then gainVector cfg (s.draws + 1) s.args.antGains else s.work.ul.antGain }⟩
      draws := if antGainsWellFormed cfg s.args.antGains then s.draws else s.draws + 2
      resp := okResp .empty, pos := s.pos + 1 } := by
  rw [exec_of_withCfg (by simp) hr rfl rfl hc, onBanks_antGain]
  rfl

/-- Settles O48: an operand of the right length is set as it is, and of another length the entries it has are. -/
theorem antennaGainEffect : Obligations.AntennaGainEffect := by
  refine fun s cfg hc => ⟨fun hr inRange len => ?_, fun hr len => ?_, fun hr _ => ?_⟩
  · have within : ∀ b, s.args.antIdx.toNat < (s.work.get b).antGain.length := fun b => inRange.trans_eq (len b).symm
    refine ⟨_, _, exec_setAntGain hr hc inRange, getElem?_set_of_lt (within .dl) _, fun hsw => ?_, fun hsw => ?_⟩
    · rw [if_pos hsw]
      exact getElem?_set_of_lt (within .ul) _
    · rw [if_neg (by simp [hsw])]
  · have wellFormed : antGainsWellFormed cfg s.args.antGains = true := beq_iff_eq.mpr len
    rw [exec_setAllAntGain hr hc, gainVector_eq _ len, gainVector_eq _ len, if_pos wellFormed]
  · have gains : ∀ t, (gainVector cfg t s.args.antGains).length = cfg.numAntenna ∧ ∀ (k : Nat) g, k < cfg.numAntenna →
        s.args.antGains[k]? = some g → (gainVector cfg t s.args.antGains)[k]? = some g :=
      fun t => ⟨gainVector_length cfg t _, fun _ _ => gainVector_get⟩
    refine ⟨_, _, _, exec_setAllAntGain hr hc, gains _, fun hsw => ?_, fun hsw => ?_⟩
    · rw [if_pos hsw]
      exact gains _
    · rw [if_neg (by simp [hsw])]

/-! ### What builder commands leave alone (R178) -/

/-- t is s but for WORK, RESP and HOST's position, and the draws where the command may draw (log 15). -/
def WorkOnly (mayDraw : Prop) (s t : State) : Prop :=
  t = { s with work := t.work, resp := t.resp, pos := t.pos, draws := t.draws } ∧ (¬mayDraw → t.draws = s.draws)

theorem WorkOnly.buildWork (d : Prop) (b : Bank) (r : Except FailCause Snapshot) (s : State) :
    WorkOnly d s (buildWork b r s) := by
  cases r <;> exact ⟨rfl, fun _ => rfl⟩

/-- The body of a builder command writes WORK and RESP, and only SET_ALL_ANT_GAIN draws. -/
theorem bodyOf_builder_frame {i : Instr} {s t : State} (hi : isBuilder i = true) (h : bodyOf i s = .next t) :
    WorkOnly (i = .setAllAntGain) s t := by
  cases i
  case addCc | updateCc | moveCc =>
    obtain ⟨cfg, -, h⟩ := withCfg_eq_next.mp h
    exact Host.Outcome.next.inj h ▸ .buildWork _ _ _ _
  case removeCc | addAux | removeAux => exact Host.Outcome.next.inj h ▸ .buildWork _ _ _ _
  case setAntGain =>
    obtain ⟨cfg, -, h⟩ := withCfg_eq_next.mp h
    exact Host.Outcome.next.inj h ▸ ⟨rfl, fun _ => rfl⟩
  case setAllAntGain =>
    obtain ⟨cfg, -, h⟩ := withCfg_eq_next.mp h
    exact Host.Outcome.next.inj h ▸ ⟨rfl, fun other => absurd rfl other⟩
  all_goals cases hi

/-- Settles O49: a command that raises a fault writes FAULT alone, and otherwise does what its body does. -/
theorem builderWritesOnlyWork : Obligations.BuilderWritesOnlyWork := by
  intro i s t hi h
  have hl : i ≠ .lookup := by
    rintro rfl
    rcases hi with hb | ⟨b, hb⟩ <;> cases hb
  rcases exec_next_cases hl h with ⟨c, rfl⟩ | ⟨-, h⟩
  · exact ⟨rfl, fun _ => rfl, fun _ => rfl⟩
  · rcases hi with hb | ⟨b, rfl⟩
    · obtain ⟨frame, draws⟩ := bodyOf_builder_frame hb h
      rw [frame]
      exact ⟨rfl, fun _ => rfl, draws⟩
    · obtain ⟨l, -, h⟩ := withLen_eq_next.mp h
      exact Host.Outcome.next.inj h ▸ ⟨rfl, fun hb => (nomatch hb), fun _ => rfl⟩

/-! ### ADD_CC and then REMOVE_CC (R177) -/

/-- In a coherent snapshot an inactive carrier holds no slot, and in a sound one no carrier holds one at or above the
sequence length. -/
theorem seq_ne_of_inactive {w : Snapshot} (sound : w.sound) (coherent : w.coherent) {c : CcId}
    (inactive : ccActive (entry w.cc c) = false) (i : Fin 16) : w.seq[i] ≠ some c := by
  intro hi
  obtain ⟨-, above⟩ := sound
  obtain ⟨-, occupied⟩ := coherent c
  have empty : occCount w c = 0 := Nat.eq_zero_of_not_pos (mt occupied.mp (Bool.eq_false_iff.mp inactive))
  have below : i.val < w.seqLen.val := by
    by_contra h
    rw [above i (Nat.le_of_not_lt h)] at hi
    cases hi
  have held : holds w c i = true := holds_iff.mpr ⟨below, hi⟩
  rw [occCount_eq_zero_iff.mp empty i] at held
  cases held

/-- Removing a carrier takes back the slots that an assignment has given it, if it had none before. -/
theorem removeCarrier_seq_of_assigned {w w1 w' : Snapshot} {c : CcId} {map : SlotMap}
    (h : assignSlots w c map = .ok w1) (hw' : w'.seq = w1.seq) (absent : ∀ i : Fin 16, w.seq[i] ≠ some c) :
    (removeCarrier w' c).seq = w.seq := by
  obtain ⟨free, -⟩ := assignSlots_ok_checks h
  have restored : ∀ i : Fin 16, (removeCarrier w' c).seq[i] = w.seq[i] := fun i => by
    have assigned : w1.seq[i] = if selects w map i then some c else w.seq[i] := by
      rw [assignSlots_ok h]; exact Vector.getElem_ofFn _
    rw [removeCarrier_seq, hw', assigned]
    split
    · next selected => rw [if_pos rfl, free i selected]
    · exact if_neg (absent i)
  exact Vector.ext fun i hi => restored ⟨i, hi⟩

/-- Removing the carrier just added restores the sequence, the placeholder and every rate (R177). -/
theorem removeCarrier_addCarrier {w w' : Snapshot} {cfg : HwCfg} {c : CcId} {map : SlotMap} {a : Args}
    (h : addCarrier w cfg c map a = .ok w') (sound : w.sound) (coherent : w.coherent) :
    (removeCarrier w' c).seq = w.seq ∧ (removeCarrier w' c).notUsed = w.notUsed ∧
      ∀ x, (entry (removeCarrier w' c).cc x).rate = (entry w.cc x).rate := by
  obtain ⟨inactive, -, w1, r, slots, -, added⟩ := addCarrier_ok h
  have absent := seq_ne_of_inactive sound coherent inactive
  have seq := removeCarrier_seq_of_assigned (w' := w') slots (by rw [added]) absent
  refine ⟨seq, ?_, fun x => ?_⟩
  · obtain ⟨unused, -⟩ := sound
    rw [removeCarrier_frame, seq, unused]
  · rw [removeCarrier_cc, added]
    split
    · next hx =>
      rw [hx]
      exact (not_not.mp (mt ccActive_iff.mpr (Bool.eq_false_iff.mp inactive))).symm
    · next hx =>
      rw [entry_setEntry_other _ _ hx, assignSlots_ok slots]
      rfl

/-- An ADD_CC that answers OK has passed its checks and written the snapshot with the carrier added. -/
theorem exec_addCc_ok {s t : State} {b : Bank} {c : CcId} {map : SlotMap} (h : exec (.addCc b c map) s = .next t)
    (answered : t.pos = s.pos + 1) (ok : t.resp.ok = true) :
    ∃ cfg w', runs (.addCc b c map) s ∧ addCarrier (s.work.get b) cfg c map s.args = .ok w' ∧
      t = respondOk .empty (writeWork b w' s) := by
  rcases exec_next_cases (by simp) h with ⟨k, rfl⟩ | ⟨hr, h⟩
  · simp at answered
  · obtain ⟨cfg, -, h⟩ := withCfg_eq_next.mp h
    obtain rfl := Host.Outcome.next.inj h
    cases added : addCarrier (s.work.get b) cfg c map s.args with
    | error k => simp [added, buildWork] at ok
    | ok w' => exact ⟨cfg, w', hr, added, rfl⟩

/-- Settles O50: ADD_CC leaves the state one in which REMOVE_CC of that bank runs. -/
theorem addThenRemoveRestores : Obligations.AddThenRemoveRestores := by
  intro s s1 b c m sound coherent _ h answered ok
  obtain ⟨cfg, w', hr, added, rfl⟩ := exec_addCc_ok h answered ok
  obtain ⟨seq, notUsed, rates⟩ := removeCarrier_addCarrier added sound coherent
  have runsNext : runs (.removeCc b c) (respondOk .empty (writeWork b w' s)) := hr
  refine ⟨_, exec_removeCc runsNext, rfl, ?_⟩
  simp only [respondOk_work, writeWork_work, PerBank.get_set_same]
  refine ⟨seq, notUsed, rates, ?_, ?_, rfl⟩
  · rw [removeCarrier_cc, if_pos rfl]
  · rw [removeCarrier_cc, if_pos rfl]

end Sys2Proof.Machine
end

section
/-! SUPPORT. The statement about phase alignment (45_phase_alignment.md, R196, R198 (d)): the offset as a sum of two naturals,
and the sum as the division that rounds half up. -/

namespace Sys2Proof.Machine

open Sys2Proof Sys2Proof.Claims

theorem toNat_setWidth_ofBool_getLsbD (x : BitVec 32) (i : Nat) :
    ((BitVec.ofBool (x.getLsbD i)).setWidth 18).toNat = x.toNat / 2 ^ i % 2 := by
  rw [BitVec.toNat_setWidth, BitVec.toNat_ofBool, BitVec.getLsbD, Nat.toNat_testBit]
  omega

/-- The offset in naturals: the shifted difference plus its bit 13, mod 2^18 (R196). -/
theorem derivePhaseOffset_toNat (a b : Phase) :
    (derivePhaseOffset a b).toNat =
      ((b.acc - a.acc).toNat / 2 ^ 14 + (b.acc - a.acc).toNat / 2 ^ 13 % 2) % 2 ^ 18 := by
  rw [derivePhaseOffset, BitVec.toNat_add, toNat_setWidth_ofBool_getLsbD, BitVec.toNat_setWidth,
    BitVec.toNat_ushiftRight, Nat.shiftRight_eq_div_pow, Nat.mod_add_mod]
  rfl

/-- Adding the bit below the boundary to the truncated quotient rounds half up (R198 (d)). -/
theorem add_half_div_two_pow_succ (d k : Nat) :
    (d + 2 ^ k) / 2 ^ (k + 1) = d / 2 ^ (k + 1) + d / 2 ^ k % 2 := by
  rw [Nat.pow_succ, ← Nat.div_div_eq_div_mul, ← Nat.div_div_eq_div_mul, Nat.add_div_right _ (Nat.two_pow_pos k)]
  omega

/-- Settles O37: the sum of R196 is the half-up quotient of R198 (d), by `add_half_div_two_pow_succ` at bit 13. -/
theorem phaseOffsetRoundsHalfUp : Obligations.PhaseOffsetRoundsHalfUp := by
  intro a b d
  have wrapped : (b.acc - a.acc).toNat = d := by
    rw [BitVec.toNat_sub', ← Nat.add_sub_assoc a.acc.isLt.le, Nat.add_comm]
  have sum := derivePhaseOffset_toNat a b
  rw [wrapped] at sum
  exact ⟨sum, sum.trans (by rw [add_half_div_two_pow_succ d 13])⟩

end Sys2Proof.Machine
end

section
/-! SUPPORT. The statements about the events of TRIG and DP (R214 to R216) and about the commands of the triggers and of
STATUS (R210 to R212): an event enabled and not, and the register images bit by bit. -/

namespace Sys2Proof.Machine

open Sys2Proof Sys2Proof.Claims

/-! ### The events of TRIG and DP -/

/-- A fire that is enabled copies NXT into CUR for every bank and disarms its trigger (R214). -/
theorem agentStep_fireCcUpdate {s : State} (armed : s.trigCcUpdate.armed = true) (running : s.hwInReset = false) :
    agentStep .fireCcUpdate s = { s with
      cur := s.cur.onBanks s.build.switchable (fun b _ => s.nxt.get b)
      trigCcUpdate := { s.trigCcUpdate with armed := false } } :=
  if_pos ⟨armed, running⟩

/-- Settles O8: the turn is the event's, enabled or not. -/
theorem fireCcUpdateCopiesNextIntoCurrent : Obligations.FireCcUpdateCopiesNextIntoCurrent := by
  intro s rest hs
  rw [step_agent hs]
  refine ⟨fun armed running => ?_, fun disabled => ?_⟩
  · rw [agentStep_fireCcUpdate (s := { s with sched := rest }) armed running]
    rfl
  · have notEnabled : ¬(s.trigCcUpdate.armed = true ∧ s.hwInReset = false) := fun ⟨armed, running⟩ => by
      simp [armed, running] at disabled
    exact congrArg Host.Outcome.next (if_neg notEnabled)

/-- Settles O9: each event is a conditional on what enables it. -/
theorem fireActivateAndOverflowEvents : Obligations.FireActivateAndOverflowEvents := by
  refine fun s rest => ⟨fun hs => ?_, fun m hs => ?_⟩
  · rw [step_agent hs]
    exact ⟨fun enabled => congrArg Host.Outcome.next (if_pos enabled),
      fun disabled => congrArg Host.Outcome.next (if_neg disabled)⟩
  · rw [step_agent hs]
    exact ⟨fun enabled => congrArg Host.Outcome.next (if_pos enabled),
      fun disabled => congrArg Host.Outcome.next (if_neg disabled)⟩

/-! ### The register images (R46) -/

theorem getLsbD_flagBit (f : Bool) (k i : Nat) : (flagBit f k).getLsbD i = (f && decide (i = k ∧ i < 32)) := by
  cases f
  · simp [flagBit]
  · rw [flagBit, if_pos rfl, BitVec.getLsbD_shiftLeft, BitVec.getLsbD_one, Bool.eq_iff_iff]
    simp only [Bool.and_eq_true, Bool.not_eq_true', Bool.true_and, decide_eq_true_eq, decide_eq_false_iff_not]
    omega

/-- The image is its fields side by side, with zeros between them (R210). -/
theorem triggerImage_eq_append (t : Trigger) :
    triggerImage t = (0#16 ++ t.tuserBit ++ 0#5 ++ t.edgeLevel ++ BitVec.ofBool t.armed : BitVec 32) := by
  refine BitVec.eq_of_getLsbD_eq fun i hi => ?_
  change _ = (0#16 ++ t.tuserBit ++ 0#5 ++ t.edgeLevel ++ BitVec.ofBool t.armed : BitVec (16 + 8 + 5 + 2 + 1)).getLsbD i
  have edge : 3 ≤ i → t.edgeLevel.getLsbD (i - 1) = false := fun h => BitVec.getLsbD_of_ge _ _ (by omega)
  have tuser : 16 ≤ i → t.tuserBit.getLsbD (i - 8) = false := fun h => BitVec.getLsbD_of_ge _ _ (by omega)
  simp only [triggerImage, BitVec.getLsbD_append, getLsbD_flagBit, BitVec.getLsbD_or, BitVec.getLsbD_shiftLeft,
    BitVec.getLsbD_setWidth, hi, Nat.sub_sub]
  split
  case isTrue bit0 =>
    obtain rfl := Nat.lt_one_iff.mp bit0
    simp
  split
  case isTrue bits2to1 => simp [show i ≠ 0 by omega, show i < 8 by omega, show i - 1 < 32 by omega]
  split
  case isTrue bits7to3 => simp [show i ≠ 0 by omega, show i < 8 by omega, edge (by omega)]
  split
  case isTrue bits15to8 =>
    simp [show i ≠ 0 by omega, show ¬i < 8 by omega, show i - 8 < 32 by omega, edge (by omega)]
  case isFalse bits31to16 => simp [show i ≠ 0 by omega, tuser (by omega), edge (by omega)]

theorem getLsbD_statusImage (s : State) (i : Nat) : (statusImage s).getLsbD i =
    (decide (i < 32) && s.ovf.getLsbD i || s.trigActivate.armed && decide (i = 30 ∧ i < 32) ||
      s.trigCcUpdate.armed && decide (i = 31 ∧ i < 32)) := by
  simp only [statusImage, BitVec.getLsbD_or, BitVec.getLsbD_setWidth, getLsbD_flagBit]

/-- Settles O29; no overflow bit reaches the two mirrors, for W_OVF is at most 30. -/
theorem triggerAndStatusImages : Obligations.TriggerAndStatusImages := by
  refine fun s => ⟨fun hr => ?_, fun hr => ?_⟩
  · exact ⟨_, _, exec_of_runs (by simp) hr rfl, triggerImage_eq_append _, triggerImage_eq_append _⟩
  · have width := Config.wOvf.isLt
    have beyond : ∀ i, 30 ≤ i → s.ovf.getLsbD i = false := fun i hi => BitVec.getLsbD_of_ge _ _ (by omega)
    refine ⟨statusImage s, exec_of_runs (by simp) hr rfl, ?_, ?_, fun i hi => ?_⟩ <;> rw [getLsbD_statusImage]
    · rw [beyond 31 (by decide)]; simp
    · rw [beyond 30 (by decide)]; simp
    · simp [show i < 32 by omega, show i ≠ 30 by omega, show i ≠ 31 by omega]

/-- Settles O30: the command runs in Initialised, for it names no bank and reads no WORK. -/
theorem setTriggersWritesTheConfiguration : Obligations.SetTriggersWritesTheConfiguration := by
  intro s hl
  have hr : runs .setTriggersCfg s := ⟨by simp [hl], by simp [permits, hl], by simp [bankModeOk, Instr.bankOperand], rfl⟩
  exact exec_of_runs (by simp) hr rfl

end Sys2Proof.Machine
end

section
/-! SUPPORT. The statements about the commits (R202 to R209): the state in which a commit ends, armed or failed, after the
writes and the events that writeBank_eq and writeBothBanks_eq describe; and the way back from NXT through a fire. -/

namespace Sys2Proof.Machine

open Sys2Proof Sys2Proof.Claims

/-! ### The bank that a commit writes -/

theorem committedAs_imageOf {w : Snapshot} (sound : w.sound) : committedAs w (imageOf w) := by
  have slot := sound.imageOf_slot
  refine ⟨rfl, fun i c below held => ?_, fun i unused => ?_, rfl, rfl, rfl, rfl⟩
  · exact Option.some.inj ((slot i).trans (by rw [slotValue, if_pos below, held, Option.some_or]))
  · rw [slot, slotValue]
    split
    · next below => rw [unused.resolve_left (by omega), Option.none_or]
    · rfl

theorem fits_of_committedAs {w : Snapshot} {h : HwBank} {bd bd' : Build} (committed : committedAs w h) (fits : w.fits bd)
    (same : bd' = bd) : h.fits bd' := by
  obtain ⟨-, -, -, -, -, aux, gain⟩ := committed
  rwa [same, HwBank.fits, aux, gain]

/-! ### The end of a commit (R203, R204) -/

/-- The state after the events among the turns q and a commit's writes, which leave n in NXT and c in CUR. -/
def afterWrites (q z : List Turn) (n c : PerBank HwBank) (s : State) : State :=
  { agentMoves q s with sched := z, nxt := n, cur := c }

/-- The end of a commit that arms the update trigger and caches the placeholders p (R204). -/
def armedCommit (q z : List Turn) (n c : PerBank HwBank) (p : PerBank (Option CcId)) (s : State) : State :=
  { afterWrites q z n c s with
    trigCcUpdate := { s.trigCcUpdate with armed := true }, notUsed := p, resp := okResp .empty, pos := s.pos + 1 }

/-- The end of a commit that finds an update pending (R204, R206). -/
def failedCommit (q z : List Turn) (n c : PerBank HwBank) (s : State) : State :=
  { afterWrites q z n c s with
    trigCcUpdate := s.trigCcUpdate, commitFatal := true, resp := failResp .triggerPending, pos := s.pos + 1 }

/-- The two caches that COMMIT_SW updates (R205). -/
def cacheBoth (s : State) : State := cachePlaceholder .ul (cachePlaceholder .dl s)

/-- TRIG and DP leave a disarmed update trigger as it is (R208). -/
theorem agentMoves_trigger_of_disarmed {s : State} (disarmed : s.trigCcUpdate.armed = false) (q : List Turn) :
    (agentMoves q s).trigCcUpdate = { s.trigCcUpdate with armed := false } := by
  rw [(agentMoves_noFire (.inl disarmed)).2, ← disarmed]

section
variable {q z : List Turn} {n c : PerBank HwBank} {s : State}

/-- A commit whose writes leave the update trigger disarmed arms it. -/
theorem finishCommit_arms {cache : State → State} (p : PerBank (Option CcId) → PerBank Snapshot → PerBank (Option CcId))
    (caches : ∀ t : State, cache t = { t with notUsed := p t.notUsed t.work })
    (disarmed : (agentMoves q s).trigCcUpdate = { s.trigCcUpdate with armed := false }) :
    finishCommit cache (afterWrites q z n c s) = armedCommit q z n c (p s.notUsed s.work) s := by
  have f := (agentMoves_effect q s).frame
  rcases finishCommit_cases cache (afterWrites q z n c s) with ⟨-, e⟩ | ⟨armed, -⟩
  · rw [e, caches, armedCommit, ← f.notUsed_eq, ← f.work_eq, ← f.pos_eq]
    simp [afterWrites, respondOk, okResp, disarmed]
  · simp [afterWrites, disarmed] at armed

/-- A commit whose writes leave the update trigger armed fails. -/
theorem finishCommit_fails (cache : State → State) (armed : s.trigCcUpdate.armed = true) (quiet : noFireAmong q s) :
    finishCommit cache (afterWrites q z n c s) = failedCommit q z n c s := by
  have f := (agentMoves_effect q s).frame
  obtain ⟨-, trig⟩ := agentMoves_noFire quiet
  rcases finishCommit_cases cache (afterWrites q z n c s) with ⟨disarmed, -⟩ | ⟨-, e⟩
  · simp [afterWrites, trig, armed] at disarmed
  · rw [e, failedCommit, ← f.pos_eq, ← trig]
    rfl

theorem exec_commit {u : State} (hr : runs .commit s) (written : writeBank .dl s = some u) :
    exec .commit s = .next (finishCommit (cachePlaceholder .dl) u) := by
  rw [exec_of_runs (by simp) hr rfl, bodyOf, written]

theorem exec_commitSw {u : State} (hr : runs .commitSw s) (written : writeBothBanks s = some u) :
    exec .commitSw s = .next (finishCommit cacheBoth u) := by
  rw [exec_of_runs (by simp) hr rfl, bodyOf, written]
  rfl

theorem exec_commit_arms (hr : runs .commit s) (written : writeBank .dl s = some (afterWrites q z n c s))
    (disarmed : (agentMoves q s).trigCcUpdate = { s.trigCcUpdate with armed := false }) :
    exec .commit s = .next (armedCommit q z n c (s.notUsed.set .dl s.work.dl.notUsed) s) := by
  rw [exec_commit hr written,
    finishCommit_arms (cache := cachePlaceholder .dl) (fun p w => p.set .dl w.dl.notUsed) (fun _ => rfl) disarmed]

theorem exec_commitSw_arms (hr : runs .commitSw s) (written : writeBothBanks s = some (afterWrites q z n c s))
    (disarmed : (agentMoves q s).trigCcUpdate = { s.trigCcUpdate with armed := false }) :
    exec .commitSw s = .next (armedCommit q z n c ⟨s.work.dl.notUsed, s.work.ul.notUsed⟩ s) := by
  rw [exec_commitSw hr written,
    finishCommit_arms (cache := cacheBoth) (fun _ w => ⟨w.dl.notUsed, w.ul.notUsed⟩) (fun _ => rfl) disarmed]

end

/-- COMMIT passes the bank rules in a build that is not switchable only. -/
theorem not_switchable_of_runs_commit {s : State} (h : runs .commit s) : s.build.switchable = false := by
  obtain ⟨-, -, hb, -⟩ := h
  exact (Bool.not_eq_true' _).mp hb

theorem switchable_of_runs_commitSw {s : State} (h : runs .commitSw s) : s.build.switchable = true := by
  obtain ⟨-, -, hb, -⟩ := h
  exact hb

/-- Settles O52: the trigger is disarmed after the writes, because it was before them or because of the fire. -/
theorem commitWritesNextAndArms : Obligations.CommitWritesNextAndArms := by
  intro s hr sound fits nxtFits used done
  obtain ⟨c, written, settled, torn⟩ := writeBank_eq (b := .dl) sound fits nxtFits
  have committed := committedAs_imageOf sound
  refine ⟨fun disarmed => ⟨_, committed, ?_⟩, fun k fires => ?_⟩
  · obtain rfl := settled (.inl disarmed)
    exact exec_commit_arms hr written (agentMoves_trigger_of_disarmed disarmed _)
  · obtain ⟨h, mixed, rfl⟩ := torn k fires
    refine ⟨_, h, committed, mixed, ?_⟩
    rw [not_switchable_of_runs_commit hr] at written
    exact exec_commit_arms hr written (agentMoves_fires fires).2

/-- Settles O53: without a fire the trigger is armed still after the writes. -/
theorem pendingCommitFailsAfterItsWrites : Obligations.PendingCommitFailsAfterItsWrites := by
  intro s hr sound fits nxtFits used armed quiet
  obtain ⟨c, written, settled, -⟩ := writeBank_eq (b := .dl) sound fits nxtFits
  obtain rfl := settled quiet
  exact ⟨_, committedAs_imageOf sound,
    (exec_commit hr written).trans (congrArg Host.Outcome.next (finishCommit_fails _ armed quiet))⟩

/-- Settles O54: as for COMMIT, with the writes of both banks before the one arming. -/
theorem dualCommitEffect : Obligations.DualCommitEffect := by
  intro s hr banks used written done
  obtain ⟨c, writes, settled, torn⟩ := writeBothBanks_eq (switchable_of_runs_commitSw hr) banks
  have dl := committedAs_imageOf (banks .dl).1
  have ul := committedAs_imageOf (banks .ul).1
  refine ⟨fun disarmed => ⟨_, _, dl, ul, ?_⟩, fun k fires => ?_, fun armed quiet => ⟨_, _, dl, ul, ?_⟩⟩
  · obtain rfl := settled (.inl disarmed)
    exact exec_commitSw_arms hr writes (agentMoves_trigger_of_disarmed disarmed _)
  · obtain ⟨tornDl, tornUl, mixedDl, mixedUl, rfl⟩ := torn k fires
    exact ⟨_, _, tornDl, tornUl, dl, ul, mixedDl, mixedUl, exec_commitSw_arms hr writes (agentMoves_fires fires).2⟩
  · obtain rfl := settled quiet
    exact (exec_commitSw hr writes).trans (congrArg Host.Outcome.next (finishCommit_fails _ armed quiet))

/-! ### The round trip through the hardware (R209) -/

/-- The placeholder is no carrier's ID, so a slot of the committed bank holds it exactly where the snapshot's is unused. -/
theorem sameButPhases_of_committed {v w : Snapshot} {h : HwBank} (sound : w.sound) (committed : committedAs w h)
    (readBack : readsBackAs w.notUsed h v) : sameButPhases v w := by
  obtain ⟨len, held, unused, cc, nco, aux, gain⟩ := committed
  obtain ⟨len', beyond, empty, full, notUsed, cc', gain', nco', aux'⟩ := readBack
  obtain ⟨placeholder, above⟩ := sound
  have slot : ∀ i : Fin 16, v.seq[i] = w.seq[i] := fun i => by
    by_cases hi : i.val < w.seqLen.val
    · have hi' : i.val < h.seqLen.val := by rwa [len]
      cases hs : w.seq[i] with
      | none => exact empty i hi' (unused i (.inr hs)).symm
      | some c =>
        have carrier := held i c hi hs
        have other : w.notUsed ≠ some h.slot[i] := fun e =>
          findUnusedId_absent (placeholder.symm.trans e) i (by rw [hs, carrier])
        rw [full i hi' other, carrier]
    · rw [beyond i (by rw [len]; omega), above i (by omega)]
  have seq : v.seq = w.seq := Vector.ext fun j hj => slot ⟨j, hj⟩
  refine ⟨len'.trans len, seq, ?_, cc'.trans cc, gain'.trans gain, nco ▸ nco', aux ▸ aux'⟩
  rw [notUsed, seq, placeholder]

section
variable {s : State} (armed : s.trigCcUpdate.armed = true) (running : s.hwInReset = false)
include armed running

/-- After the fire of an armed update GET_CURRENT_CFG reads NXT[DL] back (R214, R165). -/
theorem getCurrentCfg_after_fire (hr : runs .getCurrentCfg s) (fits : s.nxt.dl.fits s.build) :
    ∃ t, exec .getCurrentCfg (agentStep .fireCcUpdate s) = .next t ∧ t.resp = okResp .empty ∧ t.wv.dl = true ∧
      readsBackAs s.notUsed.dl s.nxt.dl t.work.dl := by
  rw [agentStep_fireCcUpdate armed running]
  obtain ⟨w, d, back, read⟩ := readBackOfSettledHardware { s with
    cur := s.cur.onBanks s.build.switchable (fun b _ => s.nxt.get b)
    trigCcUpdate := { s.trigCcUpdate with armed := false } } hr fits (.inl rfl)
  exact ⟨_, read, rfl, rfl, back⟩

/-- After the fire of an armed update GET_CURRENT_CFG_SW reads both NXT banks back (R214, R166). -/
theorem getCurrentCfgSw_after_fire (hr : runs .getCurrentCfgSw s) (fits : ∀ b, (s.nxt.get b).fits s.build) :
    ∃ t, exec .getCurrentCfgSw (agentStep .fireCcUpdate s) = .next t ∧ t.resp = okResp .empty ∧
      ∀ b, t.wv.get b = true ∧ readsBackAs (s.notUsed.get b) (s.nxt.get b) (t.work.get b) := by
  rw [agentStep_fireCcUpdate armed running, switchable_of_runs_getCurrentCfgSw hr]
  obtain ⟨d, u, n, backDl, backUl, read⟩ := dualReadBackOfSettledHardware { s with
    cur := s.cur.onBanks true (fun b _ => s.nxt.get b)
    trigCcUpdate := { s.trigCcUpdate with armed := false } } hr (fits .dl) (fits .ul) (.inl rfl)
  exact ⟨_, read, rfl, fun | .dl => ⟨rfl, backDl⟩ | .ul => ⟨rfl, backUl⟩⟩

end

/-- GET_CURRENT_CFG runs wherever COMMIT does (R232, R257). -/
theorem runs_getCurrentCfg_of_commit {s t : State} (h : runs .commit s) (hl : t.lc = s.lc) (hb : t.build = s.build) :
    runs .getCurrentCfg t := by
  obtain ⟨bound, permitted, bank, -⟩ := h
  have operational : s.lc = .operational := by simpa [permits] using permitted
  exact ⟨hl ▸ bound, by rw [hl, operational]; rfl, by rwa [bankModeOk, hb], rfl⟩

/-- GET_CURRENT_CFG_SW runs wherever COMMIT_SW does (R232, R257). -/
theorem runs_getCurrentCfgSw_of_commitSw {s t : State} (h : runs .commitSw s) (hl : t.lc = s.lc)
    (hb : t.build = s.build) : runs .getCurrentCfgSw t := by
  obtain ⟨bound, permitted, bank, -⟩ := h
  have operational : s.lc = .operational := by simpa [permits] using permitted
  exact ⟨hl ▸ bound, by rw [hl, operational]; rfl, by rwa [bankModeOk, hb], rfl⟩

/-- Settles O55: the commit leaves its bank in NXT, the fire takes it to CUR, and it reads back under the placeholder that
the commit cached. -/
theorem commitFireReadBackRoundTrip : Obligations.CommitFireReadBackRoundTrip := by
  refine fun s disarmed running => ⟨fun hr sound fits nxtFits => ?_, fun hr banks => ?_⟩
  · obtain ⟨whenDisarmed, -⟩ := commitWritesNextAndArms s hr sound fits nxtFits
    obtain ⟨h, committed, commit⟩ := whenDisarmed disarmed
    have f := (agentMoves_effect (turnsUsed s.sched (unitCount s.build)) s).frame
    obtain ⟨t, read, resp, wv, back⟩ := getCurrentCfg_after_fire
      (s := armedCommit _ _ (s.nxt.set .dl h) _ (s.notUsed.set .dl s.work.dl.notUsed) s) rfl
      (f.hwInReset_eq.trans running) (runs_getCurrentCfg_of_commit hr f.lc_eq f.build_eq)
      (fits_of_committedAs committed fits f.build_eq)
    exact ⟨_, t, commit, read, resp, wv, sameButPhases_of_committed sound committed back⟩
  · obtain ⟨whenDisarmed, -⟩ := dualCommitEffect s hr banks
    obtain ⟨d, u, dl, ul, commit⟩ := whenDisarmed disarmed
    have f := (agentMoves_effect (turnsUsed s.sched (2 * unitCount s.build)) s).frame
    have committed : ∀ b, committedAs (s.work.get b) ((⟨d, u⟩ : PerBank HwBank).get b) := fun | .dl => dl | .ul => ul
    obtain ⟨t, read, resp, back⟩ := getCurrentCfgSw_after_fire
      (s := armedCommit _ _ ⟨d, u⟩ _ ⟨s.work.dl.notUsed, s.work.ul.notUsed⟩ s) rfl
      (f.hwInReset_eq.trans running) (runs_getCurrentCfgSw_of_commitSw hr f.lc_eq f.build_eq)
      fun b => by
        obtain ⟨-, fits, -⟩ := banks b
        exact fits_of_committedAs (committed b) fits f.build_eq
    refine ⟨_, t, commit, read, resp, fun b => ?_⟩
    obtain ⟨sound, -⟩ := banks b
    obtain ⟨wv, bank⟩ := back b
    exact ⟨wv, sameButPhases_of_committed sound (committed b) (by cases b <;> exact bank)⟩

end Sys2Proof.Machine
end

section
/-! SUPPORT. The statement about the model's own faults (R202, R243 (e)): cfg, L and the placeholders are there where a
command that passes its checks reads them. -/

namespace Sys2Proof.Machine

open Sys2Proof Sys2Proof.Claims

theorem withCfg_ne_fault {s : State} {g : HwCfg → Host.Outcome State Fault Refusal} {f : Fault}
    (configured : ∃ cfg, s.cfg = some cfg) (h : ∀ cfg, g cfg ≠ .fault f) : withCfg s g ≠ .fault f := by
  obtain ⟨cfg, hc⟩ := configured
  rw [withCfg_of_some hc]
  exact h cfg

theorem withLen_ne_fault {s : State} {g : SeqLen → Host.Outcome State Fault Refusal} {f : Fault}
    (programmed : ∃ l, s.len = some l) (h : ∀ l, g l ≠ .fault f) : withLen s g ≠ .fault f := by
  obtain ⟨l, hl⟩ := programmed
  rw [withLen_of_some hl]
  exact h l

theorem fromConfigured_of_inInitialisedOrOperational {l : Lifecycle} (h : inInitialisedOrOperational l = true) :
    fromConfigured l = true := by
  revert h
  cases l <;> decide

theorem State.Inv.cfg_of_initialised {s : State} (inv : s.Inv) (hl : inInitialisedOrOperational s.lc = true) :
    ∃ cfg, s.cfg = some cfg := by
  obtain ⟨hc, -⟩ := inv.configured (fromConfigured_of_inInitialisedOrOperational hl)
  exact ⟨_, hc⟩

theorem State.Inv.len_of_initialised {s : State} (inv : s.Inv) (hl : inInitialisedOrOperational s.lc = true) :
    ∃ l, s.len = some l := by
  obtain ⟨-, l, hn, -⟩ := inv.lengths hl
  exact ⟨l, hn⟩

theorem State.Inv.writeBank_isSome {s : State} (inv : s.Inv) {b : Bank} (hw : loaded s b = true) :
    ∃ u, writeBank b s = some u := by
  obtain ⟨-, -, sound⟩ := inv.loadedSound b hw
  exact ⟨_, writeBank_sound sound⟩

theorem State.Inv.writeBothBanks_isSome {s : State} (inv : s.Inv) (hb : s.build.switchable = true)
    (hw : ∀ b, loaded s b = true) : ∃ u, writeBothBanks s = some u := by
  obtain ⟨c, written, -⟩ := writeBothBanks_eq hb fun b => by
    obtain ⟨-, -, sound⟩ := inv.loadedSound b (hw b)
    exact ⟨sound, inv.workFits b, inv.nxtFits b⟩
  exact ⟨_, written⟩

/-- A command whose checks have passed finds what its body reads. -/
theorem bodyOf_ne_fault {i : Instr} {s : State} (inv : s.Inv) (hr : runs i s) (f : Fault) : bodyOf i s ≠ .fault f := by
  obtain ⟨-, hp, hb, hw⟩ := hr
  have work := workOk_iff.mp hw
  cases i with
  | configure => rw [bodyOf]; split <;> nofun
  | getEmptyCfg b => exact withLen_ne_fault (inv.len_of_initialised hp) nofun
  | deriveRate m =>
    exact withLen_ne_fault (inv.len_of_initialised hp) fun l => withCfg_ne_fault (inv.cfg_of_initialised hp) nofun
  | addCc | updateCc | moveCc | setAntGain | setAllAntGain | checkCapacity =>
    have operational : s.lc = .operational := by simpa [permits] using hp
    exact withCfg_ne_fault (inv.cfg_of_initialised (by rw [operational]; rfl)) nofun
  | commit =>
    obtain ⟨u, written⟩ := inv.writeBank_isSome (work .dl rfl)
    rw [bodyOf, written]
    nofun
  | commitSw =>
    have sw : s.build.switchable = true := hb
    obtain ⟨u, written⟩ := inv.writeBothBanks_isSome sw fun b => work b (by simp [readsWork, sw])
    rw [bodyOf, written]
    nofun
  | _ => nofun

theorem exec_ne_fault {i : Instr} {s : State} (inv : s.Inv) (f : Fault) : exec i s ≠ .fault f := by
  by_cases hi : i = .lookup
  · subst hi
    nofun
  · rw [exec_eq_guarded i s hi]
    rcases guarded_cases s (permits i) (bankModeOk i s) (workOk i s) (indexOk i s) (bodyOf i s) with
      ⟨c, e⟩ | ⟨hl, hp, hb, hw, -, e⟩
    · rw [e]; nofun
    · rw [e]; exact bodyOf_ne_fault inv ⟨hl, hp, hb, hw⟩ f

theorem mapNext_eq_fault {g : State → State} {o : Host.Outcome State Fault Refusal} {f : Fault} :
    mapNext g o = .fault f ↔ o = .fault f := by
  cases o <;> simp [mapNext]

theorem hostTurn_ne_fault {s : State} (inv : s.Inv) (f : Fault) : hostTurn s ≠ .fault f := by
  unfold hostTurn
  split
  · nofun
  split
  · nofun
  next c _ =>
  rw [Ne, mapNext_eq_fault, runCommand]
  split
  · exact exec_ne_fault ((BookkeepingOnly.latchCommand c s).inv inv) f
  · nofun

/-- Settles O59: a fault of the model could only come from the body of a command that HOST issues. -/
theorem noModelFaultUnderTheInvariant : Obligations.NoModelFaultUnderTheInvariant := by
  intro s f inv
  unfold step
  split
  · exact hostTurn_ne_fault inv f
  · exact hostTurn_ne_fault ((BookkeepingOnly.withSched s _).inv inv) f
  · nofun

end Sys2Proof.Machine
end

section
/-! SUPPORT. The statements about the permission matrix (R232, R257) and about the lifecycle commands (R233 to R242): a
lifecycle command names no bank and reads no WORK, so where the matrix permits it and its index is in range it is its
body. -/

namespace Sys2Proof.Machine

open Sys2Proof Sys2Proof.Claims

/-! ### The first two checks of R257 -/

/-- Settles O15: NULL_HANDLE is the first check of R257. -/
theorem notReadyRaisesNullHandle : Obligations.NotReadyRaisesNullHandle := by
  intro i s hi hl hf
  rw [exec_eq_guarded i s hi, guarded_nullHandle hl, raise_of_none _ hf]

/-- Settles O16 by the second check of R257; the matrix marks no state W for LOOKUP, whose own rule raises its fault. -/
theorem matrixRaisesWrongState : Obligations.MatrixRaisesWrongState := by
  intro i s hl hp hf
  have hi : i ≠ .lookup := by
    rintro rfl
    simp [permits] at hp
  rw [exec_eq_guarded i s hi, guarded_wrongState hl hp, raise_of_none _ hf]

/-! ### A lifecycle command past its checks -/

/-- The matrix permits LOOKUP alone in NotReady. -/
theorem ne_notReady_of_permits {i : Instr} {l : Lifecycle} (hi : i ≠ .lookup) (hp : permits i l = true) :
    l ≠ .notReady := by
  rintro rfl
  cases i with
  | lookup => exact hi rfl
  | _ => cases hp

/-- No lifecycle command names a bank or reads WORK, so the matrix alone says where it runs (R232, R257). -/
theorem runs_of_isLifecycle {i : Instr} {s : State} (hc : isLifecycle i = true) (hi : i ≠ .lookup)
    (hp : permits i s.lc = true) : runs i s := by
  refine ⟨ne_notReady_of_permits hi hp, hp, ?_⟩
  cases i with
  | lookup | reset | configure | initialise | activate | deactivate | close => exact ⟨Bool.or_true _, rfl⟩
  | _ => cases hc

/-- A lifecycle command in a state that the matrix permits, with its index in range, is its body. -/
theorem exec_of_isLifecycle {i : Instr} {s : State} (hc : isLifecycle i = true) (hi : i ≠ .lookup)
    (hp : permits i s.lc = true) (hx : indexOk i s = true) : exec i s = bodyOf i s :=
  exec_of_runs hi (runs_of_isLifecycle hc hi hp) hx

/-! ### LOOKUP (R233) -/

theorem exec_lookup (s : State) : exec .lookup s = .next (lookupState s) := rfl

section
variable {s : State}

/-- In NotReady a name that the platform knows is bound, or finds the registry full. -/
theorem lookupState_known (hl : s.lc = .notReady) (known : s.args.name ∈ s.build.devices) :
    lookupState s = if registryFull s then respondFail .registryFull (drawRegistry s)
      else respondOk .empty { drawRegistry s with name := some s.args.name, lc := .ready } := by
  rw [lookupState, if_pos hl, if_neg (by simpa using known)]

theorem lookupState_unknown (hl : s.lc = .notReady) (unknown : s.args.name ∉ s.build.devices) :
    lookupState s = respondFail .deviceNotFound s := by
  rw [lookupState, if_pos hl, if_pos (by simpa using unknown)]

/-- While bound, LOOKUP compares the names. -/
theorem lookupState_bound (hl : s.lc ≠ .notReady) :
    lookupState s = if s.name = some s.args.name then respondOk .empty s else raise .wrongState s := by
  rw [lookupState, if_neg hl]

theorem registryFull_iff : registryFull s = true ↔ s.build.registrySize = 0 ∨ s.regDraw = true := by
  simp [registryFull]

end

/-- Settles O22: each clause is one branch of the rule. -/
theorem lookupEffect : Obligations.LookupEffect := by
  refine fun s => ⟨fun hl known size free => ?_, fun hl unknown => ?_, fun hl known full => ?_, fun hl own => ?_,
    fun hl other hf => ?_⟩
  · have room : ¬registryFull s = true := by
      rw [registryFull_iff]
      rintro (h | h)
      · omega
      · simp [free] at h
    refine ⟨Config.freeRegFull s.draws, ?_⟩
    rw [exec_lookup, lookupState_known hl known, if_neg room]
    rfl
  · rw [exec_lookup, lookupState_unknown hl unknown]
    rfl
  · refine ⟨Config.freeRegFull s.draws, ?_⟩
    rw [exec_lookup, lookupState_known hl known, if_pos (registryFull_iff.mpr full)]
    rfl
  · rw [exec_lookup, lookupState_bound hl, if_pos own]
    rfl
  · rw [exec_lookup, lookupState_bound hl, if_neg other, raise_of_none _ hf]

/-! ### RESET and CLOSE (R236, R241) -/

/-- An update of the banks of a build that is not switchable keeps the UL entry. -/
theorem PerBank.onBanks_ul_of_not_switchable {α : Type} {sw : Bool} (h : sw = false) (f : Bank → α → α)
    (p : PerBank α) : (p.onBanks sw f).ul = p.ul := by
  simp [h]

/-- Settles O23: RESET responds after resetState. -/
theorem resetEffect : Obligations.ResetEffect := by
  intro s hl
  refine ⟨_, exec_of_isLifecycle rfl (by simp) (by simp [permits, hl]) rfl, rfl, fun single => ?_⟩
  exact ⟨PerBank.onBanks_ul_of_not_switchable single _ _, PerBank.onBanks_ul_of_not_switchable single _ _⟩

/-- Settles O27: CLOSE responds after closeState. -/
theorem closeEffect : Obligations.CloseEffect := by
  intro s hl
  refine ⟨_, exec_of_isLifecycle rfl (by simp) (by simp [permits, hl]) rfl, rfl, fun single => ?_⟩
  exact PerBank.onBanks_ul_of_not_switchable single _ _

/-! ### CONFIGURE (R237) -/

/-- The premises of D44. -/
theorem HwCfg.wellFormed_iff {c : HwCfg} :
    c.wellFormed = true ↔ 1 ≤ c.usableCc ∧ c.usableCc ≤ 16 ∧ 1 ≤ c.lanes ∧ 1 ≤ c.numAntenna := by
  simp [HwCfg.wellFormed, and_assoc]

/-- Settles O24: the body of CONFIGURE is a conditional on the premises. -/
theorem configureEffect : Obligations.ConfigureEffect := by
  intro s hl
  rw [exec_of_isLifecycle (i := .configure) rfl (by simp) (by simp [permits, hl]) rfl, bodyOf]
  refine ⟨fun usable atMost lanes antennas => ?_, fun outside => if_neg (mt HwCfg.wellFormed_iff.mp outside)⟩
  rw [if_pos (HwCfg.wellFormed_iff.mpr ⟨usable, atMost, lanes, antennas⟩)]
  rfl

/-! ### INITIALISE (R238) -/

theorem seqLenOperand_val {n : BitVec 5} (h : n.toNat ≤ 16) : (seqLenOperand n).val = max n.toNat 1 :=
  min_eq_left (by omega)

theorem HwBank.blank_blankBank (bd : Build) (l : SeqLen) : blankBank bd l (HwBank.blank bd l) :=
  ⟨rfl, fun _ => Vector.getElem_replicate _, fun _ => Vector.getElem_replicate _,
    fun _ => Vector.getElem_replicate _, rfl, rfl⟩

/-- INITIALISE makes every bank of the build blank and keeps an UL entry that the build does not use. -/
theorem onBanks_blank (bd : Build) (l : SeqLen) (p : PerBank HwBank) :
    let q := p.onBanks bd.switchable fun _ _ => HwBank.blank bd l
    blankBank bd l q.dl ∧ (bd.switchable = true → blankBank bd l q.ul) ∧ (bd.switchable = false → q.ul = p.ul) := by
  refine ⟨HwBank.blank_blankBank bd l, fun dual => ?_, fun single => PerBank.onBanks_ul_of_not_switchable single _ _⟩
  rw [PerBank.onBanks_ul, if_pos dual]
  exact HwBank.blank_blankBank bd l

/-- Settles O25: the length check, and then the body's conditional on the update trigger. -/
theorem initialiseEffect : Obligations.InitialiseEffect := by
  intro s hl
  have hr : runs .initialise s := runs_of_isLifecycle rfl (by simp) (by simpa [permits] using hl)
  have body (h : s.args.seqLen.toNat ≤ 16) : exec .initialise s = bodyOf .initialise s :=
    exec_of_runs (by simp) hr (decide_eq_true h)
  refine ⟨fun h idle => ?_, fun h pending => ?_, fun h hf => ?_⟩
  · obtain ⟨curDl, curUl, curKept⟩ := onBanks_blank s.build (seqLenOperand s.args.seqLen) s.cur
    obtain ⟨nxtDl, nxtUl, nxtKept⟩ := onBanks_blank s.build (seqLenOperand s.args.seqLen) s.nxt
    refine ⟨seqLenOperand s.args.seqLen, respondOk .empty (initialiseState (seqLenOperand s.args.seqLen) s),
      seqLenOperand_val h, ?_, rfl, curDl, nxtDl, fun dual => ⟨curUl dual, nxtUl dual⟩,
      fun single => ⟨curKept single, nxtKept single⟩⟩
    rw [body h, bodyOf, if_neg (by simp [idle])]
  · rw [body h, bodyOf, if_pos pending]
    rfl
  · exact exec_indexOob (by simp) hr (decide_eq_false h.not_ge) hf

/-! ### ACTIVATE and DEACTIVATE (R239, R240) -/

/-- Settles O26: the bodies are conditionals on the state that they enter. -/
theorem activateAndDeactivateEffect : Obligations.ActivateAndDeactivateEffect := by
  intro s
  have activate (hp : permits .activate s.lc = true) : exec .activate s = bodyOf .activate s :=
    exec_of_isLifecycle rfl (by simp) hp rfl
  have deactivate (hp : permits .deactivate s.lc = true) : exec .deactivate s = bodyOf .deactivate s :=
    exec_of_isLifecycle rfl (by simp) hp rfl
  refine ⟨fun hl => ?_, fun hl => ?_, fun hl => ?_, fun hl => ?_⟩
  · rw [activate (by simp [permits, hl]), bodyOf, if_neg (by simp [hl])]
    rfl
  · rw [activate (by simp [permits, hl]), bodyOf, if_pos hl]
    rfl
  · rw [deactivate (by simp [permits, hl]), bodyOf, if_neg (by simp [hl])]
    rfl
  · rw [deactivate (by simp [permits, hl]), bodyOf, if_pos hl]
    rfl

/-! ### GET_STATE (R242) -/

/-- Settles O28: the answer is the number of the state (R26). -/
theorem getStateAnswersTheLifecycle : Obligations.GetStateAnswersTheLifecycle := by
  intro s hl
  have hr : runs .getState s := ⟨hl, by simp [permits, hl], by simp [bankModeOk, Instr.bankOperand], rfl⟩
  refine ⟨s.lc.code, exec_of_runs (by simp) hr rfl, ?_, ?_, ?_, ?_, ?_⟩ <;> exact fun h => congrArg Lifecycle.code h

end Sys2Proof.Machine
end

section
/-! SUPPORT. The statements about faults and failures (R252, R254, R256): how a command can end, said once, from which both
are read off. -/

namespace Sys2Proof.Machine

open Sys2Proof Sys2Proof.Claims

/-! ### How a command ends -/

/-- How a command ends: it raises a fault (R256), answers OK and leaves the fault record as it is, answers with a failure
and leaves all else as it is but the model's draws (R252, log 11), or is a commit that fails after its writes (R253). -/
inductive CommandEnd (i : Instr) (s : State) : State → Prop
  | raised (c : FaultCause) : CommandEnd i s (raise c s)
  | answered (p : Payload) {u : State} (hf : u.fault = s.fault) : CommandEnd i s (respondOk p u)
  | failed (k : FailCause) (draws : Nat) (regDraw : Bool) :
      CommandEnd i s (respondFail k { s with draws := draws, regDraw := regDraw })
  | commitFailed {u : State} (hi : i = .commit ∨ i = .commitSw) (hf : u.fault = s.fault) :
      CommandEnd i s (respondFail .triggerPending u)

theorem commandEnd_of_next {i : Instr} {s t u : State}
    (h : (Host.Outcome.next u : Host.Outcome State Fault Refusal) = .next t) (e : CommandEnd i s u) :
    CommandEnd i s t :=
  Host.Outcome.next.inj h ▸ e

theorem commandEnd_respondFail (i : Instr) (k : FailCause) (s : State) : CommandEnd i s (respondFail k s) :=
  .failed k s.draws s.regDraw

/-- A builder command writes its edit or reports a failure (R161). -/
theorem commandEnd_buildWork (i : Instr) (b : Bank) (r : Except FailCause Snapshot) (s : State) :
    CommandEnd i s (buildWork b r s) := by
  cases r with
  | ok w => exact .answered _ rfl
  | error k => exact commandEnd_respondFail i k s

/-- A dry run answers its value or reports a failure. -/
theorem commandEnd_respondCheck {α : Type} (i : Instr) (r : Except FailCause α) (p : α → Payload) (s : State) :
    CommandEnd i s (respondCheck r p s) := by
  cases r with
  | ok v => exact .answered _ rfl
  | error k => exact commandEnd_respondFail i k s

/-- A commit whose writes are done arms the trigger or fails (R204). -/
theorem commandEnd_finishCommit {i : Instr} {s u : State} {cache : State → State}
    (hc : ∀ v, (cache v).fault = v.fault) (hi : i = .commit ∨ i = .commitSw) (hu : commitWrites i s = some u) :
    CommandEnd i s (finishCommit cache u) := by
  obtain ⟨access, -⟩ := commitWrites_access hu
  have hf : u.fault = s.fault := access.frame.fault_eq
  rcases finishCommit_cases cache u with ⟨-, e⟩ | ⟨-, e⟩
  · exact e ▸ .answered _ ((hc _).trans hf)
  · exact e ▸ .commitFailed hi hf

/-- How LOOKUP ends (R233). -/
theorem lookupState_end (s : State) : CommandEnd .lookup s (lookupState s) := by
  unfold lookupState
  split
  · split
    · exact commandEnd_respondFail _ _ s
    · split
      · exact .failed _ _ _
      · exact .answered _ rfl
  · split
    · exact .answered _ rfl
    · exact .raised _

/-- How the body of a command ends. -/
theorem bodyOf_end {i : Instr} {s t : State} (h : bodyOf i s = .next t) : CommandEnd i s t := by
  cases i with
  | lookup => exact commandEnd_of_next h (lookupState_end s)
  | configure =>
    rw [bodyOf] at h
    split at h
    · exact commandEnd_of_next h (.answered _ rfl)
    · cases h
  | initialise =>
    refine commandEnd_of_next h ?_
    split
    · exact commandEnd_respondFail _ _ s
    · exact .answered _ rfl
  | activate | deactivate => exact commandEnd_of_next h (.answered _ (by split <;> rfl))
  | getCurrentCfg => exact commandEnd_of_next h (.answered _ (loadCurrent_access .dl s).frame.fault_eq)
  | getCurrentCfgSw => exact commandEnd_of_next h (.answered _ (loadBothBanks_access s).frame.fault_eq)
  | getEmptyCfg =>
    obtain ⟨l, -, h⟩ := withLen_eq_next.mp h
    exact commandEnd_of_next h (.answered _ rfl)
  | addCc | updateCc | moveCc =>
    obtain ⟨cfg, -, h⟩ := withCfg_eq_next.mp h
    exact commandEnd_of_next h (commandEnd_buildWork _ _ _ s)
  | removeCc | addAux | removeAux => exact commandEnd_of_next h (commandEnd_buildWork _ _ _ s)
  | setAntGain | setAllAntGain =>
    obtain ⟨cfg, -, h⟩ := withCfg_eq_next.mp h
    exact commandEnd_of_next h (.answered _ rfl)
  | commit =>
    rw [bodyOf] at h
    split at h
    · cases h
    · next u hu => exact commandEnd_of_next h (commandEnd_finishCommit (fun _ => rfl) (.inl rfl) hu)
  | commitSw =>
    rw [bodyOf] at h
    split at h
    · cases h
    · next u hu => exact commandEnd_of_next h (commandEnd_finishCommit (fun _ => rfl) (.inr rfl) hu)
  | checkSlots => exact commandEnd_of_next h (commandEnd_respondCheck _ _ _ s)
  | deriveRate =>
    obtain ⟨l, -, h⟩ := withLen_eq_next.mp h
    obtain ⟨cfg, -, h⟩ := withCfg_eq_next.mp h
    exact commandEnd_of_next h (commandEnd_respondCheck _ _ _ s)
  | checkCapacity =>
    obtain ⟨cfg, -, h⟩ := withCfg_eq_next.mp h
    exact commandEnd_of_next h (commandEnd_respondCheck _ _ _ s)
  | reset | close | getState | getTriggersCfg | setTriggersCfg | getStatus | readWork | countOnes | findUnusedId
  | derivePhaseOffset => exact commandEnd_of_next h (.answered _ rfl)

/-- How a command ends (R252 to R257). -/
theorem exec_end {i : Instr} {s t : State} (h : exec i s = .next t) : CommandEnd i s t := by
  by_cases hi : i = .lookup
  · subst hi
    exact bodyOf_end h
  · rcases exec_next_cases hi h with ⟨c, rfl⟩ | ⟨-, body⟩
    · exact .raised c
    · exact bodyOf_end body

/-! ### The statements -/

/-- Settles O20: of the ends of a command only raising writes the fault record, and it writes nothing else. -/
theorem faultChangesNothingElse : Obligations.FaultChangesNothingElse := by
  intro i s t c hf h fault
  have unrecorded : s.fault ≠ some c := by simp [hf]
  cases exec_end h with
  | raised d =>
    rw [raise_of_none d hf] at fault ⊢
    rw [← fault]
  | answered _ kept | commitFailed _ kept => exact absurd (kept.symm.trans fault) unrecorded
  | failed => exact absurd fault unrecorded

/-- The causes of a failure are numbered 0x01 to 0x0B (R251). -/
theorem FailCause.code_range (k : FailCause) : 1 ≤ k.code.toNat ∧ k.code.toNat ≤ 0x0B := by
  cases k <;> decide

/-- Settles O21: HOST stays at a command that raises, and no other end but a failure has RESP.ok = 0. -/
theorem failureChangesOnlyTheResponse : Obligations.FailureChangesOnlyTheResponse := by
  intro i s t single dual h advanced failure
  cases exec_end h with
  | raised c =>
    rw [raise_pos] at advanced
    omega
  | answered => cases failure
  | failed k => exact ⟨rfl, rfl, k.code_range⟩
  | commitFailed hi => exact absurd hi (not_or.mpr ⟨single, dual⟩)

end Sys2Proof.Machine
end

section
/-! SUPPORT. The statements about power-on (R289, R290): the invariant's base case, for any NotReady state with nothing
loaded. -/

namespace Sys2Proof.Machine

open Sys2Proof

/-- Settles O56: the registers of the table are constants of State.powerOn, whatever the mixer launches with. -/
theorem powerOnState : Obligations.PowerOnState := fun _ _ =>
  ⟨rfl, rfl, rfl, rfl, rfl, rfl, rfl, rfl, rfl, rfl⟩

/-- In NotReady every part of the invariant about a later state holds for want of its premise (R29). -/
theorem inv_of_notReady {s : State} (fits : s.Fits) (hl : s.lc = .notReady) (hn : s.name = none)
    (unloaded : ∀ b, loaded s b = false) (hf : s.commitFatal = false) (sel : s.bankSel = .dl) : s.Inv := by
  have early : inInitialisedOrOperational s.lc ≠ true := by simp [hl, inInitialisedOrOperational]
  have ctl : s.Control :=
    { bound := iff_of_true hn hl
      configured := fun k => by simp [hl, fromConfigured] at k
      enabled := fun k => absurd k early
      held := fun k => by simp [hl] at k
      updateDisarmed := fun k => by simp [hl] at k
      stopped := fun k => by simp [hl] at k
      fatal := fun k => by simp [hf] at k }
  exact inv_iff.mpr ⟨fits, ctl, fun b k => by simp [unloaded b] at k, fun k => absurd k early, sel⟩

/-- At power-on WORK is blank, so only the banks of the mixer can have another length than the build's (R24, R25). -/
theorem powerOn_fits {bd : Build} {m : Launch} (cur : ∀ b, (m.cur.get b).fits bd) (nxt : ∀ b, (m.nxt.get b).fits bd) :
    (State.powerOn bd m).Fits := fun b => by
  have work : (State.powerOn bd m).work.get b = Snapshot.blank bd SeqLen.one := by cases b <;> rfl
  exact ⟨work ▸ Snapshot.blank_fits bd SeqLen.one, cur b, nxt b⟩

theorem powerOn_inv {bd : Build} {m : Launch} (cur : ∀ b, (m.cur.get b).fits bd) (nxt : ∀ b, (m.nxt.get b).fits bd) :
    (State.powerOn bd m).Inv := by
  obtain ⟨hl, hn, -, -, -, sel, dl, ul, -, hf⟩ := powerOnState bd m
  have unloaded : ∀ b, loaded (State.powerOn bd m) b = false
    | .dl => dl
    | .ul => ul
  exact inv_of_notReady (powerOn_fits cur nxt) hl hn unloaded hf sel

/-- The launch value of the model's reset state has blank banks (log 6). -/
theorem Launch.zero_fits (bd : Build) (b : Bank) :
    ((Launch.zero bd).cur.get b).fits bd ∧ ((Launch.zero bd).nxt.get b).fits bd := by
  cases b <;> exact ⟨HwBank.blank_fits bd SeqLen.one, HwBank.blank_fits bd SeqLen.one⟩

/-- Settles O57: the state at power-on is NotReady with nothing loaded, and State.reset is the one of a fitting launch. -/
theorem invariantHoldsAtPowerOn : Obligations.InvariantHoldsAtPowerOn :=
  ⟨fun _ _ => powerOn_inv,
    powerOn_inv (fun b => (Launch.zero_fits Config.build b).1) fun b => (Launch.zero_fits Config.build b).2⟩

end Sys2Proof.Machine
end
